-- ==== Sys2Proof/Word.lean ====
section
/-! DEFINITION. The word types of the SHA hash arbiter, what the spec treats as bits, and the names of the hash
families and modes. Every serialisation and every piece of arithmetic over them stands under Machine/. -/

namespace Sys2Proof

/-- One byte of the data-in and digest-out streams and of the partial-block buffer (R63, R66). -/
abbrev Byte := BitVec 8

/-- One 32-bit word of the command channel: a command word `CW` or a `LEN` word (R91, R94). -/
abbrev CmdWord := BitVec 32

/-- One word of `ctx[s].state[]` or of `eng.H[]`: 64 bits, of which families `F1` and `F256` use the
low 32 (R22, R30, R32). -/
abbrev Word := BitVec 64

/-- The byte counter `total`: 128 bits, of which families `F1` and `F256` use the low 64 (R30, R31). -/
abbrev Counter := BitVec 128

/-- The three hash families (R2). -/
inductive Family where
  | f1
  | f256
  | f512
  deriving DecidableEq, Repr

/-- The five hash modes (R2, R35). -/
inductive Mode where
  | sha1
  | sha224
  | sha256
  | sha384
  | sha512
  deriving DecidableEq, Repr

end Sys2Proof
end

