-- ==== Sys2Proof/Syntax.lean ====
section
/-! DEFINITION. The syntax: one constructor per row of the opcode table. -/

namespace Sys2Proof

/-- A whole command: one constructor per row of the opcode table (R97).
`sid` is `CW[15:0]`, `nullbuf` is `CW[23]`, `len` the `LEN` word and `data` the bytes that follow it on
data-in (R91, R94). The internal micro-operations have no encoding and are no instructions (R103):
they are the moves of Machine/Scheduler.lean. -/
inductive Instr where
  | hwinit
  | startsSha1 (sid : BitVec 16)
  | startsSha256 (sid : BitVec 16)
  | startsSha224 (sid : BitVec 16)
  | startsSha512 (sid : BitVec 16)
  | startsSha384 (sid : BitVec 16)
  | update (nullbuf : Bool) (sid : BitVec 16) (len : BitVec 32) (data : List Byte)
  | finish (nullbuf : Bool) (sid : BitVec 16)
  deriving DecidableEq, Repr

end Sys2Proof
end

