-- ==== Sys2Proof/Config.lean ====
section
/-! DEFINITION. The implementation parameters of R9 and the free values of the run.
The parameters are plain data: a machine carries one `Config` in its state and no step changes it, so a
statement over every state is a statement over every implementation (log entry 1).
The free values are opaque constants: nothing can be proved about what they are. -/

namespace Sys2Proof

/-- Which pair of functions `IV`, `Compress` the engine computes (R9, R215): the standard ones of
R216 to R219, or some other pair, numbered, of which nothing is known. -/
inductive EngineModel where
  | fips
  | other (k : Nat)
  deriving DecidableEq, Repr

/-- The open parameters of R9. `lockTimeout` is `LOCK_TIMEOUT = some`; `hwCanFail` is `HW_CAN_FAIL`. -/
structure Config where
  nCtx : Nat
  lockTimeout : Bool
  hwCanFail : Bool
  engine : EngineModel
  deriving DecidableEq, Repr

/-- The range of `N_CTX` (R9, D1). -/
def Config.wf (c : Config) : Bool := decide (1 ≤ c.nCtx) && decide (c.nCtx ≤ 65536)

/-- The parameters of `State.reset`: the spec's defaults (`LOCK_TIMEOUT` none, `HW_CAN_FAIL` true, the
standard engine); the spec gives `N_CTX` no default. DESIGN CHOICE: its largest value, so that every
`SID` the encoding can carry names a slot (log entry 1). -/
def Config.default : Config :=
  { nCtx := 65536, lockTimeout := false, hwCanFail := true, engine := .fips }

/-- FREE VALUE: word `i` of `IV(mode)` of the other engine numbered `k` (R215, U18; log entry 2). -/
opaque Config.otherIV (k : Nat) (m : Mode) (i : Nat) : Word

/-- FREE VALUE: word `i` of `Compress(fam, H, blk)` of the other engine numbered `k`, a function of its
arguments alone (R215, U18; log entry 2). -/
opaque Config.otherCompress (k : Nat) (f : Family) (h : List Word) (blk : List Byte) (i : Nat) : Word

/-- FREE VALUE: which enabled step draw number `n` picks (R70, R71, U12; log entry 3). -/
opaque Config.freeTurn (n : Nat) : Nat

/-- FREE VALUE: whether draw number `n` lets a bring-up succeed (R140, U13; log entry 4). -/
opaque Config.freeInitOk (n : Nat) : Bool

/-- FREE VALUE: whether draw number `n` makes `HW_START` or `HW_CONTINUE` report an error
(R125, R214, U4; log entry 5). -/
opaque Config.freeOpError (n : Nat) : Bool

/-- FREE VALUE: whether draw number `n` makes `HW_READ` report an error (R125, R214, U4; log entry 5). -/
opaque Config.freeReadError (n : Nat) : Bool

end Sys2Proof
end

