-- ==== Sys2Proof/WellFormed.lean ====
section
/-! DEFINITION. Which instruction terms are commands that the channels can carry. -/

namespace Sys2Proof

/-- The framing of R94: an `UPDATE` with `NULLBUF = 0` carries exactly `LEN` bytes, one with
`NULLBUF = 1` carries none. Every other field is as wide as its encoding, so nothing else can be
ill-formed. (`SID < N_CTX` is tested when the command executes, R98.) -/
def Instr.wf : Instr → Bool
  | .hwinit => true
  | .startsSha1 _ => true
  | .startsSha256 _ => true
  | .startsSha224 _ => true
  | .startsSha512 _ => true
  | .startsSha384 _ => true
  | .update nullbuf _ len data => data.length == (if nullbuf then 0 else len.toNat)
  | .finish _ _ => true

end Sys2Proof
end

