-- ==== Sys2Proof/Decode.lean ====
section
/-! DEFINITION. The command encoding: fields of the command word, framing, decoder, encoder (R91 to R99). -/

namespace Sys2Proof

/-! ### The fields of the command word (R91) -/

/-- `OP`, `CW[31:28]`. -/
def cwOp (cw : CmdWord) : BitVec 4 := cw.extractLsb' 28 4
/-- `FAM`, `CW[27:26]`. -/
def cwFam (cw : CmdWord) : BitVec 2 := cw.extractLsb' 26 2
/-- Reserved bit `CW[25]`. -/
def cwRsv25 (cw : CmdWord) : BitVec 1 := cw.extractLsb' 25 1
/-- `VAR`, `CW[24]`. -/
def cwVar (cw : CmdWord) : BitVec 1 := cw.extractLsb' 24 1
/-- `NULLBUF`, `CW[23]`. -/
def cwNullbuf (cw : CmdWord) : BitVec 1 := cw.extractLsb' 23 1
/-- Reserved bits `CW[22:16]`. -/
def cwRsv22 (cw : CmdWord) : BitVec 7 := cw.extractLsb' 16 7
/-- `SID`, `CW[15:0]`. -/
def cwSid (cw : CmdWord) : BitVec 16 := cw.extractLsb' 0 16

/-- The command word with the given fields, its reserved bits 0 (R91). -/
def mkCw (op : BitVec 4) (fam : BitVec 2) (var nullbuf : BitVec 1) (sid : BitVec 16) : CmdWord :=
  BitVec.ofNat 32 (op.toNat * 2 ^ 28 + fam.toNat * 2 ^ 26 + var.toNat * 2 ^ 24 + nullbuf.toNat * 2 ^ 23 +
    sid.toNat)

/-! ### Framing (R94) -/

/-- One command as it stands on the channels: its command word, its `LEN` word (0 when it has none)
and its data-in bytes. -/
structure Command where
  cw : CmdWord
  len : BitVec 32
  data : List Byte
  deriving DecidableEq, Repr

/-- `OP = 2` means two words, anything else one (R94). -/
def hasLen (cw : CmdWord) : Bool := cwOp cw == 2#4

/-- How many data-in bytes follow: `LEN` when `OP = 2` and `CW[23] = 0`, else none (R94). -/
def dataCount (cw : CmdWord) (len : BitVec 32) : Nat :=
  if hasLen cw && cwNullbuf cw == 0#1 then len.toNat else 0

/-- The command's words on the command channel. -/
def Command.words (c : Command) : List CmdWord :=
  if hasLen c.cw then [c.cw, c.len] else [c.cw]

/-- Take one whole command off the head of a command channel and its data-in stream, told from `OP` and
`NULLBUF` alone, whether or not the command is legal (R94); `none` while it has not wholly arrived (DEDUCED, log
entry 15). -/
def takeCommand : List CmdWord → List Byte → Option (Command × List CmdWord × List Byte)
  | [], _ => none
  | cw :: ws, ds =>
    if hasLen cw then
      match ws with
      | [] => none
      | len :: ws' =>
        if dataCount cw len ≤ ds.length then
          some (⟨cw, len, ds.take (dataCount cw len)⟩, ws', ds.drop (dataCount cw len))
        else none
    else some (⟨cw, 0, []⟩, ws, ds)

/-! ### Decoding (R96 to R98) -/

/-- Why a command word is illegal (R98), or that no whole command has arrived. -/
inductive DecodeError where
  | incomplete
  | reservedOp
  | reservedBits
  | fieldNotZero
  | illegalMode
  deriving DecidableEq, Repr

/-- Decode one framed command (R91, R93, R97). `SID < N_CTX` depends on the implementation and is tested
when the command executes, before everything else (R98, R247 step 1; DEDUCED, log entry 18). -/
def decodeCommand (c : Command) : Except DecodeError Instr :=
  let cw := c.cw
  if 3#4 < cwOp cw then .error .reservedOp
  else if cwRsv25 cw != 0#1 || cwRsv22 cw != 0#7 then .error .reservedBits
  else if cwOp cw = 0#4 then
    if cw = 0#32 then .ok .hwinit else .error .fieldNotZero
  else if cwOp cw = 1#4 then
    if cwNullbuf cw != 0#1 then .error .fieldNotZero
    else if cwFam cw = 0#2 then
      if cwVar cw = 0#1 then .ok (.startsSha1 (cwSid cw)) else .error .illegalMode
    else if cwFam cw = 1#2 then
      if cwVar cw = 0#1 then .ok (.startsSha256 (cwSid cw)) else .ok (.startsSha224 (cwSid cw))
    else if cwFam cw = 2#2 then
      if cwVar cw = 0#1 then .ok (.startsSha512 (cwSid cw)) else .ok (.startsSha384 (cwSid cw))
    else .error .illegalMode
  else if cwFam cw != 0#2 || cwVar cw != 0#1 then .error .fieldNotZero
  else if cwOp cw = 2#4 then .ok (.update (cwNullbuf cw == 1#1) (cwSid cw) c.len c.data)
  else .ok (.finish (cwNullbuf cw == 1#1) (cwSid cw))

/-- The decoder, total on any channel contents: the instruction at the head and what stands behind it. -/
def decode (ws : List CmdWord) (ds : List Byte) :
    Except DecodeError (Instr × List CmdWord × List Byte) :=
  match takeCommand ws ds with
  | none => .error .incomplete
  | some (c, ws', ds') =>
    match decodeCommand c with
    | .error e => .error e
    | .ok i => .ok (i, ws', ds')

/-! ### Encoding -/

/-- The bit of a null-buffer flag. -/
def nullbufBit (b : Bool) : BitVec 1 := if b then 1#1 else 0#1

/-- The encoder, row by row of R97. -/
def encode : Instr → Command
  | .hwinit => ⟨mkCw 0#4 0#2 0#1 0#1 0#16, 0, []⟩
  | .startsSha1 sid => ⟨mkCw 1#4 0#2 0#1 0#1 sid, 0, []⟩
  | .startsSha256 sid => ⟨mkCw 1#4 1#2 0#1 0#1 sid, 0, []⟩
  | .startsSha224 sid => ⟨mkCw 1#4 1#2 1#1 0#1 sid, 0, []⟩
  | .startsSha512 sid => ⟨mkCw 1#4 2#2 0#1 0#1 sid, 0, []⟩
  | .startsSha384 sid => ⟨mkCw 1#4 2#2 1#1 0#1 sid, 0, []⟩
  | .update nullbuf sid len data => ⟨mkCw 2#4 0#2 0#1 (nullbufBit nullbuf) sid, len, data⟩
  | .finish nullbuf sid => ⟨mkCw 3#4 0#2 0#1 (nullbufBit nullbuf) sid, 0, []⟩

/-! ### The written form of a command (R102) -/

/-- The `<bytes>` operand of a written `UPDATE`: ASCII text, hexadecimal digits, a run of zero bytes, or no buffer
with a claimed length. -/
inductive AsmBytes where
  | text (bs : List Byte)
  | hex (bs : List Byte)
  | zeros (n : Nat)
  | null (n : Nat)
  deriving DecidableEq, Repr

/-- One line of the written form: `<sid>` is a decimal slot number. -/
inductive AsmLine where
  | hwinit
  | starts (sid : Nat) (mode : Mode)
  | update (sid : Nat) (bytes : AsmBytes)
  | finish (sid : Nat) (null : Bool)
  deriving DecidableEq, Repr

/-- `STARTS` of a mode (R93, R102). -/
def startsOf (sid : BitVec 16) : Mode → Instr
  | .sha1 => .startsSha1 sid
  | .sha224 => .startsSha224 sid
  | .sha256 => .startsSha256 sid
  | .sha384 => .startsSha384 sid
  | .sha512 => .startsSha512 sid

/-- `UPDATE` with the given bytes; none when their number does not fit the `LEN` word (R94). -/
def updateOf (sid : BitVec 16) : AsmBytes → Option Instr
  | .text bs => if bs.length < 2 ^ 32 then some (.update false sid (BitVec.ofNat 32 bs.length) bs) else none
  | .hex bs => if bs.length < 2 ^ 32 then some (.update false sid (BitVec.ofNat 32 bs.length) bs) else none
  | .zeros n => if n < 2 ^ 32 then some (.update false sid (BitVec.ofNat 32 n) (List.replicate n 0)) else none
  | .null n => if n < 2 ^ 32 then some (.update true sid (BitVec.ofNat 32 n) []) else none

/-- The command a line stands for; none when its slot number does not fit the `SID` field (R92, R102). -/
def AsmLine.instr : AsmLine → Option Instr
  | .hwinit => some .hwinit
  | .starts sid m => if sid < 2 ^ 16 then some (startsOf (BitVec.ofNat 16 sid) m) else none
  | .update sid bs => if sid < 2 ^ 16 then updateOf (BitVec.ofNat 16 sid) bs else none
  | .finish sid null => if sid < 2 ^ 16 then some (.finish null (BitVec.ofNat 16 sid)) else none

/-! ### The opcode table's own numbering -/

/-- The command-channel words of an instruction whose bits are `w`, bit 0 the least significant bit of
the first word; bits at and above `nbits` are 0. A second word stands only where the first has one
(R94): a zero word of its own would be another command, `HWINIT`. -/
def tableWords (nbits w : Nat) : List CmdWord :=
  let v := w % 2 ^ nbits
  let cw := BitVec.ofNat 32 v
  if hasLen cw then [cw, BitVec.ofNat 32 (v / 2 ^ 32)] else [cw]

/-- The data-in bytes such an instruction has: its bits above `nbits`, all 0. -/
def tableData (nbits w : Nat) : List Byte :=
  let v := w % 2 ^ nbits
  List.replicate (dataCount (BitVec.ofNat 32 v) (BitVec.ofNat 32 (v / 2 ^ 32))) 0

/-- What the decoder reads from an instruction of the opcode table's numbering. -/
def decodeTableWord (nbits w : Nat) : Option Instr :=
  match decode (tableWords nbits w) (tableData nbits w) with
  | .ok (i, _, _) => some i
  | .error _ => none

end Sys2Proof
end

