-- ==== Sys2Proof/Machine/State.lean ====
section
/-! DEFINITION. The state of the SHA hash arbiter as plain data (10_state.md, R63), its reset values
(R50, R280), and the reasons a step can stop. -/

namespace Sys2Proof.Machine

/-! ### The session context (R30 to R36) -/

/-- `ctx[s].lifecycle_state` (R36). -/
inductive Lifecycle where
  | init
  | accumulating
  | terminal
  deriving DecidableEq, Repr

/-- A started session context (R30). `state` lists the words of `state[0..7]` that hold a value, word 0
first: word `i` is `⊥` exactly when `i ≥ state.length` (R32; log entry 6). `buffer` is the 128-byte
buffer of which `BS` bytes are used (R33). -/
structure Ctx where
  mode : Mode
  total : Counter
  state : List Word
  buffer : List Byte
  occ : Nat
  firstBlock : Bool
  lifecycle : Lifecycle
  deriving DecidableEq, Repr

/-! ### The sequencer of a slot (R40) -/

/-- `seq[s]` (R40). -/
inductive SeqPos where
  | idle
  | absorb
  | acq
  | feed
  | rel
  | extract
  deriving DecidableEq, Repr

/-- `op[s]` (R40). -/
inductive SeqOp where
  | update
  | finish
  deriving DecidableEq, Repr

/-- `err[s]`: an engine error waiting to be reported after the lock is released (R40, R125). -/
inductive PendingError where
  | none
  | hardwareError
  deriving DecidableEq, Repr

/-- One slot: its context and its sequencer. `ctx = none` is the spec's `⊥` for the whole record (R30),
`op = none` its `⊥` for `op[s]` (R50). -/
structure Slot where
  ctx : Option Ctx
  seq : SeqPos
  op : Option SeqOp
  pend : List Byte
  err : PendingError
  deriving DecidableEq, Repr

/-- A slot after reset (R50). -/
def Slot.reset : Slot := { ctx := none, seq := .idle, op := none, pend := [], err := .none }

/-! ### Channels (R63) -/

/-- One set of the four logical channels: command channel, data-in stream, response channel (8-bit status
codes, R100) and digest-out stream, each oldest entry first, of no bounded length (DESIGN CHOICE, log entry 14). -/
structure Port where
  cmd : List CmdWord
  dataIn : List Byte
  resp : List (BitVec 8)
  digestOut : List Byte
  deriving DecidableEq, Repr

/-- A port with every channel emptied (R280). -/
def Port.empty : Port := { cmd := [], dataIn := [], resp := [], digestOut := [] }

/-- Which set of channels: the one of a slot number, or the one of `HWINIT`, which names no slot (R63). -/
inductive PortId where
  | bringUp
  | slot (k : Nat)
  deriving DecidableEq, Repr

/-! ### Global arbiter state (R20 to R22) -/

/-- `lock` (R21). -/
inductive Lock where
  | free
  | held (k : Nat)
  deriving DecidableEq, Repr

/-- The engine's working registers (R22). `h` lists the words of `eng.H[0..7]` that hold a value, word 0
first: word `i` is `⊥` exactly when `i ≥ h.length`; `mode = none` is the spec's `⊥` (R50; log entry 6). -/
structure Engine where
  h : List Word
  mode : Option Mode
  deriving DecidableEq, Repr

/-- `eng.H = ⊥`, `eng.mode = ⊥` (R50, R214). -/
def Engine.bottom : Engine := { h := [], mode := none }

/-- The choices of the run that one step may consult, none of them a function of the machine's state:
which enabled step is taken (`turn`, R70), whether a bring-up succeeds (`initOk`, R140), whether
`HW_START` or `HW_CONTINUE` reports an error (`opError`) and whether `HW_READ` does (`readError`, R125). -/
structure Draw where
  turn : Nat
  initOk : Bool
  opError : Bool
  readError : Bool
  deriving DecidableEq, Repr

/-- The whole machine. `slots` and `ports` are keyed by slot number, in the canonical form of
Machine/Sparse.lean: keys strictly rising, no entry equal to its reset value, which is what an unlisted
key reads as (log entry 7). `resetReq` is the host's reset event, pending (R280, R304; log entry 8).
`tape` and `drawn` are the model's own: the draws already fixed for the coming steps, and how many draws
have been consumed; past the tape every draw is a free value (log entry 3). -/
structure State where
  cfg : Config
  hwReady : Bool
  lock : Lock
  eng : Engine
  slots : List (Nat × Slot)
  bringUp : Port
  ports : List (Nat × Port)
  resetReq : Bool
  tape : List Draw
  drawn : Nat
  deriving DecidableEq, Repr

/-- The machine right after reset, for given implementation parameters (R50, R280). -/
def State.resetOf (c : Config) : State :=
  { cfg := c
    hwReady := false
    lock := .free
    eng := Engine.bottom
    slots := []
    bringUp := Port.empty
    ports := []
    resetReq := false
    tape := []
    drawn := 0 }

/-- The machine right after reset, with the parameters of `Config.default` (R50, R280). -/
def State.reset : State := State.resetOf Config.default

/-! ### How a step can stop -/

/-- Faults. The block itself never stops (R244): every constructor guards a micro-operation whose
`requires` line does not hold, and `step` never takes such a move. -/
inductive Fault where
  /-- Raised by a micro-operation of Machine/Arbiter.lean, BlockProcessor.lean or Finalizer.lean that is
  called outside its `requires` condition (R121 to R124, R163, R200). `step` never raises it. Safe. -/
  | notEnabled (k : Nat)
  /-- Raised by the acceptance move on a port whose head holds no whole command (R94, R96). `step` never
  raises it. Safe. -/
  | noCommand (p : PortId)
  deriving DecidableEq, Repr

/-- Refusals: situations to which the spec gives no meaning. -/
inductive Refusal where
  /-- An instruction whose meaning is not written yet. Safe. -/
  | notModelled (mnemonic : String)
  /-- U2: raised by `HWINIT` when `hw_ready = 1` (R141, R298). Safe: the model stops. -/
  | secondBringUp
  /-- U1: raised by `UPDATE` and `FINISH` at acceptance on a slot whose context is `⊥` (R161, R181, R293),
  and by a micro-operation that would read such a context, which no run reaches. Safe: the model stops. -/
  | contextUnspecified (k : Nat)
  /-- U8: raised by `FEED_BLOCK` (restore) and `EXTRACT` when a word of `state[]` they must read is `⊥`
  (R32, R186); no run reaches it. Safe: the model stops. -/
  | stateUnwritten (k : Nat)
  deriving DecidableEq, Repr

end Sys2Proof.Machine
end

