-- ==== Sys2Proof/Machine/Params.lean ====
section
/-! DEFINITION. The family and mode parameters (R7, R8). -/

namespace Sys2Proof.Machine

/-- `fam(mode)` (R2, R8). -/
def famOf : Mode → Family
  | .sha1 => .f1
  | .sha224 => .f256
  | .sha256 => .f256
  | .sha384 => .f512
  | .sha512 => .f512

/-- `BS`, the block size in bytes (R7). -/
def blockSize : Family → Nat
  | .f1 => 64
  | .f256 => 64
  | .f512 => 128

/-- `W`, the word width in bits (R7). -/
def wordBits : Family → Nat
  | .f1 => 32
  | .f256 => 32
  | .f512 => 64

/-- `W / 8`, the word width in bytes (R8, R200). -/
def wordBytes : Family → Nat
  | .f1 => 4
  | .f256 => 4
  | .f512 => 8

/-- `NW`, the number of state words (R7). -/
def stateWords : Family → Nat
  | .f1 => 5
  | .f256 => 8
  | .f512 => 8

/-- `LFS`, the length-field size in bytes (R7). -/
def lenFieldSize : Family → Nat
  | .f1 => 8
  | .f256 => 8
  | .f512 => 16

/-- `DB(mode)`, the digest size in bytes (R8). -/
def digestBytes : Mode → Nat
  | .sha1 => 20
  | .sha224 => 28
  | .sha256 => 32
  | .sha384 => 48
  | .sha512 => 64

/-- `DW(mode)`, the number of state words the digest is cut from (R8). -/
def digestWords : Mode → Nat
  | .sha1 => 5
  | .sha224 => 7
  | .sha256 => 8
  | .sha384 => 6
  | .sha512 => 8

/-- `BS` of a context's mode. -/
def Ctx.bs (c : Ctx) : Nat := blockSize (famOf c.mode)

end Sys2Proof.Machine
end

