-- ==== Sys2Proof/Machine/Operands.lean ====
section
/-! DEFINITION. Operand forms: byte strings, big-endian spellings, the two words of the byte counter, the
buffer as a run of bytes, and which port a command word belongs to. -/

namespace Sys2Proof.Machine

/-- `zeros(n)` (R10). -/
def zeroBytes (n : Nat) : List Byte := List.replicate n 0

/-- `BE_n(v)`: byte `i` is `v[8(n−i)−1 : 8(n−1−i)]` (R10, R60, R61). -/
def beBytes (n v : Nat) : List Byte :=
  (List.range n).map fun i => BitVec.ofNat 8 (v / 2 ^ (8 * (n - 1 - i)))

/-- The low `w` bits of a word, the upper bits zero (R22). -/
def truncWord (w : Nat) (x : Word) : Word := BitVec.ofNat 64 (x.toNat % 2 ^ w)

/-- `total_lo = total[W−1:0]` (R31). -/
def totalLo (f : Family) (t : Counter) : Nat := t.toNat % 2 ^ wordBits f

/-- `total_hi = total[2W−1:W]` (R31). -/
def totalHi (f : Family) (t : Counter) : Nat := t.toNat / 2 ^ wordBits f % 2 ^ wordBits f

/-- The counter with the two given words, `hi ‖ lo` (R171). -/
def totalOf (f : Family) (hi lo : Nat) : Counter := BitVec.ofNat 128 (hi * 2 ^ wordBits f + lo)

/-- The counter add with explicit carry between the two words; the carry out of the upper word is
dropped (R171, R172). -/
def counterAdd (f : Family) (t : Counter) (len : BitVec 32) : Counter :=
  let n := len.toNat
  let lo := (totalLo f t + n) % 2 ^ wordBits f
  let carry := if lo < n then 1 else 0
  let hi := (totalHi f t + carry) % 2 ^ wordBits f
  totalOf f hi lo

/-- The bit-length `L = (total << 3) mod 2^(2W)` (R183). -/
def bitLength (f : Family) (t : Counter) : Nat := t.toNat * 8 % 2 ^ (2 * wordBits f)

/-- `buffer[at .. at + |bs|) <- bs` (R163). -/
def writeRun (buffer : List Byte) (i : Nat) (bs : List Byte) : List Byte :=
  buffer.take i ++ bs ++ buffer.drop (i + bs.length)

/-- `H[0..n) <- new` for `n` words, the words above left as they were (R123, R211, R212). -/
def overwriteWords (new old : List Word) : List Word := new ++ old.drop new.length

/-- The slot number a `SID` field names (R92). -/
def sidNat (sid : BitVec 16) : Nat := sid.toNat

/-- The set of channels a command word belongs to: a command for a slot travels with that slot's
channels, every other word with those of `HWINIT` (R63). DESIGN CHOICE, log entry 9. -/
def portOf (cw : CmdWord) : PortId :=
  if cwOp cw = 1#4 ∨ cwOp cw = 2#4 ∨ cwOp cw = 3#4 then .slot (sidNat (cwSid cw)) else .bringUp

end Sys2Proof.Machine
end

