-- ==== Sys2Proof/Machine/Sparse.lean ====
section
/-! DEFINITION. Stores keyed by slot number in one canonical form: a list of entries with keys strictly
rising, none of them equal to the value an unlisted key reads as. Equal stores are equal lists. -/

namespace Sys2Proof.Machine

/-- Read a key; `d` is what an unlisted key reads as. -/
def sparseGet {α : Type} (d : α) : List (Nat × α) → Nat → α
  | [], _ => d
  | (j, v) :: l, k => if j = k then v else sparseGet d l k

/-- Put an entry in its place without regard to the value `d`. -/
def sparseInsert {α : Type} (k : Nat) (v : α) : List (Nat × α) → List (Nat × α)
  | [] => [(k, v)]
  | (j, w) :: l => if j < k then (j, w) :: sparseInsert k v l else (k, v) :: (j, w) :: l

/-- Remove a key. -/
def sparseErase {α : Type} (k : Nat) : List (Nat × α) → List (Nat × α)
  | [] => []
  | (j, w) :: l => if j = k then sparseErase k l else (j, w) :: sparseErase k l

/-- Write a key, keeping the canonical form: writing `d` removes the entry. -/
def sparseSet {α : Type} [DecidableEq α] (d : α) (k : Nat) (v : α) (l : List (Nat × α)) :
    List (Nat × α) :=
  if v = d then sparseErase k l else sparseInsert k v (sparseErase k l)

/-- Keys strictly rising, each at least `lo`, and no entry equal to `d`. -/
def sparseWfFrom {α : Type} [DecidableEq α] (d : α) (lo : Nat) : List (Nat × α) → Bool
  | [] => true
  | (j, v) :: l => decide (lo ≤ j) && decide (v ≠ d) && sparseWfFrom d (j + 1) l

/-- The canonical form. -/
def sparseWf {α : Type} [DecidableEq α] (d : α) (l : List (Nat × α)) : Bool := sparseWfFrom d 0 l

/-- Every key is below `n`. -/
def sparseBelow {α : Type} (n : Nat) (l : List (Nat × α)) : Bool := l.all fun e => decide (e.1 < n)

end Sys2Proof.Machine
end

