-- ==== Sys2Proof/Machine/Ops.lean ====
section
/-! DEFINITION. The named operations over the state: slots and ports, status and digest output, the error
protocol (the one shared operation that ends a command with an error), the channels' consumption, the
draws of the run, and the reset event. -/

namespace Sys2Proof.Machine

/-! ### Slots and ports -/

/-- The slot record of number `k` (R30, R40). -/
def State.slot (s : State) (k : Nat) : Slot := sparseGet Slot.reset s.slots k

/-- Write the slot record of number `k`. -/
def State.setSlot (s : State) (k : Nat) (v : Slot) : State :=
  { s with slots := sparseSet Slot.reset k v s.slots }

/-- The channels `p` (R63). -/
def State.port (s : State) : PortId → Port
  | .bringUp => s.bringUp
  | .slot k => sparseGet Port.empty s.ports k

/-- Write the channels `p`. -/
def State.setPort (s : State) (p : PortId) (v : Port) : State :=
  match p with
  | .bringUp => { s with bringUp := v }
  | .slot k => { s with ports := sparseSet Port.empty k v s.ports }

/-- Write only the context of slot `k`. -/
def State.setCtx (s : State) (k : Nat) (c : Ctx) : State := s.setSlot k { s.slot k with ctx := some c }

/-! ### The global registers -/

/-- Write `hw_ready` (R20). -/
def State.setReady (s : State) (b : Bool) : State := { s with hwReady := b }

/-- Write `lock` (R21). -/
def State.setLock (s : State) (l : Lock) : State := { s with lock := l }

/-- Write the engine registers (R22). -/
def State.setEng (s : State) (e : Engine) : State := { s with eng := e }

/-! ### Status and digest output -/

/-- The result of a command (R100, R240). -/
inductive Status where
  | ok
  | hardwareUnavailable
  | hardwareBusy
  | invalidArgument
  | invalidState
  | hardwareError
  deriving DecidableEq, Repr

/-- The status code on the response channel (R100). -/
def statusCode : Status → BitVec 8
  | .ok => 0x00
  | .hardwareUnavailable => 0x01
  | .hardwareBusy => 0x02
  | .invalidArgument => 0x03
  | .invalidState => 0x04
  | .hardwareError => 0x05

/-- `Status(code)`: put the status on the response channel of `p` (R10, R100). -/
def State.post (s : State) (p : PortId) (st : Status) : State :=
  s.setPort p { s.port p with resp := (s.port p).resp ++ [statusCode st] }

/-- `DigestOut(bytes)` on the channels of slot `k` (R10, R101). -/
def State.emit (s : State) (k : Nat) (bs : List Byte) : State :=
  s.setPort (.slot k) { s.port (.slot k) with digestOut := (s.port (.slot k)).digestOut ++ bs }

/-! ### The error protocol -/

/-- The slot record an error leaves: the context `⊥` unless the error is `InvalidState`, nothing pending,
the sequencer idle (R250, R252). -/
def errorSlot (e : Status) (v : Slot) : Slot :=
  { ctx := if e = .invalidState then v.ctx else none
    seq := .idle
    op := none
    pend := []
    err := .none }

/-- `raise E` in an `UPDATE` or `FINISH` on slot `k` (R250): the command ends with the error status, and
the only way back is a new `STARTS` (R254). The lock and the engine are not touched. -/
def State.raise (s : State) (k : Nat) (e : Status) : State :=
  (s.setSlot k (errorSlot e (s.slot k))).post (.slot k) e

/-! ### Consuming a command -/

/-- The channels `p` with one command's words and bytes taken off: `ws` and `ds` stay (R77, R96). -/
def State.consume (s : State) (p : PortId) (ws : List CmdWord) (ds : List Byte) : State :=
  s.setPort p { s.port p with cmd := ws, dataIn := ds }

/-- The command back at the head of its channels, where a command for a busy slot waits (R291). -/
def State.putBack (s : State) (p : PortId) (c : Command) : State :=
  s.setPort p { s.port p with
    cmd := c.words ++ (s.port p).cmd
    dataIn := c.data ++ (s.port p).dataIn }

/-! ### The draws of the run -/

/-- Draw number `n` past the tape: four free values (R70, R125, R140). -/
def freeDraw (n : Nat) : Draw :=
  { turn := Config.freeTurn n
    initOk := Config.freeInitOk n
    opError := Config.freeOpError n
    readError := Config.freeReadError n }

/-- The draw of the coming step. -/
def State.draw (s : State) : Draw :=
  match s.tape with
  | [] => freeDraw s.drawn
  | d :: _ => d

/-- Move past the draw a step has consumed. -/
def State.advanceDraw (s : State) : State := { s with tape := s.tape.tail, drawn := s.drawn + 1 }

/-! ### Reset -/

/-- The `RESET` event (R280): every field to its reset value, every channel emptied. The implementation
parameters stay, and so do the draws of the run, which are no state of the block (DESIGN CHOICE, log entry 16). -/
def State.resetEvent (s : State) : State :=
  { State.resetOf s.cfg with tape := s.tape, drawn := s.drawn }

/-! ### Outcomes -/

/-- Apply a state change to a next state; a fault or a refusal stays what it is. -/
def mapNext (f : State → State) :
    Host.Outcome State Fault Refusal → Host.Outcome State Fault Refusal
  | .next s => .next (f s)
  | .fault r => .fault r
  | .refused r => .refused r

end Sys2Proof.Machine
end

