-- ==== Sys2Proof/Machine/Sha.lean ====
section
/-! DEFINITION. The standard engine: the initial states and compression functions of R216 to R219
(FIPS 180-4). PRESUMED: the spec marks all of them as general knowledge, not in its source
(log entry 11); no rule of the block itself depends on them (R215). -/

namespace Sys2Proof.Machine

/-! ### Initial states (R216) -/

/-- `IV(mode)` (R216), word 0 first; 32-bit words stand in the low half. -/
def shaIV : Mode → List Word
  | .sha1 => [0x67452301, 0xefcdab89, 0x98badcfe, 0x10325476, 0xc3d2e1f0]
  | .sha224 => [0xc1059ed8, 0x367cd507, 0x3070dd17, 0xf70e5939,
      0xffc00b31, 0x68581511, 0x64f98fa7, 0xbefa4fa4]
  | .sha256 => [0x6a09e667, 0xbb67ae85, 0x3c6ef372, 0xa54ff53a,
      0x510e527f, 0x9b05688c, 0x1f83d9ab, 0x5be0cd19]
  | .sha384 => [0xcbbb9d5dc1059ed8, 0x629a292a367cd507, 0x9159015a3070dd17, 0x152fecd8f70e5939,
      0x67332667ffc00b31, 0x8eb44a8768581511, 0xdb0c2e0d64f98fa7, 0x47b5481dbefa4fa4]
  | .sha512 => [0x6a09e667f3bcc908, 0xbb67ae8584caa73b, 0x3c6ef372fe94f82b, 0xa54ff53a5f1d36f1,
      0x510e527fade682d1, 0x9b05688c2b3e6c1f, 0x1f83d9abfb41bd6b, 0x5be0cd19137e2179]

/-! ### Message words and schedules -/

/-- The number a string of bytes spells, most significant byte first. -/
def beValue (bs : List Byte) : Nat := bs.foldl (fun v b => v * 256 + b.toNat) 0

/-- `M_t`, the `t`-th big-endian word of a block, `bytes` bytes wide (44_engine_primitive.md section 3). -/
def msgWord (w bytes : Nat) (blk : List Byte) (t : Nat) : BitVec w :=
  BitVec.ofNat w (beValue ((blk.drop (t * bytes)).take bytes))

/-- Extend a schedule held newest word first by `n` words; `next` makes a word from the words before it. -/
def extendSchedule {w : Nat} (next : List (BitVec w) → BitVec w) : Nat → List (BitVec w) → List (BitVec w)
  | 0, ws => ws
  | n + 1, ws => extendSchedule next n (next ws :: ws)

/-- The `n`-word schedule `W_0 … W_{n−1}` of a block, oldest first: sixteen message words, then `next`. -/
def schedule {w : Nat} (next : List (BitVec w) → BitVec w) (bytes n : Nat) (blk : List Byte) :
    List (BitVec w) :=
  (extendSchedule next (n - 16) (((List.range 16).map (msgWord w bytes blk)).reverse)).reverse

/-- The working variables `a … h` (SHA-1 uses `a … e`). -/
structure Vars (w : Nat) where
  a : BitVec w
  b : BitVec w
  c : BitVec w
  d : BitVec w
  e : BitVec w
  f : BitVec w
  g : BitVec w
  h : BitVec w

/-- The working variables loaded from a state. -/
def loadVars (w : Nat) (hs : List Word) : Vars w :=
  let x := fun i => (hs.getD i 0).setWidth w
  ⟨x 0, x 1, x 2, x 3, x 4, x 5, x 6, x 7⟩

/-- The first `n` of the working variables. -/
def storeVars {w : Nat} (n : Nat) (v : Vars w) : List (BitVec w) :=
  [v.a, v.b, v.c, v.d, v.e, v.f, v.g, v.h].take n

/-- The state after a block: each word of the old state plus its working variable, modulo `2^w`. -/
def addState {w : Nat} (n : Nat) (hs : List Word) (v : Vars w) : List Word :=
  List.zipWith (fun x y => (x.setWidth w + y).setWidth 64) (hs.take n) (storeVars n v)

/-! ### SHA-1 (R217) -/

/-- `W_t` for `t ≥ 16` from the words before it, newest first (R217). -/
def nextW1 (ws : List (BitVec 32)) : BitVec 32 :=
  (ws.getD 2 0 ^^^ ws.getD 7 0 ^^^ ws.getD 13 0 ^^^ ws.getD 15 0).rotateLeft 1

/-- `f` of round `t` (R217). -/
def f1 (t : Nat) (b c d : BitVec 32) : BitVec 32 :=
  if t < 20 then (b &&& c) ||| (~~~b &&& d)
  else if t < 40 then b ^^^ c ^^^ d
  else if t < 60 then (b &&& c) ||| (b &&& d) ||| (c &&& d)
  else b ^^^ c ^^^ d

/-- `K` of round `t` (R217). -/
def k1 (t : Nat) : BitVec 32 :=
  if t < 20 then 0x5a827999 else if t < 40 then 0x6ed9eba1 else if t < 60 then 0x8f1bbcdc else 0xca62c1d6

/-- One round of SHA-1 (R217). -/
def round1 (v : Vars 32) (t : Nat) (wt : BitVec 32) : Vars 32 :=
  { v with
    a := v.a.rotateLeft 5 + f1 t v.b v.c v.d + v.e + k1 t + wt
    b := v.a
    c := v.b.rotateLeft 30
    d := v.c
    e := v.d }

/-- The rounds of SHA-1 from round `t` on. -/
def rounds1 : Nat → List (BitVec 32) → Vars 32 → Vars 32
  | _, [], v => v
  | t, w :: ws, v => rounds1 (t + 1) ws (round1 v t w)

/-- `Compress(F1, H, blk)` (R217). -/
def compressF1 (hs : List Word) (blk : List Byte) : List Word :=
  addState 5 hs (rounds1 0 (schedule nextW1 4 80 blk) (loadVars 32 hs))

/-! ### SHA-256 and SHA-512 (R218, R219) -/

/-- `Ch` (R218). -/
def shaCh {w : Nat} (x y z : BitVec w) : BitVec w := (x &&& y) ^^^ (~~~x &&& z)

/-- `Maj` (R218). -/
def shaMaj {w : Nat} (x y z : BitVec w) : BitVec w := (x &&& y) ^^^ (x &&& z) ^^^ (y &&& z)

/-- Three rotations, exclusive-ored: `Σ0` and `Σ1` (R218, R219). -/
def bigSigma {w : Nat} (i j k : Nat) (x : BitVec w) : BitVec w :=
  x.rotateRight i ^^^ x.rotateRight j ^^^ x.rotateRight k

/-- Two rotations and a shift, exclusive-ored: `σ0` and `σ1` (R218, R219). -/
def smallSigma {w : Nat} (i j k : Nat) (x : BitVec w) : BitVec w :=
  x.rotateRight i ^^^ x.rotateRight j ^^^ (x >>> k)

/-- `W_t` for `t ≥ 16` from the words before it, newest first (R218, R219). -/
def nextW2 {w : Nat} (s0 s1 : BitVec w → BitVec w) (ws : List (BitVec w)) : BitVec w :=
  s1 (ws.getD 1 0) + ws.getD 6 0 + s0 (ws.getD 14 0) + ws.getD 15 0

/-- One round with constant `k` and schedule word `wt` (R218, R219). -/
def round2 {w : Nat} (bs0 bs1 : BitVec w → BitVec w) (v : Vars w) (k wt : BitVec w) : Vars w :=
  let t1 := v.h + bs1 v.e + shaCh v.e v.f v.g + k + wt
  let t2 := bs0 v.a + shaMaj v.a v.b v.c
  ⟨t1 + t2, v.a, v.b, v.c, v.d + t1, v.e, v.f, v.g⟩

/-- The rounds, one per constant. -/
def rounds2 {w : Nat} (bs0 bs1 : BitVec w → BitVec w) :
    List (BitVec w) → List (BitVec w) → Vars w → Vars w
  | k :: ks, wt :: ws, v => rounds2 bs0 bs1 ks ws (round2 bs0 bs1 v k wt)
  | _, _, v => v

/-- `K256` (R218). -/
def k256 : List (BitVec 32) :=
  [0x428a2f98, 0x71374491, 0xb5c0fbcf, 0xe9b5dba5, 0x3956c25b, 0x59f111f1, 0x923f82a4, 0xab1c5ed5] ++
  [0xd807aa98, 0x12835b01, 0x243185be, 0x550c7dc3, 0x72be5d74, 0x80deb1fe, 0x9bdc06a7, 0xc19bf174] ++
  [0xe49b69c1, 0xefbe4786, 0x0fc19dc6, 0x240ca1cc, 0x2de92c6f, 0x4a7484aa, 0x5cb0a9dc, 0x76f988da] ++
  [0x983e5152, 0xa831c66d, 0xb00327c8, 0xbf597fc7, 0xc6e00bf3, 0xd5a79147, 0x06ca6351, 0x14292967] ++
  [0x27b70a85, 0x2e1b2138, 0x4d2c6dfc, 0x53380d13, 0x650a7354, 0x766a0abb, 0x81c2c92e, 0x92722c85] ++
  [0xa2bfe8a1, 0xa81a664b, 0xc24b8b70, 0xc76c51a3, 0xd192e819, 0xd6990624, 0xf40e3585, 0x106aa070] ++
  [0x19a4c116, 0x1e376c08, 0x2748774c, 0x34b0bcb5, 0x391c0cb3, 0x4ed8aa4a, 0x5b9cca4f, 0x682e6ff3] ++
  [0x748f82ee, 0x78a5636f, 0x84c87814, 0x8cc70208, 0x90befffa, 0xa4506ceb, 0xbef9a3f7, 0xc67178f2]

/-- `K512` (R219). -/
def k512 : List (BitVec 64) :=
  [0x428a2f98d728ae22, 0x7137449123ef65cd, 0xb5c0fbcfec4d3b2f, 0xe9b5dba58189dbbc] ++
  [0x3956c25bf348b538, 0x59f111f1b605d019, 0x923f82a4af194f9b, 0xab1c5ed5da6d8118] ++
  [0xd807aa98a3030242, 0x12835b0145706fbe, 0x243185be4ee4b28c, 0x550c7dc3d5ffb4e2] ++
  [0x72be5d74f27b896f, 0x80deb1fe3b1696b1, 0x9bdc06a725c71235, 0xc19bf174cf692694] ++
  [0xe49b69c19ef14ad2, 0xefbe4786384f25e3, 0x0fc19dc68b8cd5b5, 0x240ca1cc77ac9c65] ++
  [0x2de92c6f592b0275, 0x4a7484aa6ea6e483, 0x5cb0a9dcbd41fbd4, 0x76f988da831153b5] ++
  [0x983e5152ee66dfab, 0xa831c66d2db43210, 0xb00327c898fb213f, 0xbf597fc7beef0ee4] ++
  [0xc6e00bf33da88fc2, 0xd5a79147930aa725, 0x06ca6351e003826f, 0x142929670a0e6e70] ++
  [0x27b70a8546d22ffc, 0x2e1b21385c26c926, 0x4d2c6dfc5ac42aed, 0x53380d139d95b3df] ++
  [0x650a73548baf63de, 0x766a0abb3c77b2a8, 0x81c2c92e47edaee6, 0x92722c851482353b] ++
  [0xa2bfe8a14cf10364, 0xa81a664bbc423001, 0xc24b8b70d0f89791, 0xc76c51a30654be30] ++
  [0xd192e819d6ef5218, 0xd69906245565a910, 0xf40e35855771202a, 0x106aa07032bbd1b8] ++
  [0x19a4c116b8d2d0c8, 0x1e376c085141ab53, 0x2748774cdf8eeb99, 0x34b0bcb5e19b48a8] ++
  [0x391c0cb3c5c95a63, 0x4ed8aa4ae3418acb, 0x5b9cca4f7763e373, 0x682e6ff3d6b2b8a3] ++
  [0x748f82ee5defb2fc, 0x78a5636f43172f60, 0x84c87814a1f0ab72, 0x8cc702081a6439ec] ++
  [0x90befffa23631e28, 0xa4506cebde82bde9, 0xbef9a3f7b2c67915, 0xc67178f2e372532b] ++
  [0xca273eceea26619c, 0xd186b8c721c0c207, 0xeada7dd6cde0eb1e, 0xf57d4f7fee6ed178] ++
  [0x06f067aa72176fba, 0x0a637dc5a2c898a6, 0x113f9804bef90dae, 0x1b710b35131c471b] ++
  [0x28db77f523047d84, 0x32caab7b40c72493, 0x3c9ebe0a15c9bebc, 0x431d67c49c100d4c] ++
  [0x4cc5d4becb3e42b6, 0x597f299cfc657e2a, 0x5fcb6fab3ad6faec, 0x6c44198c4a475817]

/-- `Compress(F256, H, blk)` (R218). -/
def compressF256 (hs : List Word) (blk : List Byte) : List Word :=
  addState 8 hs
    (rounds2 (bigSigma 2 13 22) (bigSigma 6 11 25) k256
      (schedule (nextW2 (smallSigma 7 18 3) (smallSigma 17 19 10)) 4 64 blk) (loadVars 32 hs))

/-- `Compress(F512, H, blk)` (R219). -/
def compressF512 (hs : List Word) (blk : List Byte) : List Word :=
  addState 8 hs
    (rounds2 (bigSigma 28 34 39) (bigSigma 14 18 41) k512
      (schedule (nextW2 (smallSigma 1 8 7) (smallSigma 19 61 6)) 8 80 blk) (loadVars 64 hs))

/-- The standard compression function of a family (R217 to R219). -/
def shaCompress : Family → List Word → List Byte → List Word
  | .f1 => compressF1
  | .f256 => compressF256
  | .f512 => compressF512

end Sys2Proof.Machine
end

