-- ==== Sys2Proof/Machine/Engine.lean ====
section
/-! DEFINITION. The Hardware Interface: the engine's two functions as the implementation fixes them, and
the three primitives (44_engine_primitive.md). -/

namespace Sys2Proof.Machine

/-- Exactly `NW` words of `W` bits: the type of `IV` and `Compress` (R215). -/
def normWords (f : Family) (l : List Word) : List Word :=
  ((l ++ List.replicate (stateWords f) 0).take (stateWords f)).map (truncWord (wordBits f))

/-- `IV(mode)` of this implementation (R9, R215). -/
def engineIV (cfg : Config) (m : Mode) : List Word :=
  normWords (famOf m) <| match cfg.engine with
    | .fips => shaIV m
    | .other k => (List.range (stateWords (famOf m))).map (Config.otherIV k m)

/-- `Compress(fam, H, blk)` of this implementation: a function of its arguments alone (R9, R215). -/
def engineCompress (cfg : Config) (f : Family) (h : List Word) (blk : List Byte) : List Word :=
  normWords f <| match cfg.engine with
    | .fips => shaCompress f h blk
    | .other k => (List.range (stateWords f)).map (Config.otherCompress k f h blk)

/-- `HW_START(mode, blk)` (R211): a fresh digest computation. With `err` it reports an error and leaves the
registers `⊥` (R214). The answer is the registers after it and whether it returned `ok`. -/
def hwStart (cfg : Config) (err : Bool) (m : Mode) (blk : List Byte) (e : Engine) : Engine × Bool :=
  if err then (Engine.bottom, false)
  else ({ h := overwriteWords (engineCompress cfg (famOf m) (engineIV cfg m) blk) e.h, mode := some m }, true)

/-- `HW_CONTINUE(mode, H_saved, blk)` (R212): restore the saved state, then one block. -/
def hwContinue (cfg : Config) (err : Bool) (m : Mode) (saved : List Word) (blk : List Byte) (e : Engine) :
    Engine × Bool :=
  if err then (Engine.bottom, false)
  else
    let restored := overwriteWords saved e.h
    ({ h := overwriteWords (engineCompress cfg (famOf m) (restored.take (stateWords (famOf m))) blk) restored
       mode := some m }, true)

/-- `HW_READ()` (R213): the `NW` words of `eng.mode`'s family; the registers stay. -/
def hwRead (err : Bool) (e : Engine) : Engine × Option (List Word) :=
  if err then (Engine.bottom, none)
  else
    match e.mode with
    | some m => (e, some (e.h.take (stateWords (famOf m))))
    | none => (e, some [])

/-- The primitives of one block operation on context `c`, in the order of R123: start or continue, then
read. The answer is the registers afterwards and the words read, or no words after an error (R125). A
primitive can report an error only when `HW_CAN_FAIL`. -/
def runBlock (cfg : Config) (d : Draw) (c : Ctx) (e : Engine) : Engine × Option (List Word) :=
  let blk := c.buffer.take c.bs
  let fed :=
    if c.firstBlock then hwStart cfg (cfg.hwCanFail && d.opError) c.mode blk e
    else hwContinue cfg (cfg.hwCanFail && d.opError) c.mode (c.state.take (stateWords (famOf c.mode))) blk e
  if fed.2 then hwRead (cfg.hwCanFail && d.readError) fed.1 else (fed.1, none)

end Sys2Proof.Machine
end

