-- ==== Sys2Proof/Machine/Arbiter.lean ====
section
/-! DEFINITION. The Engine Arbiter's micro-operations (40_arbiter.md). -/

namespace Sys2Proof.Machine

/-- `ACQUIRE(s)` (R121). -/
def acquire (k : Nat) (s : State) : Host.Outcome State Fault Refusal :=
  if (s.slot k).seq = .acq ∧ s.lock = .free then
    .next ((s.setLock (.held k)).setSlot k { s.slot k with seq := .feed })
  else .fault (.notEnabled k)

/-- The lock is held by another slot (R122). -/
def heldByOther (l : Lock) (k : Nat) : Bool :=
  match l with
  | .free => false
  | .held t => decide (t ≠ k)

/-- `ACQUIRE_TIMEOUT(s)` (R122), only with `LOCK_TIMEOUT = some`. -/
def acquireTimeout (k : Nat) (s : State) : Host.Outcome State Fault Refusal :=
  if (s.slot k).seq = .acq ∧ heldByOther s.lock k ∧ s.cfg.lockTimeout then
    .next (s.raise k .hardwareBusy)
  else .fault (.notEnabled k)

/-- `HW_CONTINUE` would read a word of `state[]` that is `⊥` (R32, U8). -/
def restoreUnwritten (c : Ctx) : Bool :=
  !c.firstBlock && decide (c.state.length < stateWords (famOf c.mode))

/-- The slot record after a block operation on its context `c`: the words read are saved, or the engine's
error is recorded for `RELEASE` (R123, R125). -/
def fedSlot (v : Slot) (c : Ctx) : Option (List Word) → Slot
  | some h =>
    { v with
      ctx := some { c with state := overwriteWords h c.state, firstBlock := false, occ := 0 }
      seq := .rel }
  | none => { v with err := .hardwareError, seq := .rel }

/-- `FEED_BLOCK(s)` (R123, R125): restore or start, run, save, in one step. -/
def feedBlock (k : Nat) (s : State) : Host.Outcome State Fault Refusal :=
  if (s.slot k).seq = .feed ∧ s.lock = .held k then
    match (s.slot k).ctx with
    | none => .refused (.contextUnspecified k)
    | some c =>
      if restoreUnwritten c then .refused (.stateUnwritten k)
      else
        let r := runBlock s.cfg s.draw c s.eng
        .next ((s.setEng r.1).setSlot k (fedSlot (s.slot k) c r.2))
  else .fault (.notEnabled k)

/-- `RELEASE(s)` (R124): the lock is freed on every path, before an error is reported. -/
def release (k : Nat) (s : State) : Host.Outcome State Fault Refusal :=
  if (s.slot k).seq = .rel ∧ s.lock = .held k then
    if (s.slot k).err = .hardwareError then .next ((s.setLock .free).raise k .hardwareError)
    else .next ((s.setLock .free).setSlot k { s.slot k with seq := .absorb })
  else .fault (.notEnabled k)

end Sys2Proof.Machine
end

