-- ==== Sys2Proof/Machine/Flags.lean ====
section
/-! DEFINITION. The flags (R41; there are no arithmetic condition codes) and the checks a command makes at
acceptance, in the order of R247. -/

namespace Sys2Proof.Machine

/-- The lifecycle an accepted `UPDATE` leaves: `Accumulating` when it brings a byte, else what it was
(R36, R161, R164). -/
def lifecycleAfter (len : BitVec 32) (l : Lifecycle) : Lifecycle :=
  if len = 0#32 then l else .accumulating

/-- `seq[SID] = IDLE`: slot `k` can accept a command (R96, R291). -/
def State.isIdle (s : State) (k : Nat) : Bool := decide ((s.slot k).seq = .idle)

/-- Acceptance of a command that names a slot (R96, R98, R247 step 1). A command for a busy slot is not
accepted: it goes back to the head of its channels, where it waits (R291, U3; DESIGN CHOICE, log entry 10). A
`SID ≥ N_CTX` is answered `InvalidArgument` and changes no context, flag or lock (R92). -/
def whenAccepted (s : State) (sid : BitVec 16) (c : Command)
    (body : Host.Outcome State Fault Refusal) : Host.Outcome State Fault Refusal :=
  if s.isIdle (sidNat sid) then
    if sidNat sid < s.cfg.nCtx then body
    else .next (s.post (.slot (sidNat sid)) .invalidArgument)
  else .next (s.putBack (.slot (sidNat sid)) c)

/-- The checks `UPDATE` and `FINISH` share, in order (R247 steps 2 to 5): `hw_ready`, a context that is
not `⊥` (else U1), the null-buffer argument, and a lifecycle that is not `Terminal`. -/
def whenPermitted (s : State) (k : Nat) (badArg : Bool)
    (body : Ctx → Host.Outcome State Fault Refusal) : Host.Outcome State Fault Refusal :=
  if s.hwReady then
    match (s.slot k).ctx with
    | none => .refused (.contextUnspecified k)
    | some c =>
      if badArg then .next (s.raise k .invalidArgument)
      else if c.lifecycle = .terminal then .next (s.raise k .invalidState)
      else body c
  else .next (s.raise k .hardwareUnavailable)

end Sys2Proof.Machine
end

