-- ==== Sys2Proof/Machine/BlockProcessor.lean ====
section
/-! DEFINITION. The Block Processor: the UPDATE command and the ABSORB step (42_block_processor.md). -/

namespace Sys2Proof.Machine

/-- The context of an accepted `UPDATE`: the counter advanced by the whole `LEN`, the lifecycle set (R161). -/
def updateCtx (c : Ctx) (len : BitVec 32) : Ctx :=
  { c with
    total := counterAdd (famOf c.mode) c.total len
    lifecycle := lifecycleAfter len c.lifecycle }

/-- The slot record of an accepted `UPDATE` on context `c`: its bytes pending at `ABSORB` (R161). -/
def updateSlot (v : Slot) (c : Ctx) (nullbuf : Bool) (len : BitVec 32) (data : List Byte) : Slot :=
  { v with
    ctx := some (updateCtx c len)
    op := some .update
    pend := if nullbuf then [] else data
    seq := .absorb }

/-- `UPDATE(s, LEN, data, NULLBUF)`: acceptance (R161, R164). Its bytes then move through `absorb` and the
arbiter's micro-operations, which complete the command (R162). -/
def execUpdate (nullbuf : Bool) (sid : BitVec 16) (len : BitVec 32) (data : List Byte) (s : State) :
    Host.Outcome State Fault Refusal :=
  whenAccepted s sid (encode (.update nullbuf sid len data)) <|
    whenPermitted s (sidNat sid) (nullbuf && len != 0#32) fun c =>
      .next (s.setSlot (sidNat sid) (updateSlot (s.slot (sidNat sid)) c nullbuf len data))

/-- How many bytes `ABSORB` appends: `min(BS − occ, |pend|)` (R163). -/
def absorbCount (c : Ctx) (pend : List Byte) : Nat := min (c.bs - c.occ) pend.length

/-- The context with the first `absorbCount` pending bytes appended (R163). -/
def absorbCtx (c : Ctx) (pend : List Byte) : Ctx :=
  { c with
    buffer := writeRun c.buffer c.occ (pend.take (absorbCount c pend))
    occ := c.occ + absorbCount c pend }

/-- `ABSORB(s)` (R163), and the completion of `UPDATE` (R162). `op[s]` stays, as the rule writes it (log entry 19). -/
def absorb (k : Nat) (s : State) : Host.Outcome State Fault Refusal :=
  let v := s.slot k
  if v.seq = .absorb then
    match v.ctx with
    | none => .refused (.contextUnspecified k)
    | some c =>
      if v.pend = [] then
        if v.op = some .update then .next ((s.setSlot k { v with seq := .idle }).post (.slot k) .ok)
        else .next (s.setSlot k { v with seq := .extract })
      else
        .next (s.setSlot k
          { v with
            ctx := some (absorbCtx c v.pend)
            pend := v.pend.drop (absorbCount c v.pend)
            seq := if (absorbCtx c v.pend).occ = c.bs then .acq else .absorb })
  else .fault (.notEnabled k)

end Sys2Proof.Machine
end

