-- ==== Sys2Proof/Machine/Finalizer.lean ====
section
/-! DEFINITION. The Finalizer: the FINISH command, the tail it appends, and the EXTRACT step
(43_finalizer.md). -/

namespace Sys2Proof.Machine

/-- The zero-pad count `z = (BS − LFS − (n + 1)) mod BS` for occupancy `n < BS` (R182), with one `BS` added
first so that the natural-number subtraction is exact (DEDUCED, log entry 17). -/
def padZeros (f : Family) (n : Nat) : Nat :=
  (2 * blockSize f - lenFieldSize f - (n + 1)) % blockSize f

/-- `Tail(c) = 0x80 ‖ zeros(z) ‖ BE_LFS(L)` (R184). -/
def tailBytes (f : Family) (occ : Nat) (total : Counter) : List Byte :=
  0x80 :: (zeroBytes (padZeros f occ) ++ beBytes (lenFieldSize f) (bitLength f total))

/-- The slot record of an accepted `FINISH` on context `c`: its tail pending at `ABSORB` (R181). -/
def finishSlot (v : Slot) (c : Ctx) : Slot :=
  { v with
    op := some .finish
    pend := tailBytes (famOf c.mode) c.occ c.total
    seq := .absorb }

/-- `FINISH(s, NULLBUF)`: acceptance (R181). The tail then drains through the same steps as input (R185). -/
def execFinish (nullbuf : Bool) (sid : BitVec 16) (s : State) : Host.Outcome State Fault Refusal :=
  whenAccepted s sid (encode (.finish nullbuf sid)) <|
    whenPermitted s (sidNat sid) nullbuf fun c =>
      .next (s.setSlot (sidNat sid) (finishSlot (s.slot (sidNat sid)) c))

/-- The digest: the first `DW` state words, each most significant byte first (R61, R200). -/
def digestOf (m : Mode) (state : List Word) : List Byte :=
  (state.take (digestWords m)).flatMap fun x => beBytes (wordBytes (famOf m)) x.toNat

/-- `EXTRACT(s)` (R200, R201): the digest, read from the context, goes out before the status. -/
def extract (k : Nat) (s : State) : Host.Outcome State Fault Refusal :=
  let v := s.slot k
  if v.seq = .extract then
    match v.ctx with
    | none => .refused (.contextUnspecified k)
    | some c =>
      if c.state.length < digestWords c.mode then .refused (.stateUnwritten k)
      else
        .next (((s.emit k (digestOf c.mode c.state)).setSlot k
          { v with ctx := some { c with lifecycle := .terminal }, seq := .idle }).post (.slot k) .ok)
  else .fault (.notEnabled k)

end Sys2Proof.Machine
end

