-- ==== Sys2Proof/Machine/Session.lean ====
section
/-! DEFINITION. Bring-up and the session commands that complete at acceptance: HWINIT and STARTS
(41_session.md). -/

namespace Sys2Proof.Machine

/-- The machine after a first bring-up with outcome `ok` or `absent` (R140). -/
def bringUpResult (s : State) (ok : Bool) : State :=
  if ok then (s.setReady true).post .bringUp .ok
  else s.post .bringUp .hardwareUnavailable

/-- `HWINIT` (R140): the outcome is a draw of the run. With `hw_ready = 1` it has no meaning (R141, U2). -/
def execHwinit (s : State) : Host.Outcome State Fault Refusal :=
  if s.hwReady then .refused .secondBringUp else .next (bringUpResult s s.draw.initOk)

/-- The context `STARTS` writes (R142): everything zeroed or selected, `state[]` left `⊥`. -/
def freshCtx (m : Mode) : Ctx :=
  { mode := m
    total := 0
    state := []
    buffer := zeroBytes 128
    occ := 0
    firstBlock := true
    lifecycle := .init }

/-- `STARTS(s, mode)` (R142): a pure local reset, failing only while `hw_ready = 0` (R251). -/
def starts (m : Mode) (sid : BitVec 16) (c : Command) (s : State) : Host.Outcome State Fault Refusal :=
  whenAccepted s sid c <|
    if s.hwReady then .next ((s.setCtx (sidNat sid) (freshCtx m)).post (.slot (sidNat sid)) .ok)
    else .next (s.post (.slot (sidNat sid)) .hardwareUnavailable)

/-- `STARTS.SHA1` (R143). -/
def execStartsSha1 (sid : BitVec 16) (s : State) : Host.Outcome State Fault Refusal :=
  starts .sha1 sid (encode (.startsSha1 sid)) s

/-- `STARTS.SHA256` (R145). -/
def execStartsSha256 (sid : BitVec 16) (s : State) : Host.Outcome State Fault Refusal :=
  starts .sha256 sid (encode (.startsSha256 sid)) s

/-- `STARTS.SHA224` (R144). -/
def execStartsSha224 (sid : BitVec 16) (s : State) : Host.Outcome State Fault Refusal :=
  starts .sha224 sid (encode (.startsSha224 sid)) s

/-- `STARTS.SHA512` (R147). -/
def execStartsSha512 (sid : BitVec 16) (s : State) : Host.Outcome State Fault Refusal :=
  starts .sha512 sid (encode (.startsSha512 sid)) s

/-- `STARTS.SHA384` (R146). -/
def execStartsSha384 (sid : BitVec 16) (s : State) : Host.Outcome State Fault Refusal :=
  starts .sha384 sid (encode (.startsSha384 sid)) s

end Sys2Proof.Machine
end

