-- ==== Sys2Proof/Machine/Dispatch.lean ====
section
/-! DEFINITION. The dispatch of an instruction to its meaning. -/

namespace Sys2Proof.Machine

def exec (i : Instr) (s : State) : Host.Outcome State Fault Refusal :=
  match i with
  | .hwinit => Sys2Proof.Machine.execHwinit s
  | .startsSha1 sid => Sys2Proof.Machine.execStartsSha1 sid s
  | .startsSha256 sid => Sys2Proof.Machine.execStartsSha256 sid s
  | .startsSha224 sid => Sys2Proof.Machine.execStartsSha224 sid s
  | .startsSha512 sid => Sys2Proof.Machine.execStartsSha512 sid s
  | .startsSha384 sid => Sys2Proof.Machine.execStartsSha384 sid s
  | .update nullbuf sid len data => Sys2Proof.Machine.execUpdate nullbuf sid len data s
  | .finish nullbuf sid => Sys2Proof.Machine.execFinish nullbuf sid s

end Sys2Proof.Machine
end

