-- ==== Sys2Proof/Machine/Scheduler.lean ====
section
/-! DEFINITION. The moves of the block: the acceptance of a command (R96) and the micro-operations of the
sequencers (R40), which of them are enabled, and which one a step takes. No order is promised between
slots (R70, R71): the choice is a draw of the run. -/

namespace Sys2Proof.Machine

/-- One step an agent can take (R11). -/
inductive Move where
  | accept (p : PortId)
  | absorb (k : Nat)
  | acquire (k : Nat)
  | timeout (k : Nat)
  | feed (k : Nat)
  | release (k : Nat)
  | extract (k : Nat)
  deriving DecidableEq, Repr

/-- The condition of R96 on a command word at the head of its channel: `OP = HWINIT`, a reserved `OP`, or
`seq[SID] = IDLE`. -/
def acceptable (s : State) (cw : CmdWord) : Bool :=
  cwOp cw == 0#4 || decide (3#4 < cwOp cw) || s.isIdle (sidNat (cwSid cw))

/-- A whole command stands at the head of the channels `q` and can be accepted (R94, R96). -/
def portReady (s : State) (q : Port) : Bool :=
  match takeCommand q.cmd q.dataIn with
  | some (c, _, _) => acceptable s c.cw
  | none => false

/-- The enabled micro-operation of a slot's sequencer, if any (R40, R121 to R124). -/
def seqMove (s : State) (k : Nat) (v : Slot) : Option Move :=
  match v.seq with
  | .idle => none
  | .absorb => some (.absorb k)
  | .acq =>
    if s.lock = .free then some (.acquire k)
    else if heldByOther s.lock k && s.cfg.lockTimeout then some (.timeout k)
    else none
  | .feed => if s.lock = .held k then some (.feed k) else none
  | .rel => if s.lock = .held k then some (.release k) else none
  | .extract => some (.extract k)

/-- Every enabled move. Unlisted ports are empty and unlisted slots idle, so they have none. -/
def enabledMoves (s : State) : List Move :=
  (if portReady s s.bringUp then [.accept .bringUp] else []) ++
    s.ports.filterMap (fun e => if portReady s e.2 then some (.accept (.slot e.1)) else none) ++
    s.slots.filterMap (fun e => seqMove s e.1 e.2)

/-- The move the coming step takes: the draw's pick among the enabled ones, `none` when there is none. -/
def State.chosen (s : State) : Option Move :=
  (enabledMoves s)[s.draw.turn % (enabledMoves s).length]?

/-- The acceptance step (R96): take one whole command off the channels `p` and run it, or answer
`InvalidArgument` on those channels and change nothing else when its word is illegal (R98, R251). -/
def acceptMove (p : PortId) (s : State) : Host.Outcome State Fault Refusal :=
  match takeCommand (s.port p).cmd (s.port p).dataIn with
  | none => .fault (.noCommand p)
  | some (c, ws, ds) =>
    match decodeCommand c with
    | .ok i => exec i (s.consume p ws ds)
    | .error _ => .next ((s.consume p ws ds).post p .invalidArgument)

/-- Take a move. -/
def takeMove (m : Move) (s : State) : Host.Outcome State Fault Refusal :=
  match m with
  | .accept p => acceptMove p s
  | .absorb k => Sys2Proof.Machine.absorb k s
  | .acquire k => Sys2Proof.Machine.acquire k s
  | .timeout k => acquireTimeout k s
  | .feed k => feedBlock k s
  | .release k => Sys2Proof.Machine.release k s
  | .extract k => Sys2Proof.Machine.extract k s

/-- One step: the reset event if it is pending (R280); else the chosen move, whose draw is then consumed;
else, with no move enabled, the block waits for a command (R280, R303; DESIGN CHOICE, log entry 13). -/
def stepOnce (s : State) : Host.Outcome State Fault Refusal :=
  if s.resetReq then .next s.resetEvent
  else
    match s.chosen with
    | none => .next s
    | some m => mapNext State.advanceDraw (takeMove m s)

/-- Make the coming step take the move `m`, if it is enabled: the draw's `turn` becomes its place. -/
def State.aim (s : State) (m : Move) : State :=
  { s with
    tape := { s.draw with turn := (enabledMoves s).findIdx (fun x => decide (x = m)) } :: s.tape.tail }

/-- Put an instruction's words and bytes at the head of the channels they belong to, with no reset pending,
and make the coming step accept them (log entry 12). -/
def State.present (s : State) (ws : List CmdWord) (ds : List Byte) : State :=
  let p := portOf (ws.headD 0)
  let q := s.port p
  State.aim { s.setPort p { q with cmd := ws ++ q.cmd, dataIn := ds ++ q.dataIn } with resetReq := false }
    (.accept p)

end Sys2Proof.Machine
end

