-- ==== Sys2Proof/Machine/Step.lean ====
section
/-! DEFINITION. The step of the machine, and the placing of an instruction where the next step takes it. -/

namespace Sys2Proof.Machine

/-- One step of the machine (R11). -/
def step (s : State) : Host.Outcome State Fault Refusal := stepOnce s

/-- The state with the instruction of the opcode table's numbering placed where `step` takes its next one. -/
def State.withFetchWord (s : State) (nbits w : Nat) : State :=
  s.present (tableWords nbits w) (tableData nbits w)

end Sys2Proof.Machine
end

