-- ==== Sys2Proof/Safety.lean ====
section
/-! DEFINITION. What counts as a good state, in the terms the claims use: the invariant of the machine
(R37, R301), what a step leaves alone, the opcode table of R97, the hash a session computes (R202), and the
sequential procedures of R166 and R202. -/

namespace Sys2Proof.Machine

/-! ### The invariant -/

/-- The sequencer positions at which a slot holds the lock (R301(d)). -/
def holdsLock (p : SeqPos) : Bool := decide (p = .feed) || decide (p = .rel)

/-- The widths and sizes of a context (R30 to R36): the counter and the state words fit their `2·W` and `W`
bits, `state[]` holds no word while `first_block = 1` and `NW` words after, the buffer has its 128 bytes,
`occ ≤ BS`, and an `Init` context has absorbed nothing. -/
structure CtxInv (c : Ctx) : Prop where
  total_lt : c.total.toNat < 2 ^ (2 * wordBits (famOf c.mode))
  words_lt : ∀ w ∈ c.state, w.toNat < 2 ^ wordBits (famOf c.mode)
  words_length : c.state.length = if c.firstBlock then 0 else stateWords (famOf c.mode)
  buffer_length : c.buffer.length = 128
  occ_le : c.occ ≤ c.bs
  init_total : c.lifecycle = .init → c.total = 0

/-- Between commands (R37(a), (b), (c)). -/
structure IdleInv (v : Slot) (c : Ctx) : Prop where
  occ_lt : c.occ < c.bs
  occ_eq : c.lifecycle ≠ .terminal → c.occ = c.total.toNat % c.bs
  first_eq : c.lifecycle ≠ .terminal → c.firstBlock = true → c.total.toNat = c.occ

/-- Inside a command: what is in the buffer and still to come agrees with the counter (`UPDATE`) or ends on a
block boundary (`FINISH`, R186), and each position of the sequencer has its occupancy (R33, R163). -/
structure BusyInv (v : Slot) (c : Ctx) : Prop where
  op_some : v.op ≠ none
  live : c.lifecycle ≠ .terminal
  update_mod : v.op = some .update → (c.occ + v.pend.length) % c.bs = c.total.toNat % c.bs
  update_first : v.op = some .update → c.firstBlock = true → c.total.toNat = c.occ + v.pend.length
  finish_mod : v.op = some .finish → (c.occ + v.pend.length) % c.bs = 0
  finish_first : v.op = some .finish → c.firstBlock = true → 0 < c.occ + v.pend.length
  absorb_occ : v.seq = .absorb → c.occ < c.bs
  acq_occ : v.seq = .acq ∨ v.seq = .feed → c.occ = c.bs
  rel_ok : v.seq = .rel → v.err = .none → c.occ = 0 ∧ c.firstBlock = false
  rel_err : v.seq = .rel → v.err = .hardwareError → c.occ = c.bs
  extract_done : v.seq = .extract →
    v.op = some .finish ∧ v.pend = [] ∧ c.occ = 0 ∧ c.firstBlock = false

/-- A slot record: before a successful bring-up it is untouched (R292); an error waits only at `REL` and only
where the engine can fail (R125); an idle slot has nothing pending; a busy one has a context. -/
structure SlotInv (cfg : Config) (hwReady : Bool) (v : Slot) : Prop where
  not_ready : hwReady = false → v.ctx = none ∧ v.seq = .idle
  err_rel : v.err = .hardwareError → v.seq = .rel ∧ cfg.hwCanFail = true
  idle_pend : v.seq = .idle → v.pend = []
  busy_ctx : v.seq ≠ .idle → v.ctx ≠ none
  ctx_inv : ∀ c, v.ctx = some c → CtxInv c
  idle_inv : ∀ c, v.ctx = some c → v.seq = .idle → IdleInv v c
  busy_inv : ∀ c, v.ctx = some c → v.seq ≠ .idle → BusyInv v c

/-- The engine registers (R22, R214): at most eight words; with a mode, its `NW` words hold values of `W`
bits; without one, every word is `⊥`. -/
structure EngineInv (e : Engine) : Prop where
  size : e.h.length ≤ 8
  bottom : e.mode = none → e.h = []
  words : ∀ m, e.mode = some m → stateWords (famOf m) ≤ e.h.length
  words_lt : ∀ m, e.mode = some m →
    ∀ w ∈ e.h.take (stateWords (famOf m)), w.toNat < 2 ^ wordBits (famOf m)

/-- The invariant of the machine: parameters in range, stores canonical and within the machine's slot numbers,
the lock held exactly by the slot at `FEED` or `REL` (R301(d)), every status code one of R100's, and the
invariants of the engine and of every slot. -/
structure Inv (s : State) : Prop where
  cfg : s.cfg.wf = true
  slots_wf : sparseWf Slot.reset s.slots = true
  ports_wf : sparseWf Port.empty s.ports = true
  slots_below : sparseBelow s.cfg.nCtx s.slots = true
  ports_below : sparseBelow 65536 s.ports = true
  lock_iff : ∀ k, s.lock = .held k ↔ holdsLock (s.slot k).seq = true
  codes : ∀ p, ∀ b ∈ (s.port p).resp, b.toNat ≤ 5
  engine : EngineInv s.eng
  slots : ∀ k, SlotInv s.cfg s.hwReady (s.slot k)

/-! ### What stays -/

/-- Every global register and the machine's own inputs are as before: parameters, `hw_ready`, `lock`, engine,
reset request, draws. -/
def sameGlobals (s t : State) : Prop :=
  t.cfg = s.cfg ∧ t.hwReady = s.hwReady ∧ t.lock = s.lock ∧ t.eng = s.eng ∧ t.resetReq = s.resetReq ∧
    t.tape = s.tape ∧ t.drawn = s.drawn

/-- Every slot record but that of slot `k` is as before (R63). -/
def sameOtherSlots (k : Nat) (s t : State) : Prop := ∀ j, j ≠ k → t.slot j = s.slot j

/-- Every slot record is as before. -/
def sameSlots (s t : State) : Prop := ∀ j, t.slot j = s.slot j

/-- Every set of channels but `p` is as before (R63). -/
def sameOtherPorts (p : PortId) (s t : State) : Prop := ∀ q, q ≠ p → t.port q = s.port q

/-- Every set of channels is as before. -/
def samePorts (s t : State) : Prop := ∀ q, t.port q = s.port q

/-- The channels `p` differ only in one status code more on the response channel. -/
def answered (p : PortId) (code : BitVec 8) (s t : State) : Prop :=
  t.port p = { s.port p with resp := (s.port p).resp ++ [code] } ∧ sameOtherPorts p s t

/-- A command on slot `k` has ended with the error `code` (R250): the context is `⊥`, or kept where `keep`, the
sequencer is idle with nothing pending, the status is out, and nothing else has changed. -/
def raisedAt (k : Nat) (code : BitVec 8) (keep : Bool) (s t : State) : Prop :=
  t.slot k = { ctx := if keep then (s.slot k).ctx else none, seq := .idle, op := none, pend := [], err := .none } ∧
    sameOtherSlots k s t ∧ answered (.slot k) code s t ∧ sameGlobals s t

/-! ### The opcode table and the commands a step accepts -/

/-- One row of the table of R97. -/
structure OpcodeRow where
  pattern : BitVec 32
  mask : BitVec 32
  deriving DecidableEq, Repr

/-- The eight rows of R97, as the spec prints them. -/
def opcodeRows : List OpcodeRow :=
  [⟨0x00000000, 0xFFFFFFFF⟩, ⟨0x10000000, 0xFFFF0000⟩, ⟨0x14000000, 0xFFFF0000⟩, ⟨0x15000000, 0xFFFF0000⟩,
   ⟨0x18000000, 0xFFFF0000⟩, ⟨0x19000000, 0xFFFF0000⟩, ⟨0x20000000, 0xFF7F0000⟩, ⟨0x30000000, 0xFF7F0000⟩]

/-- A word `w` is the row's command when `w & mask = match` (R97). -/
def OpcodeRow.fits (r : OpcodeRow) (w : CmdWord) : Bool := w &&& r.mask == r.pattern

/-- The row of R97 each instruction has. -/
def rowOf : Instr → OpcodeRow
  | .hwinit => ⟨0x00000000, 0xFFFFFFFF⟩
  | .startsSha1 _ => ⟨0x10000000, 0xFFFF0000⟩
  | .startsSha256 _ => ⟨0x14000000, 0xFFFF0000⟩
  | .startsSha224 _ => ⟨0x15000000, 0xFFFF0000⟩
  | .startsSha512 _ => ⟨0x18000000, 0xFFFF0000⟩
  | .startsSha384 _ => ⟨0x19000000, 0xFFFF0000⟩
  | .update _ _ _ _ => ⟨0x20000000, 0xFF7F0000⟩
  | .finish _ _ => ⟨0x30000000, 0xFF7F0000⟩

/-- The mode a `STARTS` selects (R93). -/
def startsMode : Instr → Option Mode
  | .startsSha1 _ => some .sha1
  | .startsSha256 _ => some .sha256
  | .startsSha224 _ => some .sha224
  | .startsSha512 _ => some .sha512
  | .startsSha384 _ => some .sha384
  | .hwinit => none
  | .update _ _ _ _ => none
  | .finish _ _ => none

/-- The slot a command names; `HWINIT` names none (R63, R92). -/
def instrSid : Instr → Option (BitVec 16)
  | .hwinit => none
  | .startsSha1 sid => some sid
  | .startsSha256 sid => some sid
  | .startsSha224 sid => some sid
  | .startsSha512 sid => some sid
  | .startsSha384 sid => some sid
  | .update _ sid _ _ => some sid
  | .finish _ sid => some sid

/-- A row of R143 to R147: the command words `top + SID` are the instruction, which is R142 with mode `m`, and the
context then runs with the parameters listed. -/
structure StartsRow (i : BitVec 16 → Instr) (top : Nat) (m : Mode)
    (bs w nw lfs totalBits db dw : Nat) : Prop where
  word : ∀ sid : BitVec 16, decodeCommand ⟨BitVec.ofNat 32 (top + sid.toNat), 0, []⟩ = .ok (i sid)
  effect : ∀ (sid : BitVec 16) (s : State), s.isIdle (sidNat sid) = true → sidNat sid < s.cfg.nCtx →
    (s.hwReady = true →
      ∃ t, exec (i sid) s = .next t ∧ (t.slot (sidNat sid)).ctx = some
          { mode := m, total := 0, state := [], buffer := List.replicate 128 0, occ := 0, firstBlock := true,
            lifecycle := .init } ∧
        answered (.slot (sidNat sid)) 0x00 s t ∧ sameOtherSlots (sidNat sid) s t ∧ sameGlobals s t) ∧
    (s.hwReady = false →
      ∃ t, exec (i sid) s = .next t ∧ sameSlots s t ∧ answered (.slot (sidNat sid)) 0x01 s t ∧ sameGlobals s t)
  bs_eq : blockSize (famOf m) = bs
  w_eq : wordBits (famOf m) = w
  nw_eq : stateWords (famOf m) = nw
  lfs_eq : lenFieldSize (famOf m) = lfs
  total_eq : 2 * wordBits (famOf m) = totalBits
  db_eq : digestBytes m = db
  dw_eq : digestWords m = dw

/-- The null-buffer argument that is an error: of `UPDATE` with `LEN ≠ 0`, and of `FINISH` (R243(b), (c)). -/
def nullArgument : Instr → Bool
  | .hwinit => false
  | .startsSha1 _ => false
  | .startsSha256 _ => false
  | .startsSha224 _ => false
  | .startsSha512 _ => false
  | .startsSha384 _ => false
  | .update nullbuf _ len _ => nullbuf && len != 0#32
  | .finish nullbuf _ => nullbuf

/-- The instruction at the head of the channels `p`, when a whole legal command stands there. -/
def State.headInstr (s : State) (p : PortId) : Option Instr :=
  match decode (s.port p).cmd (s.port p).dataIn with
  | .ok (i, _, _) => some i
  | .error _ => none

/-- The instruction the coming step accepts, if it accepts one. -/
def State.accepting (s : State) : Option Instr :=
  match s.chosen with
  | some (.accept p) => s.headInstr p
  | _ => none

/-- The coming step accepts a command that names slot `k`. -/
def State.acceptsFor (s : State) (k : Nat) : Prop :=
  ∃ i sid, s.accepting = some i ∧ instrSid i = some sid ∧ sidNat sid = k

/-- The slot whose sequencer a move belongs to; an acceptance belongs to none. -/
def Move.slot? : Move → Option Nat
  | .accept _ => none
  | .absorb k => some k
  | .acquire k => some k
  | .timeout k => some k
  | .feed k => some k
  | .release k => some k
  | .extract k => some k

/-- The coming step accepts the instruction `i`, which names slot `k`, whose channels are `p`. -/
def State.acceptsOn (s : State) (p : PortId) (i : Instr) (k : Nat) : Prop :=
  s.accepting = some i ∧ (instrSid i).map sidNat = some k ∧ p = .slot k

/-- Why the coming step may put the status `code` on the response channel of `p` (R240 to R248; the order of the
checks is R247's):
- `OK`: a bring-up that succeeds (R140), a `STARTS` of a machine that is up (R142), the last `ABSORB` of an
  `UPDATE` (R162), an `EXTRACT` (R200);
- `HardwareUnavailable`: `hw_ready = 0`, at a bring-up that fails or a command for a slot of the store (R241);
- `HardwareBusy`: `ACQUIRE_TIMEOUT`, where `LOCK_TIMEOUT = some` (R242);
- `InvalidArgument`: an illegal word, a `SID ≥ N_CTX`, or a null-buffer argument on a context that is not `⊥` (R243);
- `InvalidState`: `UPDATE` or `FINISH` on a `Terminal` context (R246);
- `HardwareError`: `RELEASE` with an engine error recorded, where `HW_CAN_FAIL` (R248). -/
def answerCause (s : State) (p : PortId) (code : BitVec 8) : Prop :=
  (code = 0x00 ∧
    ((s.accepting = some .hwinit ∧ p = .bringUp ∧ s.hwReady = false ∧ s.draw.initOk = true) ∨
      (∃ i m k, s.acceptsOn p i k ∧ startsMode i = some m ∧ k < s.cfg.nCtx ∧ s.hwReady = true) ∨
      (∃ k, s.chosen = some (.absorb k) ∧ p = .slot k ∧ (s.slot k).pend = [] ∧ (s.slot k).op = some .update) ∨
      ∃ k, s.chosen = some (.extract k) ∧ p = .slot k)) ∨
  (code = 0x01 ∧ s.hwReady = false ∧
    ((s.accepting = some .hwinit ∧ p = .bringUp ∧ s.draw.initOk = false) ∨
      ∃ i k, s.acceptsOn p i k ∧ k < s.cfg.nCtx)) ∨
  (code = 0x02 ∧ ∃ k, s.chosen = some (.timeout k) ∧ p = .slot k ∧ s.cfg.lockTimeout = true) ∨
  (code = 0x03 ∧
    ((∃ c ws ds e, s.chosen = some (.accept p) ∧
        takeCommand (s.port p).cmd (s.port p).dataIn = some (c, ws, ds) ∧ decodeCommand c = .error e) ∨
      (∃ i k, s.acceptsOn p i k ∧ s.cfg.nCtx ≤ k) ∨
      ∃ i k, s.acceptsOn p i k ∧ k < s.cfg.nCtx ∧ s.hwReady = true ∧ (s.slot k).ctx ≠ none ∧
        nullArgument i = true)) ∨
  (code = 0x04 ∧ ∃ i k c, s.acceptsOn p i k ∧ startsMode i = none ∧ k < s.cfg.nCtx ∧ s.hwReady = true ∧
    (s.slot k).ctx = some c ∧ c.lifecycle = .terminal ∧ nullArgument i = false) ∨
  (code = 0x05 ∧ ∃ k, s.chosen = some (.release k) ∧ p = .slot k ∧ (s.slot k).err = .hardwareError ∧
    s.cfg.hwCanFail = true)

/-- No micro-operation writes a slot's byte counter: `UPDATE` advances it once, at acceptance (R161), and no step
of `FINISH` writes it (R181). -/
def movesKeepTotal : Prop :=
  ∀ (m : Move) (k : Nat) (s t : State) (c c' : Ctx), m.slot? = some k → takeMove m s = .next t →
    (s.slot k).ctx = some c → (t.slot k).ctx = some c' → c'.total = c.total

/-- The mode of a `STARTS` for slot `k` that the coming step accepts. -/
def State.restarting (s : State) (k : Nat) : Option Mode :=
  match s.accepting with
  | some i => if (instrSid i).map sidNat = some k then startsMode i else none
  | none => none

/-- The bytes of an `UPDATE` for slot `k` that the coming step accepts. -/
def State.absorbing (s : State) (k : Nat) : List Byte :=
  match s.accepting with
  | some (.update _ sid _ data) => if sidNat sid = k then data else []
  | _ => []

/-! ### The hash of a message (R202) -/

/-- Block `n` of a byte string, counted from 0. -/
def blockOf (f : Family) (msg : List Byte) (n : Nat) : List Byte :=
  (msg.drop (n * blockSize f)).take (blockSize f)

/-- `H_n`: the state after the first `n` blocks, from `H_0 = IV(mode)` (R202). -/
def mdChain (cfg : Config) (m : Mode) (msg : List Byte) : Nat → List Word
  | 0 => engineIV cfg m
  | n + 1 => engineCompress cfg (famOf m) (mdChain cfg m msg n) (blockOf (famOf m) msg n)

/-- The tail of a message: `0x80`, the fewest zero bytes that leave room for the length field at the end of a
block, and the big-endian bit-length (R182 to R184). -/
def mdTail (f : Family) (msg : List Byte) : List Byte :=
  [0x80] ++ zeroBytes ((2 * blockSize f - lenFieldSize f - 1 - msg.length % blockSize f) % blockSize f) ++
    beBytes (lenFieldSize f) (8 * msg.length % 2 ^ (8 * lenFieldSize f))

/-- The digest of a message: the first `DB` bytes of the big-endian words of the last state (R202). -/
def mdDigest (cfg : Config) (m : Mode) (msg : List Byte) : List Byte :=
  let padded := msg ++ mdTail (famOf m) msg
  ((mdChain cfg m padded (padded.length / blockSize (famOf m))).flatMap fun x =>
    beBytes (wordBytes (famOf m)) x.toNat).take (digestBytes m)

/-- A context and its pending bytes carry the byte string `msg`: some whole blocks already chained into
`state[]`, then the buffered bytes, then the pending ones. -/
def Carries (cfg : Config) (c : Ctx) (pend msg : List Byte) : Prop :=
  ∃ n fed, msg = fed ++ c.buffer.take c.occ ++ pend ∧ fed.length = n * c.bs ∧
    (c.firstBlock = true → n = 0) ∧
    (c.firstBlock = false → 0 < n ∧ c.state = mdChain cfg c.mode msg n)

/-- Slot `k` is hashing `msg` in mode `m`: `msg` is everything its `UPDATE`s have brought since `STARTS`, and
a `FINISH` in flight carries the padded message. -/
def Hashing (s : State) (k : Nat) (m : Mode) (msg : List Byte) : Prop :=
  ∃ c, (s.slot k).ctx = some c ∧ c.mode = m ∧ c.lifecycle ≠ .terminal ∧
    c.total.toNat = msg.length % 2 ^ (2 * wordBits (famOf m)) ∧
    Carries s.cfg c (s.slot k).pend
      (if (s.slot k).seq ≠ .idle ∧ (s.slot k).op = some .finish then msg ++ mdTail (famOf m) msg else msg)

/-! ### The sequential procedures (R166, R202) -/

/-- One byte of the loop: append it, and feed the block when the buffer is full (R202). -/
def absorbByte (cfg : Config) (c : Ctx) (b : Byte) : Ctx :=
  let c' := { c with buffer := c.buffer.set c.occ b, occ := c.occ + 1 }
  if c'.occ = c'.bs then
    let h := if c.firstBlock then engineIV cfg c.mode else c.state
    { c' with
      state := engineCompress cfg (famOf c.mode) h (c'.buffer.take c'.bs)
      firstBlock := false
      occ := 0 }
  else c'

/-- The loop over all bytes (R166, R202). -/
def absorbAll (cfg : Config) (c : Ctx) (bs : List Byte) : Ctx := bs.foldl (absorbByte cfg) c

/-- Slot `k` runs alone: no reset is pending, every other sequencer is idle and no command waits anywhere. -/
structure RunsAlone (s : State) (k : Nat) : Prop where
  no_reset : s.resetReq = false
  others_idle : ∀ j, j ≠ k → (s.slot j).seq = .idle
  no_command : ∀ p, (s.port p).cmd = []

end Sys2Proof.Machine
end

