-- ==== Sys2Proof/Certificates/Slice0/Obligations.lean ====
section
/-! DEFINITION. The statements about the SHA hash arbiter, each a proposition; nothing is proved here.
`⊥` is no value: `none`, or no entry in a list of words. A statement about a step speaks of steps that are not
the reset event (`resetReq = false`), which has a statement of its own. -/

open Sys2Proof Sys2Proof.Machine

/-! ### Reset and waiting -/

/-- R50: the values reset leaves, for every implementation. -/
def Obligations.ResetLeavesStatedValues : Prop :=
  ∀ c : Config,
    (State.resetOf c).hwReady = false ∧ (State.resetOf c).lock = .free ∧
      (∀ i : Nat, (State.resetOf c).eng.h[i]? = none) ∧ (State.resetOf c).eng.mode = none ∧
      ∀ k, ((State.resetOf c).slot k).ctx = none ∧ ((State.resetOf c).slot k).seq = .idle ∧
        ((State.resetOf c).slot k).pend = [] ∧ ((State.resetOf c).slot k).err = .none ∧
        ((State.resetOf c).slot k).op = none

/-- R280: the reset event, from every state, in one step; a command in flight is lost without a status, since the
response and digest-out channels come out empty too. The pending bit that the next step serves and takes back is the
model's choice (log entry 8), and so is that the parameters stay (log entry 16). -/
def Obligations.ResetEventClearsTheBlock : Prop :=
  ∀ s : State, s.resetReq = true →
    ∃ t, step s = .next t ∧ t.hwReady = false ∧ t.lock = .free ∧ t.eng = Engine.bottom ∧
      (∀ k, t.slot k = { ctx := none, seq := .idle, op := none, pend := [], err := .none }) ∧
      (∀ p, (t.port p).cmd = [] ∧ (t.port p).dataIn = [] ∧ (t.port p).resp = [] ∧
        (t.port p).digestOut = []) ∧
      t.resetReq = false ∧ t.cfg = s.cfg

/-- The model's choice (log entry 13, DESIGN CHOICE): waiting is a step that answers the same state. R280 says only
that the block waits for a command after reset, and R303 only when a run has ended; neither says that there is such
a step. -/
def Obligations.BlockWaitsWithNoMove : Prop :=
  ∀ s : State, s.resetReq = false → enabledMoves s = [] → step s = .next s

/-! ### HWINIT -/

/-- R140: `HWINIT` with `hw_ready = 0` completes with the outcome the run draws, and touches no context, not
the lock and not the engine. -/
def Obligations.HwinitBringsUp : Prop :=
  decodeCommand ⟨0x00000000, 0, []⟩ = .ok .hwinit ∧
  ∀ s : State, s.hwReady = false →
    (s.draw.initOk = true →
      ∃ t, exec .hwinit s = .next t ∧ t.hwReady = true ∧ answered .bringUp 0x00 s t ∧ sameSlots s t ∧
        t.lock = s.lock ∧ t.eng = s.eng) ∧
    (s.draw.initOk = false →
      ∃ t, exec .hwinit s = .next t ∧ t.hwReady = false ∧ answered .bringUp 0x01 s t ∧ sameSlots s t ∧
        t.lock = s.lock ∧ t.eng = s.eng)

/-- R141: a second bring-up after a successful one has no meaning. -/
def Obligations.SecondHwinitHasNoMeaning : Prop :=
  ∀ s : State, s.hwReady = true → exec .hwinit s = .refused .secondBringUp

/-- The frame of `HWINIT`: whatever it answers, only `hw_ready` and its own response channel may differ. -/
def Obligations.FrameOfHwinit : Prop :=
  ∀ s t : State, exec .hwinit s = .next t →
    sameSlots s t ∧ sameOtherPorts .bringUp s t ∧ (t.port .bringUp).cmd = (s.port .bringUp).cmd ∧
      (t.port .bringUp).dataIn = (s.port .bringUp).dataIn ∧
      (t.port .bringUp).digestOut = (s.port .bringUp).digestOut ∧
      t.lock = s.lock ∧ t.eng = s.eng ∧ t.cfg = s.cfg ∧ t.resetReq = s.resetReq ∧ t.tape = s.tape ∧
      t.drawn = s.drawn

/-! ### STARTS -/

/-- R142, for all five `STARTS`: the context's new value when the machine is up, and the failure when it is not.
`i` is any of the five, `m` its mode. -/
def Obligations.StartsResetsTheContext : Prop :=
  ∀ (i : Instr) (m : Mode) (sid : BitVec 16) (s : State),
    startsMode i = some m → instrSid i = some sid → s.isIdle (sidNat sid) = true →
    sidNat sid < s.cfg.nCtx →
    (s.hwReady = true →
      ∃ t c, exec i s = .next t ∧ (t.slot (sidNat sid)).ctx = some c ∧
        c.mode = m ∧ c.total = 0 ∧ c.occ = 0 ∧ c.buffer = List.replicate 128 0 ∧ c.firstBlock = true ∧
        c.lifecycle = .init ∧ (∀ j : Nat, c.state[j]? = none) ∧
        answered (.slot (sidNat sid)) 0x00 s t ∧ sameOtherSlots (sidNat sid) s t ∧ sameGlobals s t) ∧
    (s.hwReady = false →
      ∃ t, exec i s = .next t ∧ sameSlots s t ∧ answered (.slot (sidNat sid)) 0x01 s t ∧ sameGlobals s t)

/-- R143 to R147: the command words, the mode and the parameters of each `STARTS`; no truncated SHA-1 (R143); distinct
initial constants for SHA-224 and SHA-256 in the standard engine (R144; what those constants are is R216, general
knowledge, PRESUMED in log entry 11). -/
def Obligations.StartsSelectsModeParameters : Prop :=
  StartsRow .startsSha1 0x10000000 .sha1 64 32 5 8 64 20 5 ∧
  StartsRow .startsSha224 0x15000000 .sha224 64 32 8 8 64 28 7 ∧
  StartsRow .startsSha256 0x14000000 .sha256 64 32 8 8 64 32 8 ∧
  StartsRow .startsSha384 0x19000000 .sha384 128 64 8 16 128 48 6 ∧
  StartsRow .startsSha512 0x18000000 .sha512 128 64 8 16 128 64 8 ∧
  (∀ sid : BitVec 16,
    decodeCommand ⟨BitVec.ofNat 32 (0x11000000 + sid.toNat), 0, []⟩ = .error .illegalMode) ∧
  ∀ cfg : Config, cfg.engine = .fips → engineIV cfg .sha224 ≠ engineIV cfg .sha256

/-- The frame of the five `STARTS`: no global register, no other slot, no other channels; of its own slot only
the context may differ (the message in progress is given up, R142), of its own channels only the status, and for
a busy slot the command that waits. -/
def Obligations.FrameOfStarts : Prop :=
  ∀ (i : Instr) (m : Mode) (sid : BitVec 16) (s t : State),
    startsMode i = some m → instrSid i = some sid → exec i s = .next t →
    sameGlobals s t ∧ sameOtherSlots (sidNat sid) s t ∧ sameOtherPorts (.slot (sidNat sid)) s t ∧
      (t.slot (sidNat sid)).seq = (s.slot (sidNat sid)).seq ∧
      (t.slot (sidNat sid)).op = (s.slot (sidNat sid)).op ∧
      (t.slot (sidNat sid)).pend = (s.slot (sidNat sid)).pend ∧
      (t.slot (sidNat sid)).err = (s.slot (sidNat sid)).err ∧
      (t.port (.slot (sidNat sid))).digestOut = (s.port (.slot (sidNat sid))).digestOut ∧
      (s.isIdle (sidNat sid) = true →
        (t.port (.slot (sidNat sid))).cmd = (s.port (.slot (sidNat sid))).cmd ∧
        (t.port (.slot (sidNat sid))).dataIn = (s.port (.slot (sidNat sid))).dataIn)

/-! ### UPDATE and FINISH: acceptance -/

/-- R161: the tests of `UPDATE` in order, and what an accepted one leaves: the counter advanced by `LEN` modulo
`2^(2W)`, `Accumulating` when `LEN > 0`, and its bytes pending at `ABSORB`; no later step changes the counter. -/
def Obligations.UpdateAcceptance : Prop :=
  ∀ (nullbuf : Bool) (sid : BitVec 16) (len : BitVec 32) (data : List Byte) (s : State),
    s.isIdle (sidNat sid) = true → sidNat sid < s.cfg.nCtx →
    (s.hwReady = false →
      ∃ t, exec (.update nullbuf sid len data) s = .next t ∧ raisedAt (sidNat sid) 0x01 false s t) ∧
    (s.hwReady = true → (s.slot (sidNat sid)).ctx = none →
      exec (.update nullbuf sid len data) s = .refused (.contextUnspecified (sidNat sid))) ∧
    (∀ c, s.hwReady = true → (s.slot (sidNat sid)).ctx = some c → nullbuf = true → len ≠ 0 →
      ∃ t, exec (.update nullbuf sid len data) s = .next t ∧ raisedAt (sidNat sid) 0x03 false s t) ∧
    (∀ c, s.hwReady = true → (s.slot (sidNat sid)).ctx = some c → ¬(nullbuf = true ∧ len ≠ 0) →
      c.lifecycle = .terminal →
      ∃ t, exec (.update nullbuf sid len data) s = .next t ∧ raisedAt (sidNat sid) 0x04 true s t) ∧
    (∀ c, s.hwReady = true → (s.slot (sidNat sid)).ctx = some c → ¬(nullbuf = true ∧ len ≠ 0) →
      c.lifecycle ≠ .terminal →
      ∃ t, exec (.update nullbuf sid len data) s = .next t ∧
        (t.slot (sidNat sid)).ctx = some
          { c with
            total := BitVec.ofNat 128 ((c.total.toNat + len.toNat) % 2 ^ (2 * wordBits (famOf c.mode)))
            lifecycle := if 0 < len.toNat then .accumulating else c.lifecycle } ∧
        (t.slot (sidNat sid)).op = some .update ∧
        (t.slot (sidNat sid)).pend = (if nullbuf then [] else data) ∧
        (t.slot (sidNat sid)).seq = .absorb ∧ (t.slot (sidNat sid)).err = (s.slot (sidNat sid)).err ∧
        sameOtherSlots (sidNat sid) s t ∧ samePorts s t ∧ sameGlobals s t) ∧
    movesKeepTotal

/-- R164: an `UPDATE` of length 0 on a live context changes nothing of the context, with either null-buffer flag, and
its first `ABSORB` completes it with `OK`, leaving the lock and the engine alone. That it is still an error on a
`Terminal` context and before bring-up is the sentence R164 marks as derived from R161. -/
def Obligations.ZeroLengthUpdateIsNoop : Prop :=
  ∀ (nullbuf : Bool) (sid : BitVec 16) (s : State),
    s.isIdle (sidNat sid) = true → sidNat sid < s.cfg.nCtx →
    (∀ c, s.hwReady = true → (s.slot (sidNat sid)).ctx = some c → c.lifecycle ≠ .terminal →
      c.total.toNat < 2 ^ (2 * wordBits (famOf c.mode)) →
      ∃ t u, exec (.update nullbuf sid 0 []) s = .next t ∧ takeMove (.absorb (sidNat sid)) t = .next u ∧
        (u.slot (sidNat sid)).ctx = some c ∧ (u.slot (sidNat sid)).seq = .idle ∧
        answered (.slot (sidNat sid)) 0x00 s u ∧ sameOtherSlots (sidNat sid) s u ∧ sameGlobals s u) ∧
    (∀ c, s.hwReady = true → (s.slot (sidNat sid)).ctx = some c → c.lifecycle = .terminal →
      ∃ t, exec (.update nullbuf sid 0 []) s = .next t ∧ raisedAt (sidNat sid) 0x04 true s t) ∧
    (s.hwReady = false →
      ∃ t, exec (.update nullbuf sid 0 []) s = .next t ∧ raisedAt (sidNat sid) 0x01 false s t)

/-- R181: the tests of `FINISH` in order, and what an accepted one leaves: the tail pending at `ABSORB`, the
context itself unchanged; no step of it writes the counter. -/
def Obligations.FinishAcceptance : Prop :=
  ∀ (nullbuf : Bool) (sid : BitVec 16) (s : State),
    s.isIdle (sidNat sid) = true → sidNat sid < s.cfg.nCtx →
    (s.hwReady = false →
      ∃ t, exec (.finish nullbuf sid) s = .next t ∧ raisedAt (sidNat sid) 0x01 false s t) ∧
    (s.hwReady = true → (s.slot (sidNat sid)).ctx = none →
      exec (.finish nullbuf sid) s = .refused (.contextUnspecified (sidNat sid))) ∧
    (∀ c, s.hwReady = true → (s.slot (sidNat sid)).ctx = some c → nullbuf = true →
      ∃ t, exec (.finish nullbuf sid) s = .next t ∧ raisedAt (sidNat sid) 0x03 false s t) ∧
    (∀ c, s.hwReady = true → (s.slot (sidNat sid)).ctx = some c → nullbuf = false →
      c.lifecycle = .terminal →
      ∃ t, exec (.finish nullbuf sid) s = .next t ∧ raisedAt (sidNat sid) 0x04 true s t) ∧
    (∀ c, s.hwReady = true → (s.slot (sidNat sid)).ctx = some c → nullbuf = false →
      c.lifecycle ≠ .terminal →
      ∃ t, exec (.finish nullbuf sid) s = .next t ∧
        t.slot (sidNat sid) =
          { s.slot (sidNat sid) with
            op := some .finish
            pend := tailBytes (famOf c.mode) c.occ c.total
            seq := .absorb } ∧
        sameOtherSlots (sidNat sid) s t ∧ samePorts s t ∧ sameGlobals s t) ∧
    movesKeepTotal

/-- The frame of `UPDATE`: no global register, no other slot, no other channels; a context that is still there
keeps its mode, state words, occupancy, `first_block` and every byte of its buffer; no digest byte. -/
def Obligations.FrameOfUpdate : Prop :=
  ∀ (nullbuf : Bool) (sid : BitVec 16) (len : BitVec 32) (data : List Byte) (s t : State),
    exec (.update nullbuf sid len data) s = .next t →
    sameGlobals s t ∧ sameOtherSlots (sidNat sid) s t ∧ sameOtherPorts (.slot (sidNat sid)) s t ∧
      (t.port (.slot (sidNat sid))).digestOut = (s.port (.slot (sidNat sid))).digestOut ∧
      (s.isIdle (sidNat sid) = true →
        (t.port (.slot (sidNat sid))).cmd = (s.port (.slot (sidNat sid))).cmd ∧
        (t.port (.slot (sidNat sid))).dataIn = (s.port (.slot (sidNat sid))).dataIn) ∧
      ∀ c c', (s.slot (sidNat sid)).ctx = some c → (t.slot (sidNat sid)).ctx = some c' →
        c'.mode = c.mode ∧ c'.state = c.state ∧ c'.occ = c.occ ∧ c'.firstBlock = c.firstBlock ∧
        ∀ a : Nat, c'.buffer[a]? = c.buffer[a]?

/-- The frame of `FINISH`: as that of `UPDATE`, and a context that is still there keeps its counter and
lifecycle too. -/
def Obligations.FrameOfFinish : Prop :=
  ∀ (nullbuf : Bool) (sid : BitVec 16) (s t : State),
    exec (.finish nullbuf sid) s = .next t →
    sameGlobals s t ∧ sameOtherSlots (sidNat sid) s t ∧ sameOtherPorts (.slot (sidNat sid)) s t ∧
      (t.port (.slot (sidNat sid))).digestOut = (s.port (.slot (sidNat sid))).digestOut ∧
      (s.isIdle (sidNat sid) = true →
        (t.port (.slot (sidNat sid))).cmd = (s.port (.slot (sidNat sid))).cmd ∧
        (t.port (.slot (sidNat sid))).dataIn = (s.port (.slot (sidNat sid))).dataIn) ∧
      ∀ c c', (s.slot (sidNat sid)).ctx = some c → (t.slot (sidNat sid)).ctx = some c' → c' = c

/-- R92: a `SID` outside the context store, for every command that names a slot. That the answer goes out on the
channels of that number is the model's choice (log entry 9). -/
def Obligations.SlotOutOfRangeIsInvalidArgument : Prop :=
  ∀ (i : Instr) (sid : BitVec 16) (s : State),
    instrSid i = some sid → s.isIdle (sidNat sid) = true → s.cfg.nCtx ≤ sidNat sid →
    ∃ t, exec i s = .next t ∧ answered (.slot (sidNat sid)) 0x03 s t ∧ sameSlots s t ∧ sameGlobals s t

/-- The model's own choice (log entry 10): `exec` of a command for a busy slot puts it back at the head of its
channels and changes nothing else; `step` never accepts one. -/
def Obligations.CommandForBusySlotWaits : Prop :=
  ∀ (i : Instr) (sid : BitVec 16) (s : State) (ws : List CmdWord) (ds : List Byte),
    instrSid i = some sid → s.isIdle (sidNat sid) = false →
    (s.port (.slot (sidNat sid))).cmd = (encode i).words ++ ws →
    (s.port (.slot (sidNat sid))).dataIn = (encode i).data ++ ds →
    ∃ t, exec i (s.consume (.slot (sidNat sid)) ws ds) = .next t ∧ sameSlots s t ∧ samePorts s t ∧
      sameGlobals s t

/-! ### Encoding -/

/-- R94: how many words and data bytes a command takes, told from `OP` and `NULLBUF` alone. -/
def Obligations.FramingOfCommands : Prop :=
  ∀ (cw : CmdWord) (len : BitVec 32) (ws : List CmdWord) (d ds : List Byte),
    (cwOp cw = 2#4 → cwNullbuf cw = 0#1 → d.length = len.toNat →
      takeCommand (cw :: len :: ws) (d ++ ds) = some (⟨cw, len, d⟩, ws, ds)) ∧
    (cwOp cw = 2#4 → cwNullbuf cw = 1#1 →
      takeCommand (cw :: len :: ws) ds = some (⟨cw, len, []⟩, ws, ds)) ∧
    (cwOp cw ≠ 2#4 → takeCommand (cw :: ws) ds = some (⟨cw, 0, []⟩, ws, ds))

/-- R97: each instruction's words fit its own row of the table and no other, and a word that fits a row is that
row's command; a word that fits none is illegal. -/
def Obligations.LegalWordsAreTheTableRows : Prop :=
  ∀ c : Command,
    (∀ i, decodeCommand c = .ok i → rowOf i ∈ opcodeRows ∧ (rowOf i).fits c.cw = true) ∧
    (∀ r ∈ opcodeRows, r.fits c.cw = true → ∃ i, decodeCommand c = .ok i ∧ rowOf i = r) ∧
    ∀ r ∈ opcodeRows, ∀ r' ∈ opcodeRows, r.fits c.cw = true → r'.fits c.cw = true → r = r'

/-- R98: a word that matches no row, and a `SID ≥ N_CTX`, is taken off its channels whole, answered `InvalidArgument`,
and changes no state at all. That the answer goes out on the channels it came from is the model's choice (log entry
9). -/
def Obligations.IllegalCommandChangesNothing : Prop :=
  ∀ (s : State) (p : PortId) (c : Command) (ws : List CmdWord) (ds : List Byte),
    takeCommand (s.port p).cmd (s.port p).dataIn = some (c, ws, ds) →
    ((∀ r ∈ opcodeRows, r.fits c.cw = false) ∨
      (∃ i sid, decodeCommand c = .ok i ∧ instrSid i = some sid ∧ p = .slot (sidNat sid) ∧
        s.isIdle (sidNat sid) = true ∧ s.cfg.nCtx ≤ sidNat sid)) →
    ∃ t, takeMove (.accept p) s = .next t ∧ sameSlots s t ∧ sameGlobals s t ∧ sameOtherPorts p s t ∧
      t.port p = { cmd := ws, dataIn := ds, resp := (s.port p).resp ++ [0x03],
                   digestOut := (s.port p).digestOut }

/-- The words of the spec's own table of legal words decode as it says. -/
def Obligations.SpecWordsDecode : Prop :=
  decodeCommand ⟨0x00000000, 0, []⟩ = .ok .hwinit ∧
  decodeCommand ⟨0x10001234, 0, []⟩ = .ok (.startsSha1 0x1234) ∧
  decodeCommand ⟨0x15000001, 0, []⟩ = .ok (.startsSha224 1) ∧
  decodeCommand ⟨0x19000001, 0, []⟩ = .ok (.startsSha384 1) ∧
  decodeCommand ⟨0x20000000, 3, [0x61, 0x62, 0x63]⟩ = .ok (.update false 0 3 [0x61, 0x62, 0x63]) ∧
  decodeCommand ⟨0x20800000, 5, []⟩ = .ok (.update true 0 5 []) ∧
  decodeCommand ⟨0x30800000, 0, []⟩ = .ok (.finish true 0)

/-- Decoding an encoded well-formed instruction gives it back, with everything behind it left on the
channels. -/
def Obligations.DecodeOfEncode : Prop :=
  ∀ (i : Instr) (ws : List CmdWord) (ds : List Byte), i.wf = true →
    decode ((encode i).words ++ ws) ((encode i).data ++ ds) = .ok (i, ws, ds)

/-- The other direction: every command that is taken off the channels and decodes is the encoding of the
instruction it decodes to, which is well-formed. -/
def Obligations.EncodeOfDecode : Prop :=
  ∀ (ws ws' : List CmdWord) (ds ds' : List Byte) (c : Command) (i : Instr),
    takeCommand ws ds = some (c, ws', ds') → decodeCommand c = .ok i →
    encode i = c ∧ i.wf = true ∧ ws = c.words ++ ws' ∧ ds = c.data ++ ds'

/-! ### The step -/

/-- A step runs the decoded instruction: when the coming step accepts at channels `p` and an instruction stands
there, it is exactly that instruction's `exec` on the state with the command taken off, and the step's draw is
consumed. -/
def Obligations.StepRunsDecodedInstruction : Prop :=
  ∀ (s : State) (p : PortId) (i : Instr) (ws : List CmdWord) (ds : List Byte),
    s.resetReq = false → s.chosen = some (.accept p) →
    decode (s.port p).cmd (s.port p).dataIn = .ok (i, ws, ds) →
    step s = mapNext State.advanceDraw (exec i (s.consume p ws ds))

/-- Every enabled move may be the next one (R70, R71): some draw makes the step take it, and the enabled moves
do not depend on the draw. -/
def Obligations.AnyEnabledMoveMayBeNext : Prop :=
  ∀ (s : State) (m : Move), m ∈ enabledMoves s →
    ∃ d : Draw, enabledMoves { s with tape := d :: s.tape.tail } = enabledMoves s ∧
      State.chosen { s with tape := d :: s.tape.tail } = some m

/-- Which moves are enabled, in a state whose stores are canonical: the `requires` lines of the micro-operations, and
for an acceptance R96: a command at the head of the channels, with `OP = HWINIT`, a reserved `OP`, or the slot its
`SID` field names at `IDLE`. That the WHOLE command must stand there, its `LEN` word and data bytes too, is the
model's inference (log entry 15, DEDUCED): R96 asks only for a command word at the head. -/
def Obligations.EnabledMovesAreTheRequires : Prop :=
  ∀ s : State, sparseWf Slot.reset s.slots = true → sparseWf Port.empty s.ports = true →
    (∀ p, .accept p ∈ enabledMoves s ↔
      ∃ c ws ds, takeCommand (s.port p).cmd (s.port p).dataIn = some (c, ws, ds) ∧
        ((cwOp c.cw).toNat = 0 ∨ 3 < (cwOp c.cw).toNat ∨ (s.slot (cwSid c.cw).toNat).seq = .idle)) ∧
    ∀ k,
      (.absorb k ∈ enabledMoves s ↔ (s.slot k).seq = .absorb) ∧
      (.acquire k ∈ enabledMoves s ↔ (s.slot k).seq = .acq ∧ s.lock = .free) ∧
      (.timeout k ∈ enabledMoves s ↔
        (s.slot k).seq = .acq ∧ (∃ j, j ≠ k ∧ s.lock = .held j) ∧ s.cfg.lockTimeout = true) ∧
      (.feed k ∈ enabledMoves s ↔ (s.slot k).seq = .feed ∧ s.lock = .held k) ∧
      (.release k ∈ enabledMoves s ↔ (s.slot k).seq = .rel ∧ s.lock = .held k) ∧
      (.extract k ∈ enabledMoves s ↔ (s.slot k).seq = .extract)

/-- A command for a busy slot is not accepted and stays where it is, whatever the step does (R291). -/
def Obligations.BusySlotLeavesCommandWaiting : Prop :=
  ∀ (s t : State) (p : PortId) (c : Command) (ws : List CmdWord) (ds : List Byte),
    sparseWf Port.empty s.ports = true → s.resetReq = false →
    takeCommand (s.port p).cmd (s.port p).dataIn = some (c, ws, ds) →
    (cwOp c.cw = 1#4 ∨ cwOp c.cw = 2#4 ∨ cwOp c.cw = 3#4) →
    (s.slot (sidNat (cwSid c.cw))).seq ≠ .idle →
    .accept p ∉ enabledMoves s ∧
      (step s = .next t → (t.port p).cmd = (s.port p).cmd ∧ (t.port p).dataIn = (s.port p).dataIn)

/-! ### The micro-operations -/

/-- R163: `ABSORB`. With bytes pending, `k = min(BS − occ, |pend|)` of them go to the buffer at `occ`, and no
other byte of the buffer changes; with none, `UPDATE` completes with `OK` and `FINISH` goes on to `EXTRACT`. -/
def Obligations.AbsorbMovesBytes : Prop :=
  ∀ (s : State) (j : Nat) (c : Ctx), (s.slot j).seq = .absorb → (s.slot j).ctx = some c →
    ((s.slot j).pend ≠ [] → c.occ < c.bs → c.bs ≤ c.buffer.length →
      ∃ t c' k, takeMove (.absorb j) s = .next t ∧ k = min (c.bs - c.occ) (s.slot j).pend.length ∧
        1 ≤ k ∧ k ≤ c.bs ∧ c.occ + k ≤ c.bs ∧ (t.slot j).ctx = some c' ∧
        (∀ a, a < k → c'.buffer[c.occ + a]? = (s.slot j).pend[a]?) ∧
        (∀ a, a < c.occ ∨ c.occ + k ≤ a → c'.buffer[a]? = c.buffer[a]?) ∧
        c'.occ = c.occ + k ∧ c'.mode = c.mode ∧ c'.total = c.total ∧ c'.state = c.state ∧
        c'.firstBlock = c.firstBlock ∧ c'.lifecycle = c.lifecycle ∧
        (t.slot j).pend = (s.slot j).pend.drop k ∧
        (t.slot j).seq = (if c.occ + k = c.bs then .acq else .absorb) ∧
        (t.slot j).op = (s.slot j).op ∧ (t.slot j).err = (s.slot j).err ∧
        sameOtherSlots j s t ∧ samePorts s t ∧ sameGlobals s t) ∧
    ((s.slot j).pend = [] → (s.slot j).op = some .update →
      ∃ t, takeMove (.absorb j) s = .next t ∧ t.slot j = { s.slot j with seq := .idle } ∧
        answered (.slot j) 0x00 s t ∧ sameOtherSlots j s t ∧ sameGlobals s t) ∧
    ((s.slot j).pend = [] → (s.slot j).op = some .finish →
      ∃ t, takeMove (.absorb j) s = .next t ∧ t.slot j = { s.slot j with seq := .extract } ∧
        samePorts s t ∧ sameOtherSlots j s t ∧ sameGlobals s t)

/-- R121: `ACQUIRE`, enabled only when the lock is free. -/
def Obligations.AcquireTakesTheLock : Prop :=
  ∀ (s : State) (k : Nat),
    ((s.slot k).seq = .acq → s.lock = .free →
      ∃ t, takeMove (.acquire k) s = .next t ∧ t.lock = .held k ∧
        t.slot k = { s.slot k with seq := .feed } ∧ sameOtherSlots k s t ∧ samePorts s t ∧
        sameGlobals { s with lock := .held k } t) ∧
    ∀ j, s.lock = .held j → .acquire k ∉ enabledMoves s

/-- R122: the lock wait gives up only with `LOCK_TIMEOUT = some`, only at `ACQ`, only while another slot holds
the lock, with `HardwareBusy`, and leaves the lock alone. -/
def Obligations.LockWaitGivesUp : Prop :=
  ∀ (s : State) (k : Nat),
    (s.cfg.lockTimeout = false → .timeout k ∉ enabledMoves s) ∧
    (∀ t, takeMove (.timeout k) s = .next t → (s.slot k).seq = .acq ∧ ∃ j, j ≠ k ∧ s.lock = .held j) ∧
    (∀ j, s.cfg.lockTimeout = true → (s.slot k).seq = .acq → j ≠ k → s.lock = .held j →
      ∃ t, takeMove (.timeout k) s = .next t ∧ raisedAt k 0x02 false s t)

/-- R123 and R125: `FEED_BLOCK`. Without an engine error the saved state is `Compress` of `IV(mode)` (first block) or
of the saved state, and the engine holds the same words and the mode; with one, `err` is recorded, the context stays
for the moment and the engine is `⊥`. R123 marks the `Compress` form as derived from R211 to R213, R23 what the engine
holds as derived from R123; the engine errors are draws of the run (log entry 5). -/
def Obligations.FeedBlockChainsTheState : Prop :=
  ∀ (s : State) (k : Nat) (c : Ctx), (s.slot k).seq = .feed → s.lock = .held k → (s.slot k).ctx = some c →
    (c.firstBlock = false → stateWords (famOf c.mode) ≤ c.state.length) →
    (¬(s.cfg.hwCanFail = true ∧ (s.draw.opError = true ∨ s.draw.readError = true)) →
      ∃ t c', takeMove (.feed k) s = .next t ∧ (t.slot k).ctx = some c' ∧
        c'.state.take (stateWords (famOf c.mode)) =
          engineCompress s.cfg (famOf c.mode)
            (if c.firstBlock then engineIV s.cfg c.mode else c.state.take (stateWords (famOf c.mode)))
            (c.buffer.take c.bs) ∧
        c'.firstBlock = false ∧ c'.occ = 0 ∧ c'.mode = c.mode ∧ c'.total = c.total ∧
        c'.buffer = c.buffer ∧ c'.lifecycle = c.lifecycle ∧
        t.eng.h.take (stateWords (famOf c.mode)) = c'.state.take (stateWords (famOf c.mode)) ∧
        t.eng.mode = some c.mode ∧ (t.slot k).seq = .rel ∧ (t.slot k).err = (s.slot k).err ∧
        (t.slot k).op = (s.slot k).op ∧ (t.slot k).pend = (s.slot k).pend ∧
        sameOtherSlots k s t ∧ samePorts s t ∧ sameGlobals { s with eng := t.eng } t) ∧
    (s.cfg.hwCanFail = true → s.draw.opError = true ∨ s.draw.readError = true →
      ∃ t, takeMove (.feed k) s = .next t ∧
        t.slot k = { s.slot k with err := .hardwareError, seq := .rel } ∧ t.eng = Engine.bottom ∧
        sameOtherSlots k s t ∧ samePorts s t ∧ sameGlobals { s with eng := Engine.bottom } t)

/-- R124: `RELEASE` frees the lock on every path, before an error is reported. -/
def Obligations.ReleaseFreesTheLock : Prop :=
  ∀ (s : State) (k : Nat), (s.slot k).seq = .rel → s.lock = .held k →
    ((s.slot k).err = .none →
      ∃ t, takeMove (.release k) s = .next t ∧ t.lock = .free ∧
        t.slot k = { s.slot k with seq := .absorb } ∧ sameOtherSlots k s t ∧ samePorts s t ∧
        sameGlobals { s with lock := .free } t) ∧
    ((s.slot k).err = .hardwareError →
      ∃ t, takeMove (.release k) s = .next t ∧ t.lock = .free ∧
        raisedAt k 0x05 false { s with lock := .free } t)

/-- R200: `EXTRACT`. Byte `b` of word `w` of the digest is byte `b`, most significant first, of `state[w]`;
the digest has `DB` bytes and goes out with `OK`; the context is `Terminal`, its other fields as they were (R201,
the spec's decision D6). -/
def Obligations.ExtractEmitsTheDigest : Prop :=
  ∀ (s : State) (k : Nat) (c : Ctx), (s.slot k).seq = .extract → (s.slot k).ctx = some c →
    digestWords c.mode ≤ c.state.length →
    ∃ t d, takeMove (.extract k) s = .next t ∧ d.length = digestBytes c.mode ∧
      (∀ w b : Nat, w < digestWords c.mode → b < wordBytes (famOf c.mode) →
        d[w * wordBytes (famOf c.mode) + b]? =
          (c.state[w]?).map fun x =>
            BitVec.ofNat 8 (x.toNat / 2 ^ (8 * (wordBytes (famOf c.mode) - 1 - b)))) ∧
      t.port (.slot k) = { s.port (.slot k) with
        digestOut := (s.port (.slot k)).digestOut ++ d
        resp := (s.port (.slot k)).resp ++ [0x00] } ∧
      t.slot k = { s.slot k with ctx := some { c with lifecycle := .terminal }, seq := .idle } ∧
      sameOtherSlots k s t ∧ sameOtherPorts (.slot k) s t ∧ sameGlobals s t

/-- R211 to R213: what the three primitives compute when they return `ok`; none of them depends on the old
`eng.H` or `eng.mode`, but for the read. -/
def Obligations.EnginePrimitives : Prop :=
  ∀ (cfg : Config) (m : Mode) (saved : List Word) (blk : List Byte) (e : Engine),
    ((hwStart cfg false m blk e).2 = true ∧ (hwStart cfg false m blk e).1.mode = some m ∧
      (hwStart cfg false m blk e).1.h.take (stateWords (famOf m)) =
        engineCompress cfg (famOf m) (engineIV cfg m) blk) ∧
    (saved.length = stateWords (famOf m) →
      (hwContinue cfg false m saved blk e).2 = true ∧
      (hwContinue cfg false m saved blk e).1.mode = some m ∧
      (hwContinue cfg false m saved blk e).1.h.take (stateWords (famOf m)) =
        engineCompress cfg (famOf m) saved blk) ∧
    (e.mode = some m → hwRead false e = (e, some (e.h.take (stateWords (famOf m)))))

/-- R250 and R252: the error protocol, for every error a command on a slot can raise. -/
def Obligations.ErrorProtocol : Prop :=
  ∀ (s : State) (k : Nat),
    raisedAt k 0x01 false s (s.raise k .hardwareUnavailable) ∧
    raisedAt k 0x02 false s (s.raise k .hardwareBusy) ∧
    raisedAt k 0x03 false s (s.raise k .invalidArgument) ∧
    raisedAt k 0x04 true s (s.raise k .invalidState) ∧
    raisedAt k 0x05 false s (s.raise k .hardwareError)

/-! ### Arithmetic, padding, byte order -/

/-- R171 and R172: the counter add, word by word with its carry, is addition modulo `2^(2W)` (the whole add is what
R171 marks as derived; R161 and R172 use it). -/
def Obligations.CounterAddCarries : Prop :=
  ∀ (f : Family) (t : Counter) (len : BitVec 32),
    totalLo f (counterAdd f t len) = (totalLo f t + len.toNat) % 2 ^ wordBits f ∧
    totalHi f (counterAdd f t len) =
      (totalHi f t + if totalLo f (counterAdd f t len) < len.toNat then 1 else 0) % 2 ^ wordBits f ∧
    (totalLo f (counterAdd f t len) < len.toNat ↔ 2 ^ wordBits f ≤ totalLo f t + len.toNat) ∧
    (counterAdd f t len).toNat = (t.toNat + len.toNat) % 2 ^ (2 * wordBits f)

/-- R182: the zero-pad count is the least one that leaves room for the length field at the end of a block. -/
def Obligations.PaddingIsLeast : Prop :=
  ∀ (f : Family) (n : Nat), n < blockSize f →
    (n + 1 + padZeros f n) % blockSize f = blockSize f - lenFieldSize f ∧
    (∀ z, (n + 1 + z) % blockSize f = blockSize f - lenFieldSize f → padZeros f n ≤ z) ∧
    (n + 1 ≤ blockSize f - lenFieldSize f → padZeros f n = blockSize f - lenFieldSize f - 1 - n) ∧
    (blockSize f - lenFieldSize f < n + 1 → padZeros f n = 2 * blockSize f - lenFieldSize f - 1 - n)

/-- R184: the tail: `0x80`, the zeros, the length field; it ends the current block or the next. -/
def Obligations.TailEndsABlock : Prop :=
  ∀ (f : Family) (n : Nat) (total : Counter), n < blockSize f →
    tailBytes f n total =
      [0x80] ++ List.replicate (padZeros f n) 0 ++ beBytes (lenFieldSize f) (bitLength f total) ∧
    (tailBytes f n total).length = 1 + padZeros f n + lenFieldSize f ∧
    (n + 1 ≤ blockSize f - lenFieldSize f → n + (tailBytes f n total).length = blockSize f) ∧
    (blockSize f - lenFieldSize f < n + 1 → n + (tailBytes f n total).length = 2 * blockSize f)

/-- R183: the bit-length is eight times the counter modulo `2^(2W)`, and its two words are the shifted words of
the counter. -/
def Obligations.BitLengthInWords : Prop :=
  ∀ (f : Family) (t : Counter), t.toNat < 2 ^ (2 * wordBits f) →
    bitLength f t = (t.toNat <<< 3) % 2 ^ (2 * wordBits f) ∧
    bitLength f t =
      ((totalHi f t <<< 3 ||| totalLo f t >>> (wordBits f - 3)) % 2 ^ wordBits f) * 2 ^ wordBits f +
        (totalLo f t <<< 3) % 2 ^ wordBits f

/-- R60: the length field stands at the end of the tail, most significant byte first, and spells the
bit-length. -/
def Obligations.LengthFieldIsBigEndian : Prop :=
  ∀ (f : Family) (n : Nat) (total : Counter),
    (∀ i, i < lenFieldSize f →
      (tailBytes f n total)[1 + padZeros f n + i]? =
        some (BitVec.ofNat 8 (bitLength f total / 2 ^ (8 * (lenFieldSize f - 1 - i))))) ∧
    beValue ((tailBytes f n total).drop (1 + padZeros f n)) = bitLength f total

/-! ### Whole-machine rules -/

/-- The invariant of R37 and R301 holds after reset, for every admissible `N_CTX`, and at `State.reset`. -/
def Obligations.ResetMeetsTheInvariant : Prop :=
  (∀ c : Config, c.wf = true → Inv (State.resetOf c)) ∧ Inv State.reset

/-- Every step keeps the invariant, from every state that meets it, under every schedule and every draw. -/
def Obligations.StepKeepsTheInvariant : Prop :=
  ∀ s t : State, Inv s → step s = .next t → Inv t

/-- The block never stops with a fault, in any state whose stores are canonical (R244: it keeps accepting
commands). -/
def Obligations.StepNeverFaults : Prop :=
  ∀ (s : State) (r : Fault), sparseWf Slot.reset s.slots = true → sparseWf Port.empty s.ports = true →
    step s ≠ .fault r

/-- A step is refused only for a second bring-up (U2) or for an `UPDATE` or `FINISH` on a context that is `⊥`
(U1); no unwritten state word is ever read (R186). -/
def Obligations.StepRefusesOnlyTheUnspecified : Prop :=
  ∀ (s : State) (r : Refusal), Inv s → step s = .refused r →
    (r = .secondBringUp ∧ s.hwReady = true ∧ s.accepting = some .hwinit) ∨
    (∃ i sid, s.accepting = some i ∧ instrSid i = some sid ∧ startsMode i = none ∧
      r = .contextUnspecified (sidNat sid) ∧ s.hwReady = true ∧ (s.slot (sidNat sid)).ctx = none)

/-- The engine registers change only in a `FEED_BLOCK` of the slot that holds the lock, and what they hold after
a successful one is saved to that slot's context in the same step (R73, R301(a), (b)). -/
def Obligations.EngineChangesOnlyUnderTheLock : Prop :=
  ∀ s t : State, s.resetReq = false → step s = .next t → t.eng ≠ s.eng →
    ∃ k, s.chosen = some (.feed k) ∧ s.lock = .held k ∧
      (t.eng = Engine.bottom ∨
        ∃ c, (t.slot k).ctx = some c ∧ t.eng.mode = some c.mode ∧
          c.state.take (stateWords (famOf c.mode)) = t.eng.h.take (stateWords (famOf c.mode)))

/-- `lock` is written only by `ACQUIRE` and `RELEASE` (R21). -/
def Obligations.LockChangesOnlyByArbiter : Prop :=
  ∀ s t : State, s.resetReq = false → step s = .next t → t.lock ≠ s.lock →
    ∃ k, (s.chosen = some (.acquire k) ∧ s.lock = .free ∧ t.lock = .held k) ∨
      (s.chosen = some (.release k) ∧ s.lock = .held k ∧ t.lock = .free)

/-- `hw_ready` is written only by `HWINIT`, and nothing short of reset clears it (R20, R281); the implementation
parameters never change. -/
def Obligations.HwReadyChangesOnlyByHwinit : Prop :=
  ∀ s t : State, s.resetReq = false → step s = .next t →
    t.cfg = s.cfg ∧ (t.hwReady ≠ s.hwReady → t.hwReady = true ∧ s.accepting = some .hwinit)

/-- A slot's record changes only when the step accepts a command naming the slot or moves the slot's own
sequencer (R63). -/
def Obligations.SlotsArePrivate : Prop :=
  ∀ (s t : State) (k : Nat), s.resetReq = false → step s = .next t → t.slot k ≠ s.slot k →
    s.acceptsFor k ∨ ∃ m, s.chosen = some m ∧ m.slot? = some k

/-- What a block operation leaves in a slot depends on nothing but that slot's record, the implementation and the
run's engine errors: not on the engine's old registers nor on any other slot (R23, R126). -/
def Obligations.FeedIgnoresOtherSessions : Prop :=
  ∀ (s s' t t' : State) (k : Nat), s.cfg = s'.cfg → s.slot k = s'.slot k →
    s.draw.opError = s'.draw.opError → s.draw.readError = s'.draw.readError →
    takeMove (.feed k) s = .next t → takeMove (.feed k) s' = .next t' → t.slot k = t'.slot k

/-- `state[]` is not read while `first_block = 1`: two contexts that differ only in it get the same state words
from their first block (R32, R301(f)). -/
def Obligations.FirstBlockIgnoresStateWords : Prop :=
  ∀ (s t t' : State) (k : Nat) (c : Ctx) (words : List Word),
    (s.slot k).ctx = some c → c.firstBlock = true → takeMove (.feed k) s = .next t →
    takeMove (.feed k) (s.setCtx k { c with state := words }) = .next t' →
    t.eng.mode ≠ none →
    ∃ d d', (t.slot k).ctx = some d ∧ (t'.slot k).ctx = some d' ∧
      d.state.take (stateWords (famOf c.mode)) = d'.state.take (stateWords (famOf c.mode)) ∧
      { d with state := d'.state } = d'

/-- `mode` is written only by `STARTS` (R35). -/
def Obligations.ModeChangesOnlyByStarts : Prop :=
  ∀ (s t : State) (k : Nat) (c c' : Ctx), s.resetReq = false → step s = .next t →
    (s.slot k).ctx = some c → (t.slot k).ctx = some c' → c'.mode ≠ c.mode →
    s.restarting k = some c'.mode

/-- A step puts out at most one status code, on one response channel, and each of R100's six codes only from its
own cause (R240 to R248, R140, R142, R162, R200). Which channels answer an illegal word is the model's choice (log
entry 9). -/
def Obligations.StatusCodesHaveTheirCause : Prop :=
  ∀ s t : State, Inv s → s.resetReq = false → step s = .next t →
    (∀ p, (t.port p).resp = (s.port p).resp ∨
      ∃ code : BitVec 8, (t.port p).resp = (s.port p).resp ++ [code] ∧ answerCause s p code) ∧
    ∀ p q, (t.port p).resp ≠ (s.port p).resp → (t.port q).resp ≠ (s.port q).resp → p = q

/-- R101: digest bytes come only from the completion of a `FINISH` with `OK`, exactly `DB` of them, and every
such completion puts them out. -/
def Obligations.DigestOnlyWithOk : Prop :=
  ∀ s t : State, s.resetReq = false → step s = .next t →
    (∀ p, (t.port p).digestOut ≠ (s.port p).digestOut → ∃ k, p = .slot k ∧ s.chosen = some (.extract k)) ∧
    (∀ k, s.chosen = some (.extract k) →
      ∃ c d, (s.slot k).ctx = some c ∧ d.length = digestBytes c.mode ∧
        (t.port (.slot k)).digestOut = (s.port (.slot k)).digestOut ++ d ∧
        (t.port (.slot k)).resp = (s.port (.slot k)).resp ++ [0x00])

/-- No deadlock (R303): while a command is in flight some sequencer has an enabled move. -/
def Obligations.BusyBlockCanMove : Prop :=
  ∀ (s : State) (k : Nat), Inv s → (s.slot k).seq ≠ .idle →
    ∃ m j, m ∈ enabledMoves s ∧ m.slot? = some j

/-- The hash of a session, under every interleaving (R74, R126, R202): a slot that is hashing `msg` is, after any
step of any slot, hashing `msg` and the bytes of the `UPDATE` accepted for it, or has put out the Merkle–Damgård
digest of `msg` with `OK`, or has lost its context to an error of its own; a `STARTS` begins a new message. -/
def Obligations.SessionHashesItsMessage : Prop :=
  ∀ (s t : State) (k : Nat) (m : Mode) (msg : List Byte),
    Inv s → s.resetReq = false → Hashing s k m msg → step s = .next t →
    (∀ m', s.restarting k = some m' → Hashing t k m' []) ∧
    (s.restarting k = none →
      (Hashing t k m (msg ++ s.absorbing k) ∧
        (t.port (.slot k)).digestOut = (s.port (.slot k)).digestOut) ∨
      (s.chosen = some (.extract k) ∧
        (∃ c, (t.slot k).ctx = some c ∧ c.lifecycle = .terminal) ∧
        (t.port (.slot k)).digestOut = (s.port (.slot k)).digestOut ++ mdDigest s.cfg m msg ∧
        (t.port (.slot k)).resp = (s.port (.slot k)).resp ++ [0x00]) ∨
      ((t.slot k).ctx = none ∧ (t.port (.slot k)).digestOut = (s.port (.slot k)).digestOut ∧
        ∃ code : BitVec 8, code ≠ 0x00 ∧
          (t.port (.slot k)).resp = (s.port (.slot k)).resp ++ [code]))

/-- An `UPDATE` that runs alone on an engine that does not fail completes with `OK` after finitely many steps, and
leaves the context the sequential procedure of R166 leaves. The host adds nothing during the run (log entry 14), and
every primitive returns (log entry 23). -/
def Obligations.UpdateAloneRunsToOk : Prop :=
  ∀ (s : State) (k : Nat) (c : Ctx), Inv s → RunsAlone s k → s.cfg.hwCanFail = false →
    (s.slot k).seq = .absorb → (s.slot k).op = some .update → (s.slot k).ctx = some c →
    ∃ n t, Host.Core.run Sys2Proof.core n s = .next t ∧
      t.slot k = { s.slot k with ctx := some (absorbAll s.cfg c (s.slot k).pend), pend := [], seq := .idle } ∧
      t.lock = .free ∧ sameOtherSlots k s t ∧ answered (.slot k) 0x00 s t

/-- A `FINISH` that runs alone on an engine that does not fail puts out the digest of the state the sequential
procedure of R202 ends in, completes with `OK` after finitely many steps and leaves the context terminal. The host
adds nothing during the run (log entry 14), and every primitive returns (log entry 23). -/
def Obligations.FinishAloneRunsToTheDigest : Prop :=
  ∀ (s : State) (k : Nat) (c : Ctx), Inv s → RunsAlone s k → s.cfg.hwCanFail = false →
    (s.slot k).seq = .absorb → (s.slot k).op = some .finish → (s.slot k).ctx = some c →
    ∃ n t, Host.Core.run Sys2Proof.core n s = .next t ∧
      t.slot k =
        { s.slot k with
          ctx := some { absorbAll s.cfg c (s.slot k).pend with lifecycle := .terminal }
          pend := []
          seq := .idle } ∧
      t.lock = .free ∧ sameOtherSlots k s t ∧ sameOtherPorts (.slot k) s t ∧
      t.port (.slot k) = { s.port (.slot k) with
        digestOut := (s.port (.slot k)).digestOut ++
          digestOf c.mode (absorbAll s.cfg c (s.slot k).pend).state
        resp := (s.port (.slot k)).resp ++ [0x00] }

/-- R166: the sequential procedure ends with `(occ + LEN) mod BS` bytes in the buffer, keeps mode, counter and
lifecycle, and has cleared `first_block` exactly when it has fed a block. -/
def Obligations.SequentialProcedureOccupancy : Prop :=
  ∀ (cfg : Config) (c : Ctx) (bs : List Byte), c.occ < c.bs →
    (absorbAll cfg c bs).occ = (c.occ + bs.length) % c.bs ∧
    (absorbAll cfg c bs).mode = c.mode ∧ (absorbAll cfg c bs).total = c.total ∧
    (absorbAll cfg c bs).lifecycle = c.lifecycle ∧
    ((absorbAll cfg c bs).firstBlock = true ↔ c.firstBlock = true ∧ (c.occ + bs.length) / c.bs = 0)
end

