-- ==== Sys2Proof/Laws/Bytes.lean ====
section
/-! SUPPORT. Laws of byte strings and word lists: lengths of the big-endian spellings, the buffer written in a
run, the words of a save, and the block sizes. -/

namespace Sys2Proof.Machine

@[simp] theorem length_beBytes (n v : Nat) : (beBytes n v).length = n := by simp [beBytes]

@[simp] theorem length_zeroBytes (n : Nat) : (zeroBytes n).length = n := by simp [zeroBytes]

/-- Byte `i` of a big-endian spelling (R10). -/
theorem getElem?_beBytes {n v i : Nat} (h : i < n) :
    (beBytes n v)[i]? = some (BitVec.ofNat 8 (v / 2 ^ (8 * (n - 1 - i)))) := by
  rw [beBytes, List.getElem?_map, List.getElem?_range h]
  rfl

/-- A run that fits keeps the length of the buffer (R33). -/
theorem length_writeRun {buf bs : List Byte} {i : Nat} (h : i + bs.length ≤ buf.length) :
    (writeRun buf i bs).length = buf.length := by
  simp only [writeRun, List.length_append, List.length_take, List.length_drop]
  omega

/-- Inside the run stand the bytes written (R163). -/
theorem getElem?_writeRun_in {buf bs : List Byte} {i a : Nat} (h : i + bs.length ≤ buf.length)
    (ha : a < bs.length) : (writeRun buf i bs)[i + a]? = bs[a]? := by
  have hl : (buf.take i).length = i := by simp; omega
  rw [writeRun, List.append_assoc, List.getElem?_append_right (by omega), hl, Nat.add_sub_cancel_left,
    List.getElem?_append_left ha]

/-- Outside the run nothing changes (R163). -/
theorem getElem?_writeRun_out {buf bs : List Byte} {i a : Nat} (h : i + bs.length ≤ buf.length)
    (ha : a < i ∨ i + bs.length ≤ a) : (writeRun buf i bs)[a]? = buf[a]? := by
  have hl : (buf.take i).length = i := by simp; omega
  rw [writeRun, List.append_assoc]
  rcases ha with ha | ha
  · rw [List.getElem?_append_left (by omega), List.getElem?_take_of_lt ha]
  · rw [List.getElem?_append_right (by omega), List.getElem?_append_right (by omega), hl,
      List.getElem?_drop]
    congr 1
    omega

theorem length_overwriteWords (new old : List Word) :
    (overwriteWords new old).length = max new.length old.length := by
  simp only [overwriteWords, List.length_append, List.length_drop]
  omega

/-- The words just written are the first ones (R123). -/
theorem take_overwriteWords {new : List Word} {n : Nat} (old : List Word) (h : new.length = n) :
    (overwriteWords new old).take n = new := by
  subst h
  simp [overwriteWords]

/-- Writing at least as many words as there were leaves just those. -/
theorem overwriteWords_of_length_le {new old : List Word} (h : old.length ≤ new.length) :
    overwriteWords new old = new := by
  rw [overwriteWords, List.drop_eq_nil_of_le h, List.append_nil]

/-- The two block sizes (R7). -/
theorem Ctx.bs_cases (c : Ctx) : c.bs = 64 ∨ c.bs = 128 := by
  unfold Ctx.bs
  cases c.mode <;> decide

theorem Ctx.bs_pos (c : Ctx) : 0 < c.bs := by
  rcases c.bs_cases with h | h <;> omega

/-- The digest is cut from words the state has (R8). -/
theorem digestWords_le_stateWords (m : Mode) : digestWords m ≤ stateWords (famOf m) := by
  cases m <;> decide

end Sys2Proof.Machine
end

