-- ==== Sys2Proof/Laws/PerInstr.lean ====
section
/-! SUPPORT. Per-instruction families (LAWS.json). `Framed`: the words and bytes of a well-formed
instruction, put before anything else on the channels, are taken off as exactly that command (R94). -/

namespace Sys2Proof.Laws

/-- An encoded instruction is framed as itself: its words and bytes come off whole, the rest stays. -/
def Framed.Statement (i : Instr) : Prop :=
  i.wf = true → ∀ ws ds,
    takeCommand ((encode i).words ++ ws) ((encode i).data ++ ds) = some (encode i, ws, ds)

/-- The value of a made command word. -/
theorem toNat_mkCw (op : BitVec 4) (fam : BitVec 2) (var nullbuf : BitVec 1) (sid : BitVec 16) :
    (mkCw op fam var nullbuf sid).toNat =
      op.toNat * 2 ^ 28 + fam.toNat * 2 ^ 26 + var.toNat * 2 ^ 24 + nullbuf.toNat * 2 ^ 23 + sid.toNat := by
  have h := op.isLt; have h1 := fam.isLt; have h2 := var.isLt; have h3 := nullbuf.isLt; have h4 := sid.isLt
  simp only [mkCw, BitVec.toNat_ofNat]
  omega

/-- The `OP` field of a made command word. -/
theorem cwOp_mkCw (op : BitVec 4) (fam : BitVec 2) (var nullbuf : BitVec 1) (sid : BitVec 16) :
    cwOp (mkCw op fam var nullbuf sid) = op := by
  have h := op.isLt; have h1 := fam.isLt; have h2 := var.isLt; have h3 := nullbuf.isLt; have h4 := sid.isLt
  apply BitVec.eq_of_toNat_eq
  rw [cwOp, BitVec.extractLsb'_toNat, toNat_mkCw, Nat.shiftRight_eq_div_pow]
  omega

/-- The `NULLBUF` field of a made command word. -/
theorem cwNullbuf_mkCw (op : BitVec 4) (fam : BitVec 2) (var nullbuf : BitVec 1) (sid : BitVec 16) :
    cwNullbuf (mkCw op fam var nullbuf sid) = nullbuf := by
  have h := op.isLt; have h1 := fam.isLt; have h2 := var.isLt; have h3 := nullbuf.isLt; have h4 := sid.isLt
  apply BitVec.eq_of_toNat_eq
  rw [cwNullbuf, BitVec.extractLsb'_toNat, toNat_mkCw, Nat.shiftRight_eq_div_pow]
  omega

/-- A command without a `LEN` word is framed as itself. -/
theorem takeCommand_of_no_len {cw : CmdWord} (h : hasLen cw = false) (ws : List CmdWord) (ds : List Byte) :
    takeCommand ((Command.mk cw 0 []).words ++ ws) ((Command.mk cw 0 []).data ++ ds) =
      some (⟨cw, 0, []⟩, ws, ds) := by
  simp [Command.words, h, takeCommand]

/-- A command with a `LEN` word and its bytes is framed as itself. -/
theorem takeCommand_of_len {cw : CmdWord} {len : BitVec 32} {data : List Byte} (h : hasLen cw = true)
    (hd : dataCount cw len = data.length) (ws : List CmdWord) (ds : List Byte) :
    takeCommand ((Command.mk cw len data).words ++ ws) ((Command.mk cw len data).data ++ ds) =
      some (⟨cw, len, data⟩, ws, ds) := by
  simp [Command.words, h, takeCommand, hd]

theorem Framed.hwinit : Framed.Statement .hwinit := fun _ ws ds =>
  takeCommand_of_no_len (by simp [hasLen, cwOp_mkCw]) ws ds

theorem Framed.startsSha1 (sid : BitVec 16) : Framed.Statement (.startsSha1 sid) := fun _ ws ds =>
  takeCommand_of_no_len (by simp [hasLen, cwOp_mkCw]) ws ds

theorem Framed.startsSha256 (sid : BitVec 16) : Framed.Statement (.startsSha256 sid) := fun _ ws ds =>
  takeCommand_of_no_len (by simp [hasLen, cwOp_mkCw]) ws ds

theorem Framed.startsSha224 (sid : BitVec 16) : Framed.Statement (.startsSha224 sid) := fun _ ws ds =>
  takeCommand_of_no_len (by simp [hasLen, cwOp_mkCw]) ws ds

theorem Framed.startsSha512 (sid : BitVec 16) : Framed.Statement (.startsSha512 sid) := fun _ ws ds =>
  takeCommand_of_no_len (by simp [hasLen, cwOp_mkCw]) ws ds

theorem Framed.startsSha384 (sid : BitVec 16) : Framed.Statement (.startsSha384 sid) := fun _ ws ds =>
  takeCommand_of_no_len (by simp [hasLen, cwOp_mkCw]) ws ds

theorem Framed.finish (nullbuf : Bool) (sid : BitVec 16) : Framed.Statement (.finish nullbuf sid) :=
  fun _ ws ds => takeCommand_of_no_len (by simp [hasLen, cwOp_mkCw]) ws ds

theorem Framed.update (nullbuf : Bool) (sid : BitVec 16) (len : BitVec 32) (data : List Byte) :
    Framed.Statement (.update nullbuf sid len data) := by
  intro h ws ds
  simp only [Instr.wf, beq_iff_eq] at h
  refine takeCommand_of_len (by simp [hasLen, cwOp_mkCw]) ?_ ws ds
  rw [h, dataCount, hasLen, cwOp_mkCw, cwNullbuf_mkCw]
  cases nullbuf <;> simp [nullbufBit]

end Sys2Proof.Laws
end

