-- ==== Sys2Proof/Laws/Decode.lean ====
section
/-! SUPPORT. The fields of a made command word, and the
fields and the rows of the opcode table bit by bit. -/

namespace Sys2Proof.Laws

variable (op : BitVec 4) (fam : BitVec 2) (var nullbuf : BitVec 1) (sid : BitVec 16)

/-- The `FAM` field of a made command word. -/
theorem cwFam_mkCw : cwFam (mkCw op fam var nullbuf sid) = fam := by
  have h := op.isLt; have h1 := fam.isLt; have h2 := var.isLt; have h3 := nullbuf.isLt; have h4 := sid.isLt
  apply BitVec.eq_of_toNat_eq
  rw [cwFam, BitVec.extractLsb'_toNat, toNat_mkCw, Nat.shiftRight_eq_div_pow]
  omega

/-- Bit 25 of a made command word. -/
theorem cwRsv25_mkCw : cwRsv25 (mkCw op fam var nullbuf sid) = 0#1 := by
  have h := op.isLt; have h1 := fam.isLt; have h2 := var.isLt; have h3 := nullbuf.isLt; have h4 := sid.isLt
  apply BitVec.eq_of_toNat_eq
  rw [cwRsv25, BitVec.extractLsb'_toNat, toNat_mkCw, Nat.shiftRight_eq_div_pow]
  simp only [BitVec.toNat_ofNat]
  omega

/-- The `VAR` field of a made command word. -/
theorem cwVar_mkCw : cwVar (mkCw op fam var nullbuf sid) = var := by
  have h := op.isLt; have h1 := fam.isLt; have h2 := var.isLt; have h3 := nullbuf.isLt; have h4 := sid.isLt
  apply BitVec.eq_of_toNat_eq
  rw [cwVar, BitVec.extractLsb'_toNat, toNat_mkCw, Nat.shiftRight_eq_div_pow]
  omega

/-- Bits 22 to 16 of a made command word. -/
theorem cwRsv22_mkCw : cwRsv22 (mkCw op fam var nullbuf sid) = 0#7 := by
  have h := op.isLt; have h1 := fam.isLt; have h2 := var.isLt; have h3 := nullbuf.isLt; have h4 := sid.isLt
  apply BitVec.eq_of_toNat_eq
  rw [cwRsv22, BitVec.extractLsb'_toNat, toNat_mkCw, Nat.shiftRight_eq_div_pow]
  simp only [BitVec.toNat_ofNat]
  omega

/-- The `SID` field of a made command word. -/
theorem cwSid_mkCw : cwSid (mkCw op fam var nullbuf sid) = sid := by
  have h := op.isLt; have h1 := fam.isLt; have h2 := var.isLt; have h3 := nullbuf.isLt; have h4 := sid.isLt
  apply BitVec.eq_of_toNat_eq
  rw [cwSid, BitVec.extractLsb'_toNat, toNat_mkCw, Nat.shiftRight_eq_div_pow]
  omega

/-- A command word is the sum of its fields. -/
theorem toNat_cw (cw : CmdWord) :
    cw.toNat = (cwOp cw).toNat * 2 ^ 28 + (cwFam cw).toNat * 2 ^ 26 + (cwRsv25 cw).toNat * 2 ^ 25 +
      (cwVar cw).toNat * 2 ^ 24 + (cwNullbuf cw).toNat * 2 ^ 23 + (cwRsv22 cw).toNat * 2 ^ 16 +
      (cwSid cw).toNat := by
  have h := cw.isLt
  simp only [cwOp, cwFam, cwRsv25, cwVar, cwNullbuf, cwRsv22, cwSid, BitVec.extractLsb'_toNat,
    Nat.shiftRight_eq_div_pow]
  omega

/-- A command word whose reserved bits are 0 is made of its fields. -/
theorem mkCw_fields {cw : CmdWord} (h : cwRsv25 cw = 0#1) (h' : cwRsv22 cw = 0#7) :
    mkCw (cwOp cw) (cwFam cw) (cwVar cw) (cwNullbuf cw) (cwSid cw) = cw := by
  apply BitVec.eq_of_toNat_eq
  rw [toNat_mkCw, toNat_cw cw, h, h']
  simp

/-- Fitting a row of the opcode table, bit by bit. -/
theorem fits_iff (r : Machine.OpcodeRow) (w : CmdWord) :
    r.fits w = true ↔ ∀ i, i < 32 → (w.getLsbD i && r.mask.getLsbD i) = r.pattern.getLsbD i := by
  simp only [Machine.OpcodeRow.fits, beq_iff_eq]
  constructor
  · intro h i _
    rw [← h, BitVec.getLsbD_and]
  · intro h
    exact BitVec.eq_of_getLsbD_eq fun i hi => by rw [BitVec.getLsbD_and, h i hi]

/-- The value of a field of a command word, bit by bit. -/
theorem extract_eq_iff (w : CmdWord) (a n : Nat) (v : BitVec n) :
    w.extractLsb' a n = v ↔ ∀ i, i < n → w.getLsbD (a + i) = v.getLsbD i := by
  constructor
  · rintro rfl i hi
    simp [hi]
  · intro h
    exact BitVec.eq_of_getLsbD_eq fun i hi => by simp [hi, h]

end Sys2Proof.Laws
end

