-- ==== Sys2Proof/Laws/Engine.lean ====
section
/-! SUPPORT. What the engine's functions and the primitives of a block operation answer. -/

namespace Sys2Proof.Machine

@[simp] theorem length_normWords (f : Family) (l : List Word) : (normWords f l).length = stateWords f := by
  simp [normWords]

theorem normWords_lt {f : Family} {l : List Word} : ∀ w ∈ normWords f l, w.toNat < 2 ^ wordBits f := by
  intro w hw
  simp only [normWords, List.mem_map] at hw
  obtain ⟨x, -, rfl⟩ := hw
  rw [truncWord, BitVec.toNat_ofNat]
  exact lt_of_le_of_lt (Nat.mod_le _ _) (Nat.mod_lt _ (Nat.two_pow_pos _))

@[simp] theorem length_engineIV (cfg : Config) (m : Mode) :
    (engineIV cfg m).length = stateWords (famOf m) := length_normWords ..

@[simp] theorem length_engineCompress (cfg : Config) (f : Family) (h : List Word) (blk : List Byte) :
    (engineCompress cfg f h blk).length = stateWords f := length_normWords ..

/-- The words a block operation on context `c` starts from (R123). -/
theorem take_state_eq {c : Ctx} (h : c.state.length ≤ stateWords (famOf c.mode)) :
    c.state.take (stateWords (famOf c.mode)) = c.state := List.take_of_length_le h

/-- A block operation without an engine error: the words read are `Compress` of the initial or the saved state,
and the engine holds them too (R123, R211 to R213). -/
theorem runBlock_of_ok {cfg : Config} {d : Draw} {c : Ctx} (e : Engine)
    (h : ¬(cfg.hwCanFail = true ∧ (d.opError = true ∨ d.readError = true)))
    (hw : c.firstBlock = false → stateWords (famOf c.mode) ≤ c.state.length) :
    (runBlock cfg d c e).2 = some (engineCompress cfg (famOf c.mode)
        (if c.firstBlock then engineIV cfg c.mode else c.state.take (stateWords (famOf c.mode)))
        (c.buffer.take c.bs)) ∧
      (runBlock cfg d c e).1.mode = some c.mode ∧
      (runBlock cfg d c e).1.h.take (stateWords (famOf c.mode)) = engineCompress cfg (famOf c.mode)
        (if c.firstBlock then engineIV cfg c.mode else c.state.take (stateWords (famOf c.mode)))
        (c.buffer.take c.bs) := by
  have h1 : (cfg.hwCanFail && d.opError) = false := by cases hc : cfg.hwCanFail <;> simp_all
  have h2 : (cfg.hwCanFail && d.readError) = false := by cases hc : cfg.hwCanFail <;> simp_all
  cases hf : c.firstBlock
  · have hs : (c.state.take (stateWords (famOf c.mode))).length = stateWords (famOf c.mode) := by
      simpa using hw hf
    simp [runBlock, h1, h2, hf, hwContinue, hwRead, take_overwriteWords _ hs,
      take_overwriteWords _ (length_engineCompress ..)]
  · simp [runBlock, h1, h2, hf, hwStart, hwRead, take_overwriteWords _ (length_engineCompress ..)]

/-- A block operation in which a primitive reports an error: nothing is read and the engine is `⊥`
(R125, R214). -/
theorem runBlock_of_error {cfg : Config} {d : Draw} (c : Ctx) (e : Engine) (h : cfg.hwCanFail = true)
    (hd : d.opError = true ∨ d.readError = true) : runBlock cfg d c e = (Engine.bottom, none) := by
  cases ho : d.opError
  · have hr : d.readError = true := by simpa [ho] using hd
    cases hf : c.firstBlock <;> simp [runBlock, h, ho, hr, hf, hwStart, hwContinue, hwRead]
  · cases hf : c.firstBlock <;> simp [runBlock, h, ho, hf, hwStart, hwContinue]

end Sys2Proof.Machine
end

