-- ==== Sys2Proof/Laws/Sparse.lean ====
section
/-! SUPPORT. The laws of the canonical stores: read after write, and that a write keeps the form. -/

namespace Sys2Proof.Machine

variable {α : Type} {d : α}

@[simp] theorem sparseGet_nil (k : Nat) : sparseGet d [] k = d := rfl

/-- A key below every listed key reads as the default. -/
theorem sparseGet_eq_default_of_wfFrom [DecidableEq α] {lo k : Nat} {l : List (Nat × α)}
    (h : sparseWfFrom d lo l = true) (hk : k < lo) : sparseGet d l k = d := by
  induction l generalizing lo with
  | nil => rfl
  | cons e l ih =>
    obtain ⟨j, v⟩ := e
    simp only [sparseWfFrom, Bool.and_eq_true, decide_eq_true_eq] at h
    rw [sparseGet, if_neg (by omega)]
    exact ih h.2 (by omega)

theorem sparseGet_erase_same (l : List (Nat × α)) (k : Nat) : sparseGet d (sparseErase k l) k = d := by
  induction l with
  | nil => rfl
  | cons e l ih =>
    obtain ⟨j, v⟩ := e
    by_cases h : j = k <;> simp [sparseErase, sparseGet, h, ih]

theorem sparseGet_erase_other (l : List (Nat × α)) {k j : Nat} (h : j ≠ k) :
    sparseGet d (sparseErase k l) j = sparseGet d l j := by
  induction l with
  | nil => rfl
  | cons e l ih =>
    obtain ⟨i, v⟩ := e
    by_cases hi : i = k
    · subst hi
      simp [sparseErase, sparseGet, ih, Ne.symm h]
    · simp [sparseErase, sparseGet, ih, hi]

theorem sparseGet_insert_same (l : List (Nat × α)) (k : Nat) (v : α) :
    sparseGet d (sparseInsert k v l) k = v := by
  induction l with
  | nil => simp [sparseInsert, sparseGet]
  | cons e l ih =>
    obtain ⟨i, w⟩ := e
    by_cases hi : i < k
    · simp [sparseInsert, sparseGet, hi, ih, Nat.ne_of_lt hi]
    · simp [sparseInsert, sparseGet, hi]

theorem sparseGet_insert_other (l : List (Nat × α)) {k j : Nat} (v : α) (h : j ≠ k) :
    sparseGet d (sparseInsert k v l) j = sparseGet d l j := by
  induction l with
  | nil => simp [sparseInsert, sparseGet, Ne.symm h]
  | cons e l ih =>
    obtain ⟨i, w⟩ := e
    by_cases hi : i < k
    · simp [sparseInsert, sparseGet, hi, ih]
    · simp [sparseInsert, sparseGet, hi, Ne.symm h]

/-- Reading the key just written gives the value written. -/
@[simp] theorem sparseGet_set_same [DecidableEq α] (l : List (Nat × α)) (k : Nat) (v : α) :
    sparseGet d (sparseSet d k v l) k = v := by
  unfold sparseSet
  split
  · next h => rw [sparseGet_erase_same, h]
  · exact sparseGet_insert_same ..

/-- A write leaves every other key alone. -/
theorem sparseGet_set_other [DecidableEq α] (l : List (Nat × α)) {k j : Nat} (v : α) (h : j ≠ k) :
    sparseGet d (sparseSet d k v l) j = sparseGet d l j := by
  unfold sparseSet
  split
  · exact sparseGet_erase_other l h
  · rw [sparseGet_insert_other _ _ h, sparseGet_erase_other l h]

/-- Read after write, both cases. -/
theorem sparseGet_set [DecidableEq α] (l : List (Nat × α)) (k j : Nat) (v : α) :
    sparseGet d (sparseSet d k v l) j = if j = k then v else sparseGet d l j := by
  split
  · next h => rw [h, sparseGet_set_same]
  · next h => exact sparseGet_set_other l v h

theorem sparseWfFrom_mono [DecidableEq α] {lo lo' : Nat} {l : List (Nat × α)}
    (h : sparseWfFrom d lo l = true) (hl : lo' ≤ lo) : sparseWfFrom d lo' l = true := by
  cases l with
  | nil => rfl
  | cons e l =>
    obtain ⟨j, v⟩ := e
    simp only [sparseWfFrom, Bool.and_eq_true, decide_eq_true_eq] at h ⊢
    exact ⟨⟨by omega, h.1.2⟩, h.2⟩

theorem sparseWfFrom_erase [DecidableEq α] {lo : Nat} {l : List (Nat × α)} (k : Nat)
    (h : sparseWfFrom d lo l = true) : sparseWfFrom d lo (sparseErase k l) = true := by
  induction l generalizing lo with
  | nil => rfl
  | cons e l ih =>
    obtain ⟨j, v⟩ := e
    simp only [sparseWfFrom, Bool.and_eq_true, decide_eq_true_eq] at h
    simp only [sparseErase]
    split
    · exact sparseWfFrom_mono (ih h.2) (by omega)
    · simp only [sparseWfFrom, Bool.and_eq_true, decide_eq_true_eq]
      exact ⟨h.1, ih h.2⟩

/-- Inserting a non-default value at a key that is not listed keeps the form. -/
theorem sparseWfFrom_insert [DecidableEq α] {lo k : Nat} {v : α} {l : List (Nat × α)}
    (h : sparseWfFrom d lo l = true) (hk : lo ≤ k) (hv : v ≠ d) (hl : sparseGet d l k = d) :
    sparseWfFrom d lo (sparseInsert k v l) = true := by
  induction l generalizing lo with
  | nil => simp [sparseInsert, sparseWfFrom, hk, hv]
  | cons e l ih =>
    obtain ⟨j, w⟩ := e
    simp only [sparseWfFrom, Bool.and_eq_true, decide_eq_true_eq] at h
    simp only [sparseGet] at hl
    simp only [sparseInsert]
    by_cases hj : j = k
    · rw [if_pos hj] at hl
      exact absurd hl h.1.2
    · rw [if_neg hj] at hl
      split
      · simp only [sparseWfFrom, Bool.and_eq_true, decide_eq_true_eq]
        exact ⟨h.1, ih h.2 (by omega) hl⟩
      · simp only [sparseWfFrom, Bool.and_eq_true, decide_eq_true_eq]
        exact ⟨⟨hk, hv⟩, ⟨by omega, h.1.2⟩, h.2⟩

/-- A write keeps the canonical form. -/
theorem sparseWf_set [DecidableEq α] {l : List (Nat × α)} (k : Nat) (v : α) (h : sparseWf d l = true) :
    sparseWf d (sparseSet d k v l) = true := by
  unfold sparseSet
  split
  · exact sparseWfFrom_erase k h
  · next hv =>
    exact sparseWfFrom_insert (sparseWfFrom_erase k h) (Nat.zero_le k) hv (sparseGet_erase_same l k)

theorem sparseBelow_erase {n : Nat} {l : List (Nat × α)} (k : Nat) (h : sparseBelow n l = true) :
    sparseBelow n (sparseErase k l) = true := by
  induction l with
  | nil => rfl
  | cons e l ih =>
    obtain ⟨j, v⟩ := e
    simp only [sparseBelow, List.all_cons, Bool.and_eq_true] at h ih ⊢
    simp only [sparseErase]
    split
    · exact ih h.2
    · simpa using ⟨by simpa using h.1, by simpa using ih h.2⟩

theorem sparseBelow_insert {n k : Nat} {v : α} {l : List (Nat × α)} (hk : k < n)
    (h : sparseBelow n l = true) : sparseBelow n (sparseInsert k v l) = true := by
  induction l with
  | nil => simp [sparseBelow, sparseInsert, hk]
  | cons e l ih =>
    obtain ⟨j, w⟩ := e
    simp only [sparseBelow, List.all_cons, Bool.and_eq_true, decide_eq_true_eq] at h ih ⊢
    simp only [sparseInsert]
    split
    · simpa using ⟨h.1, by simpa using ih h.2⟩
    · simpa using ⟨hk, h.1, by simpa using h.2⟩

/-- A write below the bound keeps every key below it. -/
theorem sparseBelow_set [DecidableEq α] {n k : Nat} {l : List (Nat × α)} (v : α) (hk : k < n)
    (h : sparseBelow n l = true) : sparseBelow n (sparseSet d k v l) = true := by
  unfold sparseSet
  split
  · exact sparseBelow_erase k h
  · exact sparseBelow_insert hk (sparseBelow_erase k h)

/-- A key at or above the bound reads as the default. -/
theorem sparseGet_eq_default_of_below {n k : Nat} {l : List (Nat × α)} (h : sparseBelow n l = true)
    (hk : n ≤ k) : sparseGet d l k = d := by
  induction l with
  | nil => rfl
  | cons e l ih =>
    obtain ⟨j, v⟩ := e
    simp only [sparseBelow, List.all_cons, Bool.and_eq_true, decide_eq_true_eq] at h ih
    rw [sparseGet, if_neg (by omega)]
    exact ih h.2

/-- In a canonical store the listed entries are exactly the keys that do not read as the default, each with
the value it reads as. -/
theorem mem_iff_of_sparseWfFrom [DecidableEq α] {lo k : Nat} {v : α} {l : List (Nat × α)}
    (h : sparseWfFrom d lo l = true) : (k, v) ∈ l ↔ sparseGet d l k = v ∧ v ≠ d := by
  induction l generalizing lo with
  | nil => simpa using fun a => Eq.symm a
  | cons e l ih =>
    obtain ⟨j, w⟩ := e
    simp only [sparseWfFrom, Bool.and_eq_true, decide_eq_true_eq] at h
    rw [List.mem_cons, Prod.mk.injEq, ih h.2, sparseGet]
    by_cases hj : j = k
    · subst hj
      rw [if_pos rfl, sparseGet_eq_default_of_wfFrom h.2 (Nat.lt_succ_self j)]
      constructor
      · rintro (⟨-, rfl⟩ | ⟨a, b⟩)
        · exact ⟨rfl, h.1.2⟩
        · exact absurd a.symm b
      · rintro ⟨rfl, -⟩
        exact .inl ⟨rfl, rfl⟩
    · rw [if_neg hj]
      constructor
      · rintro (⟨a, -⟩ | a)
        · exact absurd a.symm hj
        · exact a
      · exact .inr

theorem mem_iff_of_sparseWf [DecidableEq α] {k : Nat} {v : α} {l : List (Nat × α)}
    (h : sparseWf d l = true) : (k, v) ∈ l ↔ sparseGet d l k = v ∧ v ≠ d :=
  mem_iff_of_sparseWfFrom h

end Sys2Proof.Machine
end

