-- ==== Sys2Proof/Laws/State.lean ====
section
/-! SUPPORT. What each named update of the state leaves as it was: one lemma per field, so that no proof
unfolds a record update. -/

namespace Sys2Proof.Machine

/-! ### `State.setSlot` -/

@[simp] theorem State.setSlot_cfg (s : State) (k : Nat) (v : Slot) : (s.setSlot k v).cfg = s.cfg := rfl
@[simp] theorem State.setSlot_hwReady (s : State) (k : Nat) (v : Slot) : (s.setSlot k v).hwReady = s.hwReady := rfl
@[simp] theorem State.setSlot_lock (s : State) (k : Nat) (v : Slot) : (s.setSlot k v).lock = s.lock := rfl
@[simp] theorem State.setSlot_eng (s : State) (k : Nat) (v : Slot) : (s.setSlot k v).eng = s.eng := rfl
@[simp] theorem State.setSlot_bringUp (s : State) (k : Nat) (v : Slot) : (s.setSlot k v).bringUp = s.bringUp := rfl
@[simp] theorem State.setSlot_ports (s : State) (k : Nat) (v : Slot) : (s.setSlot k v).ports = s.ports := rfl
@[simp] theorem State.setSlot_resetReq (s : State) (k : Nat) (v : Slot) : (s.setSlot k v).resetReq = s.resetReq := rfl
@[simp] theorem State.setSlot_tape (s : State) (k : Nat) (v : Slot) : (s.setSlot k v).tape = s.tape := rfl
@[simp] theorem State.setSlot_drawn (s : State) (k : Nat) (v : Slot) : (s.setSlot k v).drawn = s.drawn := rfl

/-! ### `State.setCtx` -/

@[simp] theorem State.setCtx_cfg (s : State) (k : Nat) (c : Ctx) : (s.setCtx k c).cfg = s.cfg := rfl
@[simp] theorem State.setCtx_hwReady (s : State) (k : Nat) (c : Ctx) : (s.setCtx k c).hwReady = s.hwReady := rfl
@[simp] theorem State.setCtx_lock (s : State) (k : Nat) (c : Ctx) : (s.setCtx k c).lock = s.lock := rfl
@[simp] theorem State.setCtx_eng (s : State) (k : Nat) (c : Ctx) : (s.setCtx k c).eng = s.eng := rfl
@[simp] theorem State.setCtx_bringUp (s : State) (k : Nat) (c : Ctx) : (s.setCtx k c).bringUp = s.bringUp := rfl
@[simp] theorem State.setCtx_ports (s : State) (k : Nat) (c : Ctx) : (s.setCtx k c).ports = s.ports := rfl
@[simp] theorem State.setCtx_resetReq (s : State) (k : Nat) (c : Ctx) : (s.setCtx k c).resetReq = s.resetReq := rfl
@[simp] theorem State.setCtx_tape (s : State) (k : Nat) (c : Ctx) : (s.setCtx k c).tape = s.tape := rfl
@[simp] theorem State.setCtx_drawn (s : State) (k : Nat) (c : Ctx) : (s.setCtx k c).drawn = s.drawn := rfl

/-! ### `State.setPort` -/

@[simp] theorem State.setPort_cfg (s : State) (p : PortId) (v : Port) : (s.setPort p v).cfg = s.cfg := by cases p <;> rfl
@[simp] theorem State.setPort_hwReady (s : State) (p : PortId) (v : Port) : (s.setPort p v).hwReady = s.hwReady := by cases p <;> rfl
@[simp] theorem State.setPort_lock (s : State) (p : PortId) (v : Port) : (s.setPort p v).lock = s.lock := by cases p <;> rfl
@[simp] theorem State.setPort_eng (s : State) (p : PortId) (v : Port) : (s.setPort p v).eng = s.eng := by cases p <;> rfl
@[simp] theorem State.setPort_slots (s : State) (p : PortId) (v : Port) : (s.setPort p v).slots = s.slots := by cases p <;> rfl
@[simp] theorem State.setPort_resetReq (s : State) (p : PortId) (v : Port) : (s.setPort p v).resetReq = s.resetReq := by cases p <;> rfl
@[simp] theorem State.setPort_tape (s : State) (p : PortId) (v : Port) : (s.setPort p v).tape = s.tape := by cases p <;> rfl
@[simp] theorem State.setPort_drawn (s : State) (p : PortId) (v : Port) : (s.setPort p v).drawn = s.drawn := by cases p <;> rfl

/-! ### `State.setReady` -/

@[simp] theorem State.setReady_hwReady (s : State) (b : Bool) : (s.setReady b).hwReady = b := rfl
@[simp] theorem State.setReady_cfg (s : State) (b : Bool) : (s.setReady b).cfg = s.cfg := rfl
@[simp] theorem State.setReady_lock (s : State) (b : Bool) : (s.setReady b).lock = s.lock := rfl
@[simp] theorem State.setReady_eng (s : State) (b : Bool) : (s.setReady b).eng = s.eng := rfl
@[simp] theorem State.setReady_slots (s : State) (b : Bool) : (s.setReady b).slots = s.slots := rfl
@[simp] theorem State.setReady_bringUp (s : State) (b : Bool) : (s.setReady b).bringUp = s.bringUp := rfl
@[simp] theorem State.setReady_ports (s : State) (b : Bool) : (s.setReady b).ports = s.ports := rfl
@[simp] theorem State.setReady_resetReq (s : State) (b : Bool) : (s.setReady b).resetReq = s.resetReq := rfl
@[simp] theorem State.setReady_tape (s : State) (b : Bool) : (s.setReady b).tape = s.tape := rfl
@[simp] theorem State.setReady_drawn (s : State) (b : Bool) : (s.setReady b).drawn = s.drawn := rfl

/-! ### `State.setLock` -/

@[simp] theorem State.setLock_lock (s : State) (l : Lock) : (s.setLock l).lock = l := rfl
@[simp] theorem State.setLock_cfg (s : State) (l : Lock) : (s.setLock l).cfg = s.cfg := rfl
@[simp] theorem State.setLock_hwReady (s : State) (l : Lock) : (s.setLock l).hwReady = s.hwReady := rfl
@[simp] theorem State.setLock_eng (s : State) (l : Lock) : (s.setLock l).eng = s.eng := rfl
@[simp] theorem State.setLock_slots (s : State) (l : Lock) : (s.setLock l).slots = s.slots := rfl
@[simp] theorem State.setLock_bringUp (s : State) (l : Lock) : (s.setLock l).bringUp = s.bringUp := rfl
@[simp] theorem State.setLock_ports (s : State) (l : Lock) : (s.setLock l).ports = s.ports := rfl
@[simp] theorem State.setLock_resetReq (s : State) (l : Lock) : (s.setLock l).resetReq = s.resetReq := rfl
@[simp] theorem State.setLock_tape (s : State) (l : Lock) : (s.setLock l).tape = s.tape := rfl
@[simp] theorem State.setLock_drawn (s : State) (l : Lock) : (s.setLock l).drawn = s.drawn := rfl

/-! ### `State.setEng` -/

@[simp] theorem State.setEng_eng (s : State) (e : Engine) : (s.setEng e).eng = e := rfl
@[simp] theorem State.setEng_cfg (s : State) (e : Engine) : (s.setEng e).cfg = s.cfg := rfl
@[simp] theorem State.setEng_hwReady (s : State) (e : Engine) : (s.setEng e).hwReady = s.hwReady := rfl
@[simp] theorem State.setEng_lock (s : State) (e : Engine) : (s.setEng e).lock = s.lock := rfl
@[simp] theorem State.setEng_slots (s : State) (e : Engine) : (s.setEng e).slots = s.slots := rfl
@[simp] theorem State.setEng_bringUp (s : State) (e : Engine) : (s.setEng e).bringUp = s.bringUp := rfl
@[simp] theorem State.setEng_ports (s : State) (e : Engine) : (s.setEng e).ports = s.ports := rfl
@[simp] theorem State.setEng_resetReq (s : State) (e : Engine) : (s.setEng e).resetReq = s.resetReq := rfl
@[simp] theorem State.setEng_tape (s : State) (e : Engine) : (s.setEng e).tape = s.tape := rfl
@[simp] theorem State.setEng_drawn (s : State) (e : Engine) : (s.setEng e).drawn = s.drawn := rfl

/-! ### `State.post` -/

@[simp] theorem State.post_cfg (s : State) (p : PortId) (st : Status) : (s.post p st).cfg = s.cfg := by cases p <;> rfl
@[simp] theorem State.post_hwReady (s : State) (p : PortId) (st : Status) : (s.post p st).hwReady = s.hwReady := by cases p <;> rfl
@[simp] theorem State.post_lock (s : State) (p : PortId) (st : Status) : (s.post p st).lock = s.lock := by cases p <;> rfl
@[simp] theorem State.post_eng (s : State) (p : PortId) (st : Status) : (s.post p st).eng = s.eng := by cases p <;> rfl
@[simp] theorem State.post_slots (s : State) (p : PortId) (st : Status) : (s.post p st).slots = s.slots := by cases p <;> rfl
@[simp] theorem State.post_resetReq (s : State) (p : PortId) (st : Status) : (s.post p st).resetReq = s.resetReq := by cases p <;> rfl
@[simp] theorem State.post_tape (s : State) (p : PortId) (st : Status) : (s.post p st).tape = s.tape := by cases p <;> rfl
@[simp] theorem State.post_drawn (s : State) (p : PortId) (st : Status) : (s.post p st).drawn = s.drawn := by cases p <;> rfl

/-! ### `State.emit` -/

@[simp] theorem State.emit_cfg (s : State) (k : Nat) (bs : List Byte) : (s.emit k bs).cfg = s.cfg := rfl
@[simp] theorem State.emit_hwReady (s : State) (k : Nat) (bs : List Byte) : (s.emit k bs).hwReady = s.hwReady := rfl
@[simp] theorem State.emit_lock (s : State) (k : Nat) (bs : List Byte) : (s.emit k bs).lock = s.lock := rfl
@[simp] theorem State.emit_eng (s : State) (k : Nat) (bs : List Byte) : (s.emit k bs).eng = s.eng := rfl
@[simp] theorem State.emit_slots (s : State) (k : Nat) (bs : List Byte) : (s.emit k bs).slots = s.slots := rfl
@[simp] theorem State.emit_bringUp (s : State) (k : Nat) (bs : List Byte) : (s.emit k bs).bringUp = s.bringUp := rfl
@[simp] theorem State.emit_resetReq (s : State) (k : Nat) (bs : List Byte) : (s.emit k bs).resetReq = s.resetReq := rfl
@[simp] theorem State.emit_tape (s : State) (k : Nat) (bs : List Byte) : (s.emit k bs).tape = s.tape := rfl
@[simp] theorem State.emit_drawn (s : State) (k : Nat) (bs : List Byte) : (s.emit k bs).drawn = s.drawn := rfl

/-! ### `State.raise` -/

@[simp] theorem State.raise_cfg (s : State) (k : Nat) (e : Status) : (s.raise k e).cfg = s.cfg := rfl
@[simp] theorem State.raise_hwReady (s : State) (k : Nat) (e : Status) : (s.raise k e).hwReady = s.hwReady := rfl
@[simp] theorem State.raise_lock (s : State) (k : Nat) (e : Status) : (s.raise k e).lock = s.lock := rfl
@[simp] theorem State.raise_eng (s : State) (k : Nat) (e : Status) : (s.raise k e).eng = s.eng := rfl
@[simp] theorem State.raise_bringUp (s : State) (k : Nat) (e : Status) : (s.raise k e).bringUp = s.bringUp := rfl
@[simp] theorem State.raise_resetReq (s : State) (k : Nat) (e : Status) : (s.raise k e).resetReq = s.resetReq := rfl
@[simp] theorem State.raise_tape (s : State) (k : Nat) (e : Status) : (s.raise k e).tape = s.tape := rfl
@[simp] theorem State.raise_drawn (s : State) (k : Nat) (e : Status) : (s.raise k e).drawn = s.drawn := rfl

/-! ### `State.consume` -/

@[simp] theorem State.consume_cfg (s : State) (p : PortId) (ws : List CmdWord) (ds : List Byte) : (s.consume p ws ds).cfg = s.cfg := by cases p <;> rfl
@[simp] theorem State.consume_hwReady (s : State) (p : PortId) (ws : List CmdWord) (ds : List Byte) : (s.consume p ws ds).hwReady = s.hwReady := by cases p <;> rfl
@[simp] theorem State.consume_lock (s : State) (p : PortId) (ws : List CmdWord) (ds : List Byte) : (s.consume p ws ds).lock = s.lock := by cases p <;> rfl
@[simp] theorem State.consume_eng (s : State) (p : PortId) (ws : List CmdWord) (ds : List Byte) : (s.consume p ws ds).eng = s.eng := by cases p <;> rfl
@[simp] theorem State.consume_slots (s : State) (p : PortId) (ws : List CmdWord) (ds : List Byte) : (s.consume p ws ds).slots = s.slots := by cases p <;> rfl
@[simp] theorem State.consume_resetReq (s : State) (p : PortId) (ws : List CmdWord) (ds : List Byte) : (s.consume p ws ds).resetReq = s.resetReq := by cases p <;> rfl
@[simp] theorem State.consume_tape (s : State) (p : PortId) (ws : List CmdWord) (ds : List Byte) : (s.consume p ws ds).tape = s.tape := by cases p <;> rfl
@[simp] theorem State.consume_drawn (s : State) (p : PortId) (ws : List CmdWord) (ds : List Byte) : (s.consume p ws ds).drawn = s.drawn := by cases p <;> rfl

/-! ### `State.putBack` -/

@[simp] theorem State.putBack_cfg (s : State) (p : PortId) (c : Command) : (s.putBack p c).cfg = s.cfg := by cases p <;> rfl
@[simp] theorem State.putBack_hwReady (s : State) (p : PortId) (c : Command) : (s.putBack p c).hwReady = s.hwReady := by cases p <;> rfl
@[simp] theorem State.putBack_lock (s : State) (p : PortId) (c : Command) : (s.putBack p c).lock = s.lock := by cases p <;> rfl
@[simp] theorem State.putBack_eng (s : State) (p : PortId) (c : Command) : (s.putBack p c).eng = s.eng := by cases p <;> rfl
@[simp] theorem State.putBack_slots (s : State) (p : PortId) (c : Command) : (s.putBack p c).slots = s.slots := by cases p <;> rfl
@[simp] theorem State.putBack_resetReq (s : State) (p : PortId) (c : Command) : (s.putBack p c).resetReq = s.resetReq := by cases p <;> rfl
@[simp] theorem State.putBack_tape (s : State) (p : PortId) (c : Command) : (s.putBack p c).tape = s.tape := by cases p <;> rfl
@[simp] theorem State.putBack_drawn (s : State) (p : PortId) (c : Command) : (s.putBack p c).drawn = s.drawn := by cases p <;> rfl

/-! ### `State.advanceDraw` -/

@[simp] theorem State.advanceDraw_cfg (s : State) : (s.advanceDraw).cfg = s.cfg := rfl
@[simp] theorem State.advanceDraw_hwReady (s : State) : (s.advanceDraw).hwReady = s.hwReady := rfl
@[simp] theorem State.advanceDraw_lock (s : State) : (s.advanceDraw).lock = s.lock := rfl
@[simp] theorem State.advanceDraw_eng (s : State) : (s.advanceDraw).eng = s.eng := rfl
@[simp] theorem State.advanceDraw_slots (s : State) : (s.advanceDraw).slots = s.slots := rfl
@[simp] theorem State.advanceDraw_bringUp (s : State) : (s.advanceDraw).bringUp = s.bringUp := rfl
@[simp] theorem State.advanceDraw_ports (s : State) : (s.advanceDraw).ports = s.ports := rfl
@[simp] theorem State.advanceDraw_resetReq (s : State) : (s.advanceDraw).resetReq = s.resetReq := rfl

/-! ### `State.aim` -/

@[simp] theorem State.aim_cfg (s : State) (m : Move) : (s.aim m).cfg = s.cfg := rfl
@[simp] theorem State.aim_hwReady (s : State) (m : Move) : (s.aim m).hwReady = s.hwReady := rfl
@[simp] theorem State.aim_lock (s : State) (m : Move) : (s.aim m).lock = s.lock := rfl
@[simp] theorem State.aim_eng (s : State) (m : Move) : (s.aim m).eng = s.eng := rfl
@[simp] theorem State.aim_slots (s : State) (m : Move) : (s.aim m).slots = s.slots := rfl
@[simp] theorem State.aim_bringUp (s : State) (m : Move) : (s.aim m).bringUp = s.bringUp := rfl
@[simp] theorem State.aim_ports (s : State) (m : Move) : (s.aim m).ports = s.ports := rfl
@[simp] theorem State.aim_resetReq (s : State) (m : Move) : (s.aim m).resetReq = s.resetReq := rfl
@[simp] theorem State.aim_drawn (s : State) (m : Move) : (s.aim m).drawn = s.drawn := rfl

/-! ### `State.resetEvent` -/

@[simp] theorem State.resetEvent_cfg (s : State) : s.resetEvent.cfg = s.cfg := rfl
@[simp] theorem State.resetEvent_hwReady (s : State) : s.resetEvent.hwReady = false := rfl
@[simp] theorem State.resetEvent_lock (s : State) : s.resetEvent.lock = .free := rfl
@[simp] theorem State.resetEvent_eng (s : State) : s.resetEvent.eng = Engine.bottom := rfl
@[simp] theorem State.resetEvent_slots (s : State) : s.resetEvent.slots = [] := rfl
@[simp] theorem State.resetEvent_bringUp (s : State) : s.resetEvent.bringUp = Port.empty := rfl
@[simp] theorem State.resetEvent_ports (s : State) : s.resetEvent.ports = [] := rfl
@[simp] theorem State.resetEvent_resetReq (s : State) : s.resetEvent.resetReq = false := rfl

/-! ### `State.resetOf` -/

@[simp] theorem State.resetOf_cfg (c : Config) : (State.resetOf c).cfg = c := rfl
@[simp] theorem State.resetOf_hwReady (c : Config) : (State.resetOf c).hwReady = false := rfl
@[simp] theorem State.resetOf_lock (c : Config) : (State.resetOf c).lock = .free := rfl
@[simp] theorem State.resetOf_eng (c : Config) : (State.resetOf c).eng = Engine.bottom := rfl
@[simp] theorem State.resetOf_slots (c : Config) : (State.resetOf c).slots = [] := rfl
@[simp] theorem State.resetOf_bringUp (c : Config) : (State.resetOf c).bringUp = Port.empty := rfl
@[simp] theorem State.resetOf_ports (c : Config) : (State.resetOf c).ports = [] := rfl
@[simp] theorem State.resetOf_resetReq (c : Config) : (State.resetOf c).resetReq = false := rfl

/-! ### `mapNext` -/

@[simp] theorem mapNext_next (f : State → State) (s : State) : mapNext f (.next s) = .next (f s) := rfl
@[simp] theorem mapNext_fault (f : State → State) (r : Fault) : mapNext f (.fault r) = .fault r := rfl
@[simp] theorem mapNext_refused (f : State → State) (r : Refusal) : mapNext f (.refused r) = .refused r := rfl

/-- A mapped outcome is a next state exactly when the outcome was one. -/
theorem mapNext_eq_next {f : State → State} {o : Host.Outcome State Fault Refusal} {t : State} :
    mapNext f o = .next t ↔ ∃ s, o = .next s ∧ t = f s := by
  cases o <;> simp [eq_comm]

end Sys2Proof.Machine
end

