-- ==== Sys2Proof/Laws/Ops.lean ====
section
/-! SUPPORT. What the named operations do: reads after writes of slots and ports, the error protocol, the
checks at acceptance, and what each meaning and each micro-operation can answer. -/

namespace Sys2Proof.Machine

/-! ### Slots -/

@[simp] theorem slot_setSlot_same (s : State) (k : Nat) (v : Slot) : (s.setSlot k v).slot k = v := by
  simp [State.slot, State.setSlot]

@[simp] theorem slot_setSlot_other (s : State) {k j : Nat} (v : Slot) (h : j ≠ k) :
    (s.setSlot k v).slot j = s.slot j := sparseGet_set_other _ _ h

theorem slot_setSlot (s : State) (k j : Nat) (v : Slot) :
    (s.setSlot k v).slot j = if j = k then v else s.slot j := sparseGet_set _ _ _ _

@[simp] theorem slot_setPort (s : State) (p : PortId) (v : Port) (k : Nat) :
    (s.setPort p v).slot k = s.slot k := by cases p <;> rfl

@[simp] theorem slot_post (s : State) (p : PortId) (st : Status) (k : Nat) :
    (s.post p st).slot k = s.slot k := slot_setPort ..

@[simp] theorem slot_emit (s : State) (j : Nat) (bs : List Byte) (k : Nat) :
    (s.emit j bs).slot k = s.slot k := rfl

@[simp] theorem slot_consume (s : State) (p : PortId) (ws : List CmdWord) (ds : List Byte) (k : Nat) :
    (s.consume p ws ds).slot k = s.slot k := slot_setPort ..

@[simp] theorem slot_putBack (s : State) (p : PortId) (c : Command) (k : Nat) :
    (s.putBack p c).slot k = s.slot k := slot_setPort ..

@[simp] theorem slot_setReady (s : State) (b : Bool) (k : Nat) : (s.setReady b).slot k = s.slot k := rfl

@[simp] theorem slot_setLock (s : State) (l : Lock) (k : Nat) : (s.setLock l).slot k = s.slot k := rfl

@[simp] theorem slot_setEng (s : State) (e : Engine) (k : Nat) : (s.setEng e).slot k = s.slot k := rfl

@[simp] theorem slot_advanceDraw (s : State) (k : Nat) : s.advanceDraw.slot k = s.slot k := rfl

@[simp] theorem slot_aim (s : State) (m : Move) (k : Nat) : (s.aim m).slot k = s.slot k := rfl

@[simp] theorem slot_resetEvent (s : State) (k : Nat) : s.resetEvent.slot k = Slot.reset := rfl

@[simp] theorem slot_resetOf (c : Config) (k : Nat) : (State.resetOf c).slot k = Slot.reset := rfl

/-! ### Ports -/

@[simp] theorem port_setPort_same (s : State) (p : PortId) (v : Port) : (s.setPort p v).port p = v := by
  cases p <;> simp [State.port, State.setPort]

@[simp] theorem port_setPort_other (s : State) {p q : PortId} (v : Port) (h : q ≠ p) :
    (s.setPort p v).port q = s.port q := by
  cases p <;> cases q <;> try rfl
  · exact absurd rfl h
  · exact sparseGet_set_other _ _ fun e => h (congrArg _ e)

@[simp] theorem port_setSlot (s : State) (k : Nat) (v : Slot) (p : PortId) :
    (s.setSlot k v).port p = s.port p := by cases p <;> rfl

@[simp] theorem port_setCtx (s : State) (k : Nat) (c : Ctx) (p : PortId) :
    (s.setCtx k c).port p = s.port p := port_setSlot ..

@[simp] theorem port_setReady (s : State) (b : Bool) (p : PortId) : (s.setReady b).port p = s.port p := by
  cases p <;> rfl

@[simp] theorem port_setLock (s : State) (l : Lock) (p : PortId) : (s.setLock l).port p = s.port p := by
  cases p <;> rfl

@[simp] theorem port_setEng (s : State) (e : Engine) (p : PortId) : (s.setEng e).port p = s.port p := by
  cases p <;> rfl

@[simp] theorem port_advanceDraw (s : State) (p : PortId) : s.advanceDraw.port p = s.port p := by
  cases p <;> rfl

@[simp] theorem port_resetEvent (s : State) (p : PortId) : s.resetEvent.port p = Port.empty := by
  cases p <;> rfl

@[simp] theorem port_resetOf (c : Config) (p : PortId) : (State.resetOf c).port p = Port.empty := by
  cases p <;> rfl

@[simp] theorem port_post_same (s : State) (p : PortId) (st : Status) :
    (s.post p st).port p = { s.port p with resp := (s.port p).resp ++ [statusCode st] } :=
  port_setPort_same ..

@[simp] theorem port_post_other (s : State) {p q : PortId} (st : Status) (h : q ≠ p) :
    (s.post p st).port q = s.port q := port_setPort_other _ _ h

@[simp] theorem port_consume_same (s : State) (p : PortId) (ws : List CmdWord) (ds : List Byte) :
    (s.consume p ws ds).port p = { s.port p with cmd := ws, dataIn := ds } := port_setPort_same ..

@[simp] theorem port_consume_other (s : State) {p q : PortId} (ws : List CmdWord) (ds : List Byte)
    (h : q ≠ p) : (s.consume p ws ds).port q = s.port q := port_setPort_other _ _ h

@[simp] theorem port_emit_same (s : State) (k : Nat) (bs : List Byte) :
    (s.emit k bs).port (.slot k) =
      { s.port (.slot k) with digestOut := (s.port (.slot k)).digestOut ++ bs } := port_setPort_same ..

@[simp] theorem port_emit_other (s : State) {k : Nat} {q : PortId} (bs : List Byte) (h : q ≠ .slot k) :
    (s.emit k bs).port q = s.port q := port_setPort_other _ _ h

/-! ### The error protocol (R250, R252) -/

@[simp] theorem slot_raise_same (s : State) (k : Nat) (e : Status) :
    (s.raise k e).slot k = errorSlot e (s.slot k) := by simp [State.raise]

@[simp] theorem slot_raise_other (s : State) {k j : Nat} (e : Status) (h : j ≠ k) :
    (s.raise k e).slot j = s.slot j := by simp [State.raise, h]

@[simp] theorem port_raise_same (s : State) (k : Nat) (e : Status) :
    (s.raise k e).port (.slot k) =
      { s.port (.slot k) with resp := (s.port (.slot k)).resp ++ [statusCode e] } := by
  simp [State.raise]

@[simp] theorem port_raise_other (s : State) {k : Nat} {q : PortId} (e : Status) (h : q ≠ .slot k) :
    (s.raise k e).port q = s.port q := by simp [State.raise, h]

/-! ### Acceptance -/

/-- What acceptance can come to: the body, `InvalidArgument` for a slot number out of range, or the
command waiting at the head of its channels. -/
theorem whenAccepted_cases (s : State) (sid : BitVec 16) (c : Command)
    (body : Host.Outcome State Fault Refusal) :
    (s.isIdle (sidNat sid) = true ∧ sidNat sid < s.cfg.nCtx ∧ whenAccepted s sid c body = body) ∨
    (s.isIdle (sidNat sid) = true ∧ s.cfg.nCtx ≤ sidNat sid ∧
      whenAccepted s sid c body = .next (s.post (.slot (sidNat sid)) .invalidArgument)) ∨
    (s.isIdle (sidNat sid) = false ∧
      whenAccepted s sid c body = .next (s.putBack (.slot (sidNat sid)) c)) := by
  unfold whenAccepted
  cases h : s.isIdle (sidNat sid)
  · simp
  · by_cases hn : sidNat sid < s.cfg.nCtx
    · simp [hn]
    · simp [hn, Nat.le_of_not_lt hn]

theorem whenAccepted_of_ready {s : State} {sid : BitVec 16} (c : Command)
    (body : Host.Outcome State Fault Refusal) (hi : s.isIdle (sidNat sid) = true)
    (hn : sidNat sid < s.cfg.nCtx) : whenAccepted s sid c body = body := by
  simp [whenAccepted, hi, hn]

/-- What the checks of `UPDATE` and `FINISH` can come to (R247). -/
theorem whenPermitted_cases (s : State) (k : Nat) (badArg : Bool)
    (body : Ctx → Host.Outcome State Fault Refusal) :
    (s.hwReady = false ∧ whenPermitted s k badArg body = .next (s.raise k .hardwareUnavailable)) ∨
    (s.hwReady = true ∧ (s.slot k).ctx = none ∧
      whenPermitted s k badArg body = .refused (.contextUnspecified k)) ∨
    (∃ c, s.hwReady = true ∧ (s.slot k).ctx = some c ∧ badArg = true ∧
      whenPermitted s k badArg body = .next (s.raise k .invalidArgument)) ∨
    (∃ c, s.hwReady = true ∧ (s.slot k).ctx = some c ∧ badArg = false ∧ c.lifecycle = .terminal ∧
      whenPermitted s k badArg body = .next (s.raise k .invalidState)) ∨
    (∃ c, s.hwReady = true ∧ (s.slot k).ctx = some c ∧ badArg = false ∧ c.lifecycle ≠ .terminal ∧
      whenPermitted s k badArg body = body c) := by
  unfold whenPermitted
  cases s.hwReady
  · simp
  · cases hc : (s.slot k).ctx with
    | none => simp
    | some c =>
      cases badArg
      · by_cases ht : c.lifecycle = .terminal <;> simp [ht]
      · simp

/-- All checks passed: what remains of a command on a context that is not `⊥`. -/
theorem whenPermitted_of_ctx {s : State} {k : Nat} {c : Ctx} (badArg : Bool)
    (body : Ctx → Host.Outcome State Fault Refusal) (h : s.hwReady = true) (hc : (s.slot k).ctx = some c) :
    whenPermitted s k badArg body =
      if badArg then .next (s.raise k .invalidArgument)
      else if c.lifecycle = .terminal then .next (s.raise k .invalidState)
      else body c := by
  simp [whenPermitted, h, hc]

/-! ### The meanings: one equation for each shape -/

/-- The five `STARTS` are one operation at five modes (R142). -/
theorem exec_of_startsMode {i : Instr} {m : Mode} {sid : BitVec 16} (hm : startsMode i = some m)
    (hs : instrSid i = some sid) (s : State) : exec i s = starts m sid (encode i) s := by
  cases i <;>
    simp_all [startsMode, instrSid, exec, execStartsSha1, execStartsSha256, execStartsSha224,
      execStartsSha512, execStartsSha384]

theorem exec_update (nullbuf : Bool) (sid : BitVec 16) (len : BitVec 32) (data : List Byte) (s : State) :
    exec (.update nullbuf sid len data) s =
      whenAccepted s sid (encode (.update nullbuf sid len data))
        (whenPermitted s (sidNat sid) (nullbuf && len != 0#32) fun c =>
          .next (s.setSlot (sidNat sid) (updateSlot (s.slot (sidNat sid)) c nullbuf len data))) := rfl

theorem exec_finish (nullbuf : Bool) (sid : BitVec 16) (s : State) :
    exec (.finish nullbuf sid) s =
      whenAccepted s sid (encode (.finish nullbuf sid))
        (whenPermitted s (sidNat sid) nullbuf fun c =>
          .next (s.setSlot (sidNat sid) (finishSlot (s.slot (sidNat sid)) c))) := rfl

/-- Every command that names a slot goes through the one acceptance of R96. -/
theorem exec_eq_whenAccepted {i : Instr} {sid : BitVec 16} (hs : instrSid i = some sid) (s : State) :
    ∃ body, exec i s = whenAccepted s sid (encode i) body := by
  cases i <;> simp only [instrSid, Option.some.injEq, reduceCtorEq] at hs <;> subst hs <;> exact ⟨_, rfl⟩

/-! ### The micro-operations: when one answers a next state, which one -/

theorem acquire_next {k : Nat} {s t : State} (h : acquire k s = .next t) :
    (s.slot k).seq = .acq ∧ s.lock = .free ∧
      t = (s.setLock (.held k)).setSlot k { s.slot k with seq := .feed } := by
  unfold acquire at h
  split at h
  · next hc => exact ⟨hc.1, hc.2, by simpa using h.symm⟩
  · simp at h

theorem acquireTimeout_next {k : Nat} {s t : State} (h : acquireTimeout k s = .next t) :
    (s.slot k).seq = .acq ∧ heldByOther s.lock k = true ∧ s.cfg.lockTimeout = true ∧
      t = s.raise k .hardwareBusy := by
  unfold acquireTimeout at h
  split at h
  · next hc => exact ⟨hc.1, hc.2.1, hc.2.2, by simpa using h.symm⟩
  · simp at h

theorem feedBlock_next {k : Nat} {s t : State} (h : feedBlock k s = .next t) :
    ∃ c, (s.slot k).seq = .feed ∧ s.lock = .held k ∧ (s.slot k).ctx = some c ∧
      restoreUnwritten c = false ∧
      t = (s.setEng (runBlock s.cfg s.draw c s.eng).1).setSlot k
        (fedSlot (s.slot k) c (runBlock s.cfg s.draw c s.eng).2) := by
  unfold feedBlock at h
  split at h
  · next hc =>
    split at h
    · simp at h
    · next c hx =>
      split at h
      · simp at h
      · next hr => exact ⟨c, hc.1, hc.2, hx, by simpa using hr, by simpa using h.symm⟩
  · simp at h

theorem release_next {k : Nat} {s t : State} (h : release k s = .next t) :
    (s.slot k).seq = .rel ∧ s.lock = .held k ∧
      ((s.slot k).err = .hardwareError ∧ t = (s.setLock .free).raise k .hardwareError ∨
       (s.slot k).err = .none ∧
        t = (s.setLock .free).setSlot k { s.slot k with seq := .absorb }) := by
  unfold release at h
  split at h
  · next hc =>
    refine ⟨hc.1, hc.2, ?_⟩
    split at h
    · next he => exact .inl ⟨he, by simpa using h.symm⟩
    · next he =>
      refine .inr ⟨?_, by simpa using h.symm⟩
      cases hx : (s.slot k).err
      · rfl
      · exact absurd hx he
  · simp at h

theorem absorb_next {k : Nat} {s t : State} (h : absorb k s = .next t) :
    ∃ c, (s.slot k).seq = .absorb ∧ (s.slot k).ctx = some c ∧
      ((s.slot k).pend = [] ∧ (s.slot k).op = some .update ∧
          t = (s.setSlot k { s.slot k with seq := .idle }).post (.slot k) .ok ∨
       (s.slot k).pend = [] ∧ (s.slot k).op ≠ some .update ∧
          t = s.setSlot k { s.slot k with seq := .extract } ∨
       (s.slot k).pend ≠ [] ∧
          t = s.setSlot k
            { s.slot k with
              ctx := some (absorbCtx c (s.slot k).pend)
              pend := (s.slot k).pend.drop (absorbCount c (s.slot k).pend)
              seq := if (absorbCtx c (s.slot k).pend).occ = c.bs then .acq else .absorb }) := by
  unfold absorb at h
  simp only at h
  split at h
  · next hs =>
    split at h
    · simp at h
    · next c hc =>
      refine ⟨c, hs, hc, ?_⟩
      split at h
      · next hp =>
        split at h
        · next ho => exact .inl ⟨hp, ho, by simpa using h.symm⟩
        · next ho => exact .inr (.inl ⟨hp, ho, by simpa using h.symm⟩)
      · next hp => exact .inr (.inr ⟨hp, by simpa using h.symm⟩)
  · simp at h

theorem extract_next {k : Nat} {s t : State} (h : extract k s = .next t) :
    ∃ c, (s.slot k).seq = .extract ∧ (s.slot k).ctx = some c ∧ digestWords c.mode ≤ c.state.length ∧
      t = ((s.emit k (digestOf c.mode c.state)).setSlot k
        { s.slot k with ctx := some { c with lifecycle := .terminal }, seq := .idle }).post (.slot k) .ok := by
  unfold extract at h
  simp only at h
  split at h
  · next hs =>
    split at h
    · simp at h
    · next c hc =>
      split at h
      · simp at h
      · next hl => exact ⟨c, hs, hc, by omega, by simpa using h.symm⟩
  · simp at h

/-! ### The step -/

/-- What a step that answers a next state did: the reset event, waiting, or one move whose draw is
consumed. -/
theorem step_next {s t : State} (h : step s = .next t) :
    (s.resetReq = true ∧ t = s.resetEvent) ∨
    (s.resetReq = false ∧ s.chosen = none ∧ t = s) ∨
    (∃ m u, s.resetReq = false ∧ s.chosen = some m ∧ takeMove m s = .next u ∧ t = u.advanceDraw) := by
  unfold step stepOnce at h
  split at h
  · next hr => exact .inl ⟨hr, by simpa using h.symm⟩
  · next hr =>
    have hr : s.resetReq = false := by simpa using hr
    split at h
    · next hc => exact .inr (.inl ⟨hr, hc, by simpa using h.symm⟩)
    · next m hc =>
      obtain ⟨u, hu, rfl⟩ := mapNext_eq_next.1 h
      exact .inr (.inr ⟨m, u, hr, hc, hu, rfl⟩)

/-- A chosen move is one of the enabled ones. -/
theorem chosen_mem {s : State} {m : Move} (h : s.chosen = some m) : m ∈ enabledMoves s :=
  List.mem_of_getElem? h

/-- What an acceptance that answers a next state took off the channels, and how it was answered. -/
theorem acceptMove_next {p : PortId} {s t : State} (h : acceptMove p s = .next t) :
    ∃ c ws ds, takeCommand (s.port p).cmd (s.port p).dataIn = some (c, ws, ds) ∧
      ((∃ i, decodeCommand c = .ok i ∧ exec i (s.consume p ws ds) = .next t) ∨
       (∃ e, decodeCommand c = .error e ∧ t = (s.consume p ws ds).post p .invalidArgument)) := by
  unfold acceptMove at h
  split at h
  · simp at h
  · next c ws ds hc =>
    refine ⟨c, ws, ds, hc, ?_⟩
    split at h
    · next i hi => exact .inl ⟨i, hi, h⟩
    · next e he => exact .inr ⟨e, he, by simpa using h.symm⟩

end Sys2Proof.Machine
end

