-- ==== Sys2Proof/Laws/Inv.lean ====
section
/-! SUPPORT. Which single updates keep the invariant of the machine, and on what terms. -/

namespace Sys2Proof.Machine

/-- Writing a port keeps the invariant when it leaves the status codes alone. -/
theorem inv_setPort {s : State} (hi : Inv s) (p : PortId) (v : Port) (hp : ∀ k, p = .slot k → k < 65536)
    (hv : v.resp = (s.port p).resp) : Inv (s.setPort p v) where
  cfg := by simpa using hi.cfg
  slots_wf := by cases p <;> exact hi.slots_wf
  ports_wf := by
    cases p
    · exact hi.ports_wf
    · exact sparseWf_set _ _ hi.ports_wf
  slots_below := by cases p <;> exact hi.slots_below
  ports_below := by
    cases p with
    | bringUp => exact hi.ports_below
    | slot k => exact sparseBelow_set _ (hp k rfl) hi.ports_below
  lock_iff := by simpa using hi.lock_iff
  codes := by
    intro q b hb
    by_cases hq : q = p
    · subst hq
      simp [hv] at hb
      exact hi.codes _ b hb
    · simp [hq] at hb
      exact hi.codes _ b hb
  engine := by simpa using hi.engine
  slots := by simpa using hi.slots

/-- Answering a status keeps the invariant (R100). -/
theorem inv_post {s : State} (hi : Inv s) (p : PortId) (st : Status) (hp : ∀ k, p = .slot k → k < 65536) :
    Inv (s.post p st) where
  cfg := by simpa using hi.cfg
  slots_wf := by cases p <;> exact hi.slots_wf
  ports_wf := by
    cases p
    · exact hi.ports_wf
    · exact sparseWf_set _ _ hi.ports_wf
  slots_below := by cases p <;> exact hi.slots_below
  ports_below := by
    cases p with
    | bringUp => exact hi.ports_below
    | slot k => exact sparseBelow_set _ (hp k rfl) hi.ports_below
  lock_iff := by simpa using hi.lock_iff
  codes := by
    intro q b hb
    by_cases hq : q = p
    · subst hq
      simp at hb
      rcases hb with hb | rfl
      · exact hi.codes _ b hb
      · cases st <;> decide
    · simp [hq] at hb
      exact hi.codes _ b hb
  engine := by simpa using hi.engine
  slots := by simpa using hi.slots

/-- Writing one slot, the lock and the engine together keeps the invariant when the lock is held exactly by the slot
at `FEED` or `REL` afterwards, and the new slot and engine are good. -/
theorem inv_setSlot {s : State} (hi : Inv s) {k : Nat} {v : Slot} (hk : k < s.cfg.nCtx) {l : Lock} {e : Engine}
    (hl : ∀ j, l = .held j ↔ holdsLock (if j = k then v else s.slot j).seq = true) (he : EngineInv e)
    (hv : SlotInv s.cfg s.hwReady v) : Inv (((s.setLock l).setEng e).setSlot k v) where
  cfg := hi.cfg
  slots_wf := sparseWf_set _ _ hi.slots_wf
  ports_wf := hi.ports_wf
  slots_below := sparseBelow_set _ hk hi.slots_below
  ports_below := hi.ports_below
  lock_iff := by
    intro j
    simpa [slot_setSlot] using hl j
  codes := by simpa using hi.codes
  engine := he
  slots := by
    intro j
    by_cases hj : j = k
    · subst hj
      simpa using hv
    · simpa [hj] using hi.slots j

/-- Writing one slot keeps the invariant when the slot does not take or leave the lock. -/
theorem inv_setSlot_of_same_lock {s : State} (hi : Inv s) {k : Nat} {v : Slot} (hk : k < s.cfg.nCtx)
    (hl : holdsLock v.seq = holdsLock (s.slot k).seq) (hv : SlotInv s.cfg s.hwReady v) : Inv (s.setSlot k v) := by
  refine inv_setSlot hi hk (l := s.lock) (e := s.eng) (fun j => ?_) hi.engine hv
  by_cases hj : j = k
  · subst hj
    simp [hl, hi.lock_iff]
  · simp [hj, hi.lock_iff]

/-- A slot that is not as after reset is one of the machine's. -/
theorem lt_nCtx_of_ne_reset {s : State} (hi : Inv s) {k : Nat} (h : s.slot k ≠ Slot.reset) : k < s.cfg.nCtx := by
  by_contra hh
  exact h (sparseGet_eq_default_of_below hi.slots_below (by omega))

/-- A busy slot is one of the machine's. -/
theorem lt_nCtx_of_busy {s : State} (hi : Inv s) {k : Nat} (h : (s.slot k).seq ≠ .idle) : k < s.cfg.nCtx :=
  lt_nCtx_of_ne_reset hi fun e => h (by rw [e]; rfl)

theorem nCtx_le {s : State} (hi : Inv s) : s.cfg.nCtx ≤ 65536 := by
  have := hi.cfg
  simp [Config.wf] at this
  omega

/-- What an error leaves in a slot is good (R250, R252). -/
theorem slotInv_errorSlot {cfg : Config} {b : Bool} {v : Slot} (h : SlotInv cfg b v) (e : Status)
    (he : e = .invalidState → v.seq = .idle) : SlotInv cfg b (errorSlot e v) := by
  by_cases hh : e = .invalidState
  · subst hh
    have hv := he rfl
    refine ⟨fun hb => ⟨?_, rfl⟩, by simp [errorSlot], by simp [errorSlot], by simp [errorSlot], ?_, ?_,
      by simp [errorSlot]⟩
    · simpa [errorSlot] using (h.not_ready hb).1
    · simpa [errorSlot] using h.ctx_inv
    · intro c hc _
      have := h.idle_inv c (by simpa [errorSlot] using hc) hv
      exact ⟨this.occ_lt, this.occ_eq, this.first_eq⟩
  · constructor <;> simp [errorSlot, hh]

/-- The error protocol keeps the invariant when the slot does not hold the lock afterwards (R250). -/
theorem inv_raise {s : State} (hi : Inv s) {k : Nat} (e : Status) (hk : k < s.cfg.nCtx) {l : Lock}
    (hl : ∀ j, l = .held j ↔ (j ≠ k ∧ holdsLock (s.slot j).seq = true))
    (he : e = .invalidState → (s.slot k).seq = .idle) : Inv ((s.setLock l).raise k e) := by
  unfold State.raise
  refine inv_post (inv_setSlot hi hk (l := l) (e := s.eng) (fun j => ?_) hi.engine
    (slotInv_errorSlot (hi.slots k) e he)) (.slot k) e ?_
  · by_cases hj : j = k
    · subst hj
      simp [hl, errorSlot, holdsLock]
    · simp [hj, hl]
  · intro j hj
    simp at hj
    subst hj
    exact lt_of_lt_of_le hk (nCtx_le hi)

/-- The invariant speaks of nothing but these fields: not of the reset request, nor of the draws. -/
theorem inv_of_same {s t : State} (hi : Inv s) (hc : t.cfg = s.cfg) (hr : t.hwReady = s.hwReady)
    (hl : t.lock = s.lock) (he : t.eng = s.eng) (hs : t.slots = s.slots) (hb : t.bringUp = s.bringUp)
    (hp : t.ports = s.ports) : Inv t := by
  obtain ⟨c, r, l, e, v, b, p, q, d, n⟩ := t
  simp only at hc hr hl he hs hb hp
  subst hc hr hl he hs hb hp
  exact ⟨hi.cfg, hi.slots_wf, hi.ports_wf, hi.slots_below, hi.ports_below, hi.lock_iff,
    fun x => by cases x; exacts [hi.codes .bringUp, hi.codes (.slot _)], hi.engine, hi.slots⟩

/-- Consuming a draw keeps the invariant. -/
theorem inv_advanceDraw {s : State} (hi : Inv s) : Inv s.advanceDraw :=
  inv_of_same hi rfl rfl rfl rfl rfl rfl rfl

/-- Choosing the coming step keeps the invariant. -/
theorem inv_aim {s : State} (hi : Inv s) (m : Move) : Inv (s.aim m) := inv_of_same hi rfl rfl rfl rfl rfl rfl rfl

end Sys2Proof.Machine
end

