-- ==== Sys2Proof/Laws/Step.lean ====
section
/-! SUPPORT. Everything `exec` and a move can do when they answer a next state, and which moves are enabled. -/

namespace Sys2Proof.Machine

/-! ### The meanings: everything a next state of `exec` can be -/

/-- `STARTS`: the four ways to a next state (R142). -/
theorem starts_next {m : Mode} {sid : BitVec 16} {c : Command} {s t : State} (h : starts m sid c s = .next t) :
    (s.isIdle (sidNat sid) = true ∧ s.cfg.nCtx ≤ sidNat sid ∧
      t = s.post (.slot (sidNat sid)) .invalidArgument) ∨
    (s.isIdle (sidNat sid) = false ∧ t = s.putBack (.slot (sidNat sid)) c) ∨
    (s.isIdle (sidNat sid) = true ∧ sidNat sid < s.cfg.nCtx ∧ s.hwReady = true ∧
      t = (s.setCtx (sidNat sid) (freshCtx m)).post (.slot (sidNat sid)) .ok) ∨
    (s.isIdle (sidNat sid) = true ∧ sidNat sid < s.cfg.nCtx ∧ s.hwReady = false ∧
      t = s.post (.slot (sidNat sid)) .hardwareUnavailable) := by
  unfold starts at h
  rcases whenAccepted_cases s sid c (if s.hwReady = true then
      .next ((s.setCtx (sidNat sid) (freshCtx m)).post (.slot (sidNat sid)) .ok)
      else .next (s.post (.slot (sidNat sid)) .hardwareUnavailable)) with ⟨a, b, e⟩ | ⟨a, b, e⟩ | ⟨a, e⟩ <;>
    rw [e] at h
  · split at h <;> simp at h <;> simp_all
  · simp at h
    simp_all
  · simp at h
    simp_all

/-- Everything a next state of `exec` can be: bring-up; a slot number out of range; a command that waits; a fresh
context; a `STARTS` before bring-up; an error of `UPDATE` or `FINISH`; an accepted `UPDATE`; an accepted
`FINISH`. -/
theorem exec_next {i : Instr} {s t : State} (h : exec i s = .next t) :
    (i = .hwinit ∧ s.hwReady = false ∧ t = bringUpResult s s.draw.initOk) ∨
    (∃ sid, instrSid i = some sid ∧ s.isIdle (sidNat sid) = true ∧ s.cfg.nCtx ≤ sidNat sid ∧
      t = s.post (.slot (sidNat sid)) .invalidArgument) ∨
    (∃ sid, instrSid i = some sid ∧ s.isIdle (sidNat sid) = false ∧
      t = s.putBack (.slot (sidNat sid)) (encode i)) ∨
    (∃ sid m, instrSid i = some sid ∧ startsMode i = some m ∧ s.isIdle (sidNat sid) = true ∧
      sidNat sid < s.cfg.nCtx ∧ s.hwReady = true ∧
      t = (s.setCtx (sidNat sid) (freshCtx m)).post (.slot (sidNat sid)) .ok) ∨
    (∃ sid m, instrSid i = some sid ∧ startsMode i = some m ∧ s.isIdle (sidNat sid) = true ∧
      sidNat sid < s.cfg.nCtx ∧ s.hwReady = false ∧
      t = s.post (.slot (sidNat sid)) .hardwareUnavailable) ∨
    (∃ sid e, instrSid i = some sid ∧ startsMode i = none ∧ s.isIdle (sidNat sid) = true ∧
      sidNat sid < s.cfg.nCtx ∧ t = s.raise (sidNat sid) e ∧
      ((e = .hardwareUnavailable ∧ s.hwReady = false) ∨
        (e = .invalidArgument ∧ s.hwReady = true ∧ nullArgument i = true ∧
          ∃ c, (s.slot (sidNat sid)).ctx = some c) ∨
        (e = .invalidState ∧ s.hwReady = true ∧ nullArgument i = false ∧
          ∃ c, (s.slot (sidNat sid)).ctx = some c ∧ c.lifecycle = .terminal))) ∨
    (∃ nullbuf sid len data c, i = .update nullbuf sid len data ∧ s.isIdle (sidNat sid) = true ∧
      sidNat sid < s.cfg.nCtx ∧ s.hwReady = true ∧ (s.slot (sidNat sid)).ctx = some c ∧
      c.lifecycle ≠ .terminal ∧ (nullbuf = true → len = 0#32) ∧
      t = s.setSlot (sidNat sid) (updateSlot (s.slot (sidNat sid)) c nullbuf len data)) ∨
    (∃ nullbuf sid c, i = .finish nullbuf sid ∧ s.isIdle (sidNat sid) = true ∧ sidNat sid < s.cfg.nCtx ∧
      s.hwReady = true ∧ (s.slot (sidNat sid)).ctx = some c ∧ c.lifecycle ≠ .terminal ∧ nullbuf = false ∧
      t = s.setSlot (sidNat sid) (finishSlot (s.slot (sidNat sid)) c)) := by
  have key := fun sid m (h1 : instrSid i = some sid) (h2 : startsMode i = some m) =>
    starts_next (t := t) (by rw [← exec_of_startsMode h2 h1]; exact h)
  cases i with
  | hwinit =>
    simp only [exec, execHwinit] at h
    split at h
    · simp at h
    · simp at h
      left
      simp_all
  | update nullbuf sid len data =>
    rw [exec_update] at h
    rcases whenAccepted_cases s sid (encode (.update nullbuf sid len data))
        (whenPermitted s (sidNat sid) (nullbuf && len != 0#32) fun c =>
          .next (s.setSlot (sidNat sid) (updateSlot (s.slot (sidNat sid)) c nullbuf len data))) with
      ⟨a, b, e⟩ | ⟨a, b, e⟩ | ⟨a, e⟩ <;> rw [e] at h
    · rcases whenPermitted_cases s (sidNat sid) (nullbuf && len != 0#32) fun c =>
          .next (s.setSlot (sidNat sid) (updateSlot (s.slot (sidNat sid)) c nullbuf len data)) with
        ⟨hr, e⟩ | ⟨hr, hc, e⟩ | ⟨c, hr, hc, hb, e⟩ | ⟨c, hr, hc, hb, hl, e⟩ | ⟨c, hr, hc, hb, hl, e⟩ <;>
        rw [e] at h <;> simp only [Host.Outcome.next.injEq, reduceCtorEq] at h <;> subst h
      · right; right; right; right; right; left
        exact ⟨sid, _, rfl, rfl, a, b, rfl, .inl ⟨rfl, hr⟩⟩
      · right; right; right; right; right; left
        exact ⟨sid, _, rfl, rfl, a, b, rfl, .inr (.inl ⟨rfl, hr, hb, c, hc⟩)⟩
      · right; right; right; right; right; left
        exact ⟨sid, _, rfl, rfl, a, b, rfl, .inr (.inr ⟨rfl, hr, hb, c, hc, hl⟩)⟩
      · right; right; right; right; right; right; left
        exact ⟨nullbuf, sid, len, data, c, rfl, a, b, hr, hc, hl, by rintro rfl; simpa using hb, rfl⟩
    · simp at h
      right; left
      exact ⟨sid, rfl, a, b, h.symm⟩
    · simp at h
      right; right; left
      exact ⟨sid, rfl, a, h.symm⟩
  | finish nullbuf sid =>
    rw [exec_finish] at h
    rcases whenAccepted_cases s sid (encode (.finish nullbuf sid))
        (whenPermitted s (sidNat sid) nullbuf fun c =>
          .next (s.setSlot (sidNat sid) (finishSlot (s.slot (sidNat sid)) c))) with
      ⟨a, b, e⟩ | ⟨a, b, e⟩ | ⟨a, e⟩ <;> rw [e] at h
    · rcases whenPermitted_cases s (sidNat sid) nullbuf fun c =>
          .next (s.setSlot (sidNat sid) (finishSlot (s.slot (sidNat sid)) c)) with
        ⟨hr, e⟩ | ⟨hr, hc, e⟩ | ⟨c, hr, hc, hb, e⟩ | ⟨c, hr, hc, hb, hl, e⟩ | ⟨c, hr, hc, hb, hl, e⟩ <;>
        rw [e] at h <;> simp only [Host.Outcome.next.injEq, reduceCtorEq] at h <;> subst h
      · right; right; right; right; right; left
        exact ⟨sid, _, rfl, rfl, a, b, rfl, .inl ⟨rfl, hr⟩⟩
      · right; right; right; right; right; left
        exact ⟨sid, _, rfl, rfl, a, b, rfl, .inr (.inl ⟨rfl, hr, hb, c, hc⟩)⟩
      · right; right; right; right; right; left
        exact ⟨sid, _, rfl, rfl, a, b, rfl, .inr (.inr ⟨rfl, hr, hb, c, hc, hl⟩)⟩
      · right; right; right; right; right; right; right
        exact ⟨nullbuf, sid, c, rfl, a, b, hr, hc, hl, hb, rfl⟩
    · simp at h
      right; left
      exact ⟨sid, rfl, a, b, h.symm⟩
    · simp at h
      right; right; left
      exact ⟨sid, rfl, a, h.symm⟩
  | _ sid =>
    rcases key sid _ rfl rfl with ⟨a, b, e⟩ | ⟨a, e⟩ | ⟨a, b, c, e⟩ | ⟨a, b, c, e⟩
    · right; left
      exact ⟨sid, rfl, a, b, e⟩
    · right; right; left
      exact ⟨sid, rfl, a, e⟩
    · right; right; right; left
      exact ⟨sid, _, rfl, rfl, a, b, c, e⟩
    · right; right; right; right; left
      exact ⟨sid, _, rfl, rfl, a, b, c, e⟩

/-! ### Which moves are enabled -/

/-- The micro-operation of a sequencer that is enabled: the `requires` lines (R40, R121 to R124). -/
theorem seqMove_eq_some (s : State) (k : Nat) (v : Slot) (m : Move) :
    seqMove s k v = some m ↔
      (v.seq = .absorb ∧ m = .absorb k) ∨ (v.seq = .acq ∧ s.lock = .free ∧ m = .acquire k) ∨
      (v.seq = .acq ∧ heldByOther s.lock k = true ∧ s.cfg.lockTimeout = true ∧ m = .timeout k) ∨
      (v.seq = .feed ∧ s.lock = .held k ∧ m = .feed k) ∨
      (v.seq = .rel ∧ s.lock = .held k ∧ m = .release k) ∨ (v.seq = .extract ∧ m = .extract k) := by
  have flip : ∀ x : Move, x = m ↔ m = x := fun x => ⟨Eq.symm, Eq.symm⟩
  unfold seqMove
  cases hv : v.seq <;> simp
  · exact flip _
  · cases hl : s.lock with
    | free => simp [heldByOther, flip]
    | held j => by_cases hj : j = k <;> cases ht : s.cfg.lockTimeout <;> simp [heldByOther, hj, flip]
  · by_cases h : s.lock = .held k <;> simp [h, flip]
  · by_cases h : s.lock = .held k <;> simp [h, flip]
  · exact flip _

/-- A command can be accepted exactly as R96 says: it is whole, and its `OP` is `HWINIT` or reserved or its slot is
idle. -/
theorem portReady_iff (s : State) (q : Port) :
    portReady s q = true ↔ ∃ c ws ds, takeCommand q.cmd q.dataIn = some (c, ws, ds) ∧
      ((cwOp c.cw).toNat = 0 ∨ 3 < (cwOp c.cw).toNat ∨ (s.slot (cwSid c.cw).toNat).seq = .idle) := by
  unfold portReady
  split
  · next c ws ds h =>
    simp [h, acceptable, State.isIdle, BitVec.lt_def, ← BitVec.toNat_inj, or_assoc]
    rfl
  · next h => simp [h]

/-- In a state whose stores are canonical: an acceptance where a command can be accepted, and each sequencer's own
enabled micro-operation. -/
theorem mem_enabledMoves {s : State} (hs : sparseWf Slot.reset s.slots = true)
    (hp : sparseWf Port.empty s.ports = true) (m : Move) :
    m ∈ enabledMoves s ↔
      (∃ p, m = .accept p ∧ portReady s (s.port p) = true) ∨ ∃ k, seqMove s k (s.slot k) = some m := by
  simp only [enabledMoves, List.mem_append, List.mem_filterMap, Prod.exists]
  constructor
  · rintro ((h | ⟨k, v, hm, h⟩) | ⟨k, v, hm, h⟩)
    · split at h
      · next hr =>
        simp at h
        exact .inl ⟨_, h, hr⟩
      · simp at h
    · split at h
      · next hr =>
        simp at h
        exact .inl ⟨_, h.symm, by rw [State.port, ((mem_iff_of_sparseWf hp).1 hm).1]; exact hr⟩
      · simp at h
    · exact .inr ⟨k, by rw [State.slot, ((mem_iff_of_sparseWf hs).1 hm).1]; exact h⟩
  · rintro (⟨p, rfl, hr⟩ | ⟨k, h⟩)
    · cases p with
      | bringUp =>
        have : portReady s s.bringUp = true := hr
        simp [this]
      | slot k =>
        left; right
        refine ⟨k, s.port (.slot k), (mem_iff_of_sparseWf hp).2 ⟨rfl, fun e => ?_⟩, by simp [hr]⟩
        rw [e] at hr
        simp [portReady, Port.empty, takeCommand] at hr
    · right
      refine ⟨k, s.slot k, (mem_iff_of_sparseWf hs).2 ⟨rfl, fun e => ?_⟩, h⟩
      rw [e] at h
      simp [seqMove, Slot.reset] at h

/-- A step accepts only where a command can be accepted (R96). -/
theorem portReady_of_chosen {s : State} (hp : sparseWf Port.empty s.ports = true) {p : PortId}
    (h : s.chosen = some (.accept p)) : portReady s (s.port p) = true := by
  have hm := chosen_mem h
  simp only [enabledMoves, List.mem_append, List.mem_filterMap, Prod.exists] at hm
  rcases hm with (hm | ⟨k, v, hm, hr⟩) | ⟨k, v, hm, hr⟩
  · split at hm
    · next hr =>
      simp at hm
      subst hm
      exact hr
    · simp at hm
  · split at hr
    · next hr' =>
      simp at hr
      subst hr
      rw [State.port, ((mem_iff_of_sparseWf hp).1 hm).1]
      exact hr'
    · simp at hr
  · simp [seqMove_eq_some] at hr

/-- The slot a decoded instruction names is the word's `SID` (R91, R92). -/
theorem instrSid_of_decode {c : Command} {i : Instr} (h : decodeCommand c = .ok i) :
    cwOp c.cw ≤ 3#4 ∧ (instrSid i = none ∧ i = .hwinit ∧ cwOp c.cw = 0#4 ∨
      instrSid i = some (cwSid c.cw) ∧ (cwOp c.cw = 1#4 ∨ cwOp c.cw = 2#4 ∨ cwOp c.cw = 3#4)) := by
  have h3 : ∀ x : BitVec 4, ¬(3#4 < x) → ¬x = 0#4 → ¬x = 1#4 → ¬x = 2#4 → x = 3#4 := by decide
  simp only [decodeCommand] at h
  split_ifs at h <;> simp only [Except.ok.injEq] at h <;> subst h <;> simp_all [instrSid]

@[simp] theorem isIdle_consume (s : State) (p : PortId) (ws : List CmdWord) (ds : List Byte) (k : Nat) :
    (s.consume p ws ds).isIdle k = s.isIdle k := by simp [State.isIdle]

/-- An acceptance that can be taken never meets a busy slot (R96, R291). -/
theorem acceptMove_next_of_ready {s t : State} {p : PortId} (hr : portReady s (s.port p) = true)
    (h : acceptMove p s = .next t) :
    ∃ c ws ds, takeCommand (s.port p).cmd (s.port p).dataIn = some (c, ws, ds) ∧
      ((∃ e, decodeCommand c = .error e ∧ t = (s.consume p ws ds).post p .invalidArgument) ∨
       (∃ i, decodeCommand c = .ok i ∧ exec i (s.consume p ws ds) = .next t ∧
          ∀ sid, instrSid i = some sid → s.isIdle (sidNat sid) = true)) := by
  obtain ⟨c, ws, ds, ht, ⟨i, hd, he⟩ | ⟨e, hd, rfl⟩⟩ := acceptMove_next h
  · refine ⟨c, ws, ds, ht, .inr ⟨i, hd, he, fun sid hs => ?_⟩⟩
    rw [portReady, ht] at hr
    simp only [acceptable, Bool.or_eq_true, beq_iff_eq, decide_eq_true_eq] at hr
    obtain ⟨ho, ⟨hn, -⟩ | ⟨hk, h1⟩⟩ := instrSid_of_decode hd
    · simp [hn] at hs
    · rw [hs] at hk
      simp only [Option.some.injEq] at hk
      subst hk
      rcases hr with (h0 | h4) | hi
      · rw [h0] at h1
        simp at h1
      · exact absurd ho (by simpa using h4)
      · exact hi
  · exact ⟨c, ws, ds, ht, .inl ⟨e, hd, rfl⟩⟩

/-- The instruction a step accepts is the one decoded. -/
theorem accepting_of_decode {s : State} {p : PortId} {c : Command} {ws : List CmdWord} {ds : List Byte} {i : Instr}
    (hc : s.chosen = some (.accept p))
    (ht : takeCommand (s.port p).cmd (s.port p).dataIn = some (c, ws, ds)) (hd : decodeCommand c = .ok i) :
    s.accepting = some i := by
  simp [State.accepting, hc, State.headInstr, decode, ht, hd]

/-- A step that accepts an illegal word accepts no instruction. -/
theorem accepting_of_decode_error {s : State} {p : PortId} {c : Command} {ws : List CmdWord} {ds : List Byte}
    {e : DecodeError} (hc : s.chosen = some (.accept p))
    (ht : takeCommand (s.port p).cmd (s.port p).dataIn = some (c, ws, ds)) (hd : decodeCommand c = .error e) :
    s.accepting = none := by
  simp [State.accepting, hc, State.headInstr, decode, ht, hd]

/-! ### What a sequencer's micro-operation leaves alone -/

/-- A micro-operation of slot `k` leaves every other slot alone (R63). -/
theorem takeMove_other_slot {m : Move} {s t : State} {k : Nat} (hm : m.slot? = some k) (h : takeMove m s = .next t)
    (j : Nat) (hj : j ≠ k) : t.slot j = s.slot j := by
  cases m <;> simp only [takeMove, Move.slot?, reduceCtorEq, Option.some.injEq] at h hm <;> subst hm
  · obtain ⟨c, -, -, ⟨-, -, rfl⟩ | ⟨-, -, rfl⟩ | ⟨-, rfl⟩⟩ := absorb_next h <;> simp [hj]
  · obtain ⟨-, -, rfl⟩ := acquire_next h
    simp [hj]
  · obtain ⟨-, -, -, rfl⟩ := acquireTimeout_next h
    simp [hj]
  · obtain ⟨c, -, -, -, -, rfl⟩ := feedBlock_next h
    simp [hj]
  · obtain ⟨-, -, ⟨-, rfl⟩ | ⟨-, rfl⟩⟩ := release_next h <;> simp [hj]
  · obtain ⟨c, -, -, -, rfl⟩ := extract_next h
    simp [hj]

/-- A micro-operation takes nothing off any command channel or data-in stream (R77). -/
theorem takeMove_channels {m : Move} {s t : State} {k : Nat} (hm : m.slot? = some k) (h : takeMove m s = .next t)
    (p : PortId) : (t.port p).cmd = (s.port p).cmd ∧ (t.port p).dataIn = (s.port p).dataIn := by
  cases m <;> simp only [takeMove, Move.slot?, reduceCtorEq, Option.some.injEq] at h hm <;> subst hm <;>
    rename_i k
  · obtain ⟨c, -, -, ⟨-, -, rfl⟩ | ⟨-, -, rfl⟩ | ⟨-, rfl⟩⟩ := absorb_next h
    · by_cases hp : p = .slot k
      · subst hp
        simp
      · simp [hp]
    · simp
    · simp
  · obtain ⟨-, -, rfl⟩ := acquire_next h
    simp
  · obtain ⟨-, -, -, rfl⟩ := acquireTimeout_next h
    by_cases hp : p = .slot k
    · subst hp
      simp
    · simp [hp]
  · obtain ⟨c, -, -, -, -, rfl⟩ := feedBlock_next h
    simp
  · obtain ⟨-, -, ⟨-, rfl⟩ | ⟨-, rfl⟩⟩ := release_next h
    · by_cases hp : p = .slot k
      · subst hp
        simp
      · simp [hp]
    · simp
  · obtain ⟨c, -, -, -, rfl⟩ := extract_next h
    by_cases hp : p = .slot k
    · subst hp
      simp
    · simp [hp]

end Sys2Proof.Machine
end

