-- ==== Sys2Proof/Tests/Slice0.lean ====
section
/-! SUPPORT. The model's own tests: the checks of WellFormed, decoding by words written out from the spec, single
steps against the spec's vectors (95_test_vectors.md), and for every statement with hypotheses a witness that meets
them. -/

namespace Sys2Proof.Tests

open Sys2Proof Sys2Proof.Machine

/-! ### States the tests start from -/

/-- The next state of an outcome, if it is one. -/
def nextOf : Host.Outcome State Fault Refusal → Option State
  | .next s => some s
  | .fault _ => none
  | .refused _ => none

/-- The refusal of an outcome, if it is one. -/
def refusalOf : Host.Outcome State Fault Refusal → Option Refusal
  | .next _ => none
  | .fault _ => none
  | .refused r => some r

/-- Two slots, a lock wait that may give up, an engine that may fail (the parameters of V-ERR and V-BUSY). -/
def cfg2 : Config := { nCtx := 2, lockTimeout := true, hwCanFail := true, engine := .fips }

/-- Two slots on an engine that does not fail. -/
def cfgSafe : Config := { nCtx := 2, lockTimeout := false, hwCanFail := false, engine := .fips }

/-- After a successful bring-up. -/
def up (c : Config) : State := (State.resetOf c).setReady true

/-- A context with an empty buffer. -/
def mkCtx (m : Mode) (total : Counter) (occ : Nat) (first : Bool) (l : Lifecycle) (words : List Word) : Ctx :=
  { freshCtx m with total := total, occ := occ, firstBlock := first, lifecycle := l, state := words }

/-- A slot between commands. -/
def idleSlot (c : Ctx) : Slot := { Slot.reset with ctx := some c }

/-- A slot inside a command. -/
def busySlot (q : SeqPos) (o : SeqOp) (pend : List Byte) (c : Ctx) : Slot :=
  { ctx := some c, seq := q, op := some o, pend := pend, err := .none }

/-- The draws of a run whose first step sees these. -/
def withDraw (s : State) (initOk opError readError : Bool) : State :=
  { s with tape := [{ turn := 0, initOk := initOk, opError := opError, readError := readError }] }

def abc : List Byte := [0x61, 0x62, 0x63]

/-- Eight words, for a saved state whose values do not matter. -/
def words8 : List Word := List.replicate 8 5

/-! ### WellFormed: each check refuses an ill-formed term -/

theorem test_wf_update_short : (Instr.update false 0 3 [0x61, 0x62]).wf = false := by decide
theorem test_wf_update_null_with_data : (Instr.update true 0 1 [0x61]).wf = false := by decide
theorem test_wf_update : (Instr.update false 0 3 abc).wf = true ∧ (Instr.update true 0 5 []).wf = true := by decide

/-! ### Decoding: words written out bit by bit from R91 and R97 (95_test_vectors.md section 2.1) -/

theorem test_decode_hwinit :
    decodeCommand ⟨0b0000_00_0_0_0_0000000_0000000000000000, 0, []⟩ = .ok .hwinit := by decide
theorem test_decode_starts_sha1 :
    decodeCommand ⟨0b0001_00_0_0_0_0000000_0001001000110100, 0, []⟩ = .ok (.startsSha1 0x1234) := by decide
theorem test_decode_starts_sha224 :
    decodeCommand ⟨0b0001_01_0_1_0_0000000_0000000000000001, 0, []⟩ = .ok (.startsSha224 1) := by decide
theorem test_decode_starts_sha256 :
    decodeCommand ⟨0b0001_01_0_0_0_0000000_0000000000000001, 0, []⟩ = .ok (.startsSha256 1) := by decide
theorem test_decode_starts_sha384 :
    decodeCommand ⟨0b0001_10_0_1_0_0000000_0000000000000001, 0, []⟩ = .ok (.startsSha384 1) := by decide
theorem test_decode_starts_sha512 :
    decodeCommand ⟨0b0001_10_0_0_0_0000000_0000000000000001, 0, []⟩ = .ok (.startsSha512 1) := by decide
theorem test_decode_update :
    decode [0b0010_00_0_0_0_0000000_0000000000000000, 3] (abc ++ [7]) = .ok (.update false 0 3 abc, [], [7]) := by
  decide
theorem test_decode_update_null :
    decode [0b0010_00_0_0_1_0000000_0000000000000000, 5] [7] = .ok (.update true 0 5 [], [], [7]) := by decide
theorem test_decode_finish :
    decodeCommand ⟨0b0011_00_0_0_0_0000000_0000000000000001, 0, []⟩ = .ok (.finish false 1) := by decide
theorem test_decode_finish_null :
    decodeCommand ⟨0b0011_00_0_0_1_0000000_0000000000000000, 0, []⟩ = .ok (.finish true 0) := by decide

/-- The encoder spells the same words (95_test_vectors.md section 2.1). -/
theorem test_encode_words :
    (encode .hwinit).words = [0x00000000] ∧ (encode (.startsSha1 0x1234)).words = [0x10001234] ∧
      (encode (.startsSha224 1)).words = [0x15000001] ∧ (encode (.startsSha256 1)).words = [0x14000001] ∧
      (encode (.startsSha384 1)).words = [0x19000001] ∧ (encode (.startsSha512 1)).words = [0x18000001] ∧
      (encode (.update false 0 3 abc)).words = [0x20000000, 3] ∧
      (encode (.update true 0 5 [])).words = [0x20800000, 5] ∧
      (encode (.finish true 0)).words = [0x30800000] := by decide

/-- The illegal words of 95_test_vectors.md section 2.2, but for those illegal by `SID` alone. -/
theorem test_decode_illegal :
    ([0x40000000, 0xF0000000, 0x00000001, 0x00800000, 0x1C000000, 0x11000000, 0x12000000, 0x10010000, 0x10800000,
      0x24000000, 0x21000000, 0x34000000, 0x30400000] : List CmdWord).all
      (fun w => match decodeCommand ⟨w, 0, []⟩ with | .ok _ => false | .error _ => true) = true := by decide

/-- A `LEN` word or data byte that has not arrived yet: the command waits (R94). -/
theorem test_decode_incomplete :
    decode [0x20000000] [] = .error .incomplete ∧ decode [0x20000000, 3] [0x61, 0x62] = .error .incomplete := by
  decide

/-- The written forms of R102. -/
theorem test_assembler :
    (AsmLine.update 0 (.text abc)).instr = some (.update false 0 3 abc) ∧
      (AsmLine.update 1 (.null 5)).instr = some (.update true 1 5 []) ∧
      (AsmLine.starts 1 .sha224).instr = some (.startsSha224 1) ∧
      (AsmLine.finish 2 true).instr = some (.finish true 2) ∧ (AsmLine.starts 65536 .sha1).instr = none := by decide

/-! ### A word of every row runs as the first step after reset -/

/-- The decoder reads each row's words. -/
theorem test_table_decode :
    decodeTableWord 32 0x00000000 = some .hwinit ∧ decodeTableWord 32 0x10000000 = some (.startsSha1 0) ∧
      decodeTableWord 32 0x14000005 = some (.startsSha256 5) ∧ decodeTableWord 32 0x15000000 = some (.startsSha224 0) ∧
      decodeTableWord 32 0x18000000 = some (.startsSha512 0) ∧ decodeTableWord 32 0x1900FFFF = some (.startsSha384 0xFFFF) ∧
      decodeTableWord 32 0x20000000 = some (.update false 0 0 []) ∧
      decodeTableWord 64 0x220000001 = some (.update false 1 2 [0, 0]) ∧
      decodeTableWord 32 0x30800000 = some (.finish true 0) := by decide

/-- Before bring-up every session command answers `HardwareUnavailable` (R247 step 2; V-ERR 1 to 3). -/
theorem test_first_step :
    ([0x10000000, 0x14000000, 0x15000000, 0x18000000, 0x19000000, 0x20000000, 0x30000000] : List Nat).all
      (fun w => (nextOf (step (State.reset.withFetchWord 32 w))).map (fun t => (t.port (.slot 0)).resp) == some [0x01])
      = true := by decide +kernel

/-- `HWINIT` is accepted as the first step, whatever it draws. -/
theorem test_first_step_hwinit :
    ∃ t, step (State.reset.withFetchWord 32 0) = .next t := ⟨_, rfl⟩

/-! ### HWINIT and STARTS (V-INIT, V-ST) -/

/-- V-INIT 1 and 2. -/
theorem test_hwinit_draws :
    (nextOf (exec .hwinit (withDraw (State.resetOf cfg2) true false false))).map
        (fun t => (t.hwReady, t.bringUp.resp)) = some (true, [0x00]) ∧
      (nextOf (exec .hwinit (withDraw (State.resetOf cfg2) false false false))).map
        (fun t => (t.hwReady, t.bringUp.resp)) = some (false, [0x01]) := by decide

/-- V-INIT 3. -/
theorem test_hwinit_second : refusalOf (exec .hwinit (up cfg2)) = some .secondBringUp := by decide

/-- V-ST 3: from a terminal context; nothing of the old run remains. -/
theorem test_starts_sha1 :
    (nextOf (exec (.startsSha1 0) ((up cfg2).setSlot 0 (idleSlot (mkCtx .sha256 3 0 false .terminal words8))))).map
        (fun t => ((t.slot 0).ctx, (t.port (.slot 0)).resp)) = some (some (freshCtx .sha1), [0x00]) := by decide

/-- V-ST 4: in mid-message. -/
theorem test_starts_sha384 :
    (nextOf (exec (.startsSha384 1) ((up cfg2).setSlot 1 (idleSlot (mkCtx .sha512 200 72 false .accumulating words8))))).map
        (fun t => ((t.slot 1).ctx, (t.port (.slot 1)).resp)) = some (some (freshCtx .sha384), [0x00]) := by decide

/-- V-ST 2 and 5: the other three modes. -/
theorem test_starts_modes :
    (nextOf (exec (.startsSha224 0) (up cfg2))).map (fun t => (t.slot 0).ctx.map Ctx.mode) = some (some .sha224) ∧
      (nextOf (exec (.startsSha256 0) (up cfg2))).map (fun t => (t.slot 0).ctx.map Ctx.mode) = some (some .sha256) ∧
      (nextOf (exec (.startsSha512 0) (up cfg2))).map (fun t => (t.slot 0).ctx.map Ctx.mode) = some (some .sha512) := by
  decide

/-! ### UPDATE (V-UPD, V-CARRY, V-ERR) -/

/-- V-UPD 1: acceptance. -/
theorem test_update_accept :
    (nextOf (exec (.update false 0 3 abc) ((up cfg2).setSlot 0 (idleSlot (freshCtx .sha256))))).map
        (fun t => ((t.slot 0).ctx.map (fun c => (c.total, c.lifecycle)), (t.slot 0).pend, (t.slot 0).seq)) =
      some (some (3, .accumulating), abc, .absorb) := by decide

/-- V-ERR 9 before V-ERR 7: the null-buffer test comes before the terminal test. -/
theorem test_update_errors :
    (nextOf (exec (.update true 0 5 []) ((up cfg2).setSlot 0 (idleSlot (mkCtx .sha256 3 0 false .terminal words8))))).map
        (fun t => ((t.slot 0).ctx, (t.port (.slot 0)).resp)) = some (none, [0x03]) ∧
      (nextOf (exec (.update false 0 0 []) ((up cfg2).setSlot 0 (idleSlot (mkCtx .sha256 3 0 false .terminal words8))))).map
        (fun t => ((t.slot 0).ctx.map Ctx.lifecycle, (t.port (.slot 0)).resp)) = some (some .terminal, [0x04]) := by
  decide

/-- V-CARRY. -/
theorem test_counter_carry :
    counterAdd .f256 0xFFFFFFF0 0x20 = 0x100000010 ∧
      counterAdd .f512 0xFFFFFFFFFFFFFFFF 1 = 0x10000000000000000 ∧
      counterAdd .f256 0xFFFFFFFFFFFFFFFF 2 = 1 := by decide

/-! ### FINISH (V-TAIL, V-ERR) -/

/-- The example of R181. -/
theorem test_finish_accept :
    (nextOf (exec (.finish false 0) ((up cfg2).setSlot 0 (idleSlot (mkCtx .sha256 3 3 true .accumulating []))))).map
        (fun t => ((t.slot 0).pend, (t.slot 0).seq)) =
      some ([0x80] ++ List.replicate 52 0 ++ [0, 0, 0, 0, 0, 0, 0, 0x18], .absorb) := by decide

/-- V-ERR 10, and V-ERR 4. -/
theorem test_finish_errors :
    (nextOf (exec (.finish true 0) ((up cfg2).setSlot 0 (idleSlot (mkCtx .sha256 3 0 false .terminal words8))))).map
        (fun t => ((t.slot 0).ctx, (t.port (.slot 0)).resp)) = some (none, [0x03]) ∧
      refusalOf (exec (.finish false 0) (up cfg2)) = some (.contextUnspecified 0) := by decide

/-- V-TAIL: zero-pad counts and length fields. -/
theorem test_tail :
    padZeros .f256 55 = 0 ∧ padZeros .f256 56 = 63 ∧ padZeros .f512 111 = 0 ∧ padZeros .f512 112 = 127 ∧
      padZeros .f1 6 = 49 ∧ bitLength .f256 0x20000000 = 0x100000000 ∧
      bitLength .f256 0x1FFFFFFFFFFFFFFF = 0xFFFFFFFFFFFFFFF8 ∧
      (tailBytes .f1 6 70).drop 50 = [0, 0, 0, 0, 0, 0, 2, 0x30] := by decide

/-! ### The micro-operations (V-UPD, V-DIG, V-HWERR, V-BUSY) -/

/-- The padded block of `abc`, families `F1` and `F256` (section 3.3). -/
def abcBlock : List Byte := abc ++ [0x80] ++ zeroBytes 52 ++ [0, 0, 0, 0, 0, 0, 0, 0x18]

/-- A slot at `FEED` with that block, the lock held. -/
def feeding (m : Mode) : State :=
  ((up cfg2).setLock (.held 0)).setSlot 0
    (busySlot .feed .finish [] { mkCtx m 3 64 true .accumulating [] with buffer := abcBlock ++ zeroBytes 64 })

/-- R163, corner case (a): the block fills up exactly. -/
theorem test_absorb_fills :
    (nextOf (absorb 0 ((up cfg2).setSlot 0 (busySlot .absorb .update [9, 8] (mkCtx .sha1 65 63 true .accumulating []))))).map
        (fun t => ((t.slot 0).ctx.map (fun c => (c.occ, c.buffer[63]?, c.buffer[64]?)), (t.slot 0).pend, (t.slot 0).seq)) =
      some (some (64, some 9, some 0), [8], .acq) := by decide

/-- The example of R123: SHA-1 of `abc`. -/
theorem test_feed_sha1 :
    (nextOf (feedBlock 0 (withDraw (feeding .sha1) true false false))).map (fun t => (t.slot 0).ctx.map Ctx.state) =
      some (some [0xa9993e36, 0x4706816a, 0xba3e2571, 0x7850c26c, 0x9cd0d89d]) := by decide +kernel

/-- V-224: SHA-224 of `abc`, all eight words. -/
theorem test_feed_sha224 :
    (nextOf (feedBlock 0 (withDraw (feeding .sha224) true false false))).map (fun t => (t.slot 0).ctx.map Ctx.state) =
      some (some [0x23097d22, 0x3405d822, 0x8642a477, 0xbda255b3, 0x2aadbce4, 0xbda0b3f7, 0xe36c9da7, 0xd2da082d]) := by
  decide +kernel

/-- S4: SHA-256 of `abc`. -/
theorem test_feed_sha256 :
    (nextOf (feedBlock 0 (withDraw (feeding .sha256) true false false))).map (fun t => (t.slot 0).ctx.map Ctx.state) =
      some (some [0xba7816bf, 0x8f01cfea, 0x414140de, 0x5dae2223, 0xb00361a3, 0x96177a9c, 0xb410ff61, 0xf20015ad]) := by
  decide +kernel

/-- V-384: SHA-384 of `abc`, all eight words. -/
theorem test_compress_sha384 :
    engineCompress cfg2 .f512 (engineIV cfg2 .sha384) (abc ++ [0x80] ++ zeroBytes 123 ++ [0x18]) =
      [0xcb00753f45a35e8b, 0xb5a03d699ac65007, 0x272c32ab0eded163, 0x1a8b605a43ff5bed,
       0x8086072ba1e7cc23, 0x58baeca134c825a7, 0xa303edfdf3b89cd7, 0x0c66918ece57ba15] := by decide +kernel

/-- V-2BLK: the second block of SHA-256 of `M56`, restoring the saved state (`HW_CONTINUE`). -/
theorem test_continue_sha256 :
    (hwContinue cfg2 false .sha256
        [0x85e655d6, 0x417a1795, 0x3363376a, 0x624cde5c, 0x76e09589, 0xcac5f811, 0xcc4b32c1, 0xf20e533a]
        (zeroBytes 62 ++ [0x01, 0xc0]) Engine.bottom).1.h =
      [0x248d6a61, 0xd20638b8, 0xe5c02693, 0x0c3e6039, 0xa33ce459, 0x64ff2167, 0xf6ecedd4, 0x19db06c1] := by
  decide +kernel

/-- V-HWERR: a failing block operation, then its `RELEASE`. -/
theorem test_hardware_error :
    (nextOf (feedBlock 0 (withDraw (feeding .sha256) true false true))).map
        (fun t => ((t.slot 0).err, (t.slot 0).seq, t.eng, t.lock)) =
      some (.hardwareError, .rel, Engine.bottom, .held 0) ∧
      (nextOf (release 0 (((up cfg2).setLock (.held 0)).setSlot 0
          { busySlot .rel .update [1, 2] (freshCtx .sha256) with err := .hardwareError }))).map
        (fun t => (t.lock, t.slot 0, (t.port (.slot 0)).resp)) = some (.free, Slot.reset, [0x05]) := by
  decide +kernel

/-- V-BUSY: the waiter gives up; the lock stays where it is. -/
theorem test_timeout :
    (nextOf (acquireTimeout 1 (((up cfg2).setLock (.held 0)).setSlot 1
        (busySlot .acq .update [] (mkCtx .sha256 64 64 true .accumulating []))))).map
      (fun t => (t.lock, t.slot 1, (t.port (.slot 1)).resp)) = some (.held 0, Slot.reset, [0x02]) := by decide

/-- The example of R200. -/
theorem test_extract :
    (nextOf (extract 0 ((up cfg2).setSlot 0 (busySlot .extract .finish []
        (mkCtx .sha1 3 0 false .accumulating [0xa9993e36, 0x4706816a, 0xba3e2571, 0x7850c26c, 0x9cd0d89d]))))).map
      (fun t => ((t.port (.slot 0)).digestOut, (t.port (.slot 0)).resp, (t.slot 0).ctx.map Ctx.lifecycle)) =
    some ([0xa9, 0x99, 0x3e, 0x36, 0x47, 0x06, 0x81, 0x6a, 0xba, 0x3e, 0x25, 0x71, 0x78, 0x50, 0xc2, 0x6c, 0x9c, 0xd0,
      0xd8, 0x9d], [0x00], some .terminal) := by decide

/-! ### Good states: the invariant at the states the witnesses below start from -/

theorem next_any {o : Host.Outcome State Fault Refusal} {p : State → Bool} (h : (nextOf o).any p = true) :
    ∃ t, o = .next t ∧ p t = true := by
  cases o <;> simp_all [nextOf]

theorem slotInv_none (cfg : Config) (b : Bool) : SlotInv cfg b Slot.reset := by
  constructor <;> simp [Slot.reset]

theorem inv_resetOf {c : Config} (h : c.wf = true) : Inv (State.resetOf c) where
  cfg := h
  slots_wf := rfl
  ports_wf := rfl
  slots_below := rfl
  ports_below := rfl
  lock_iff := by simp [holdsLock, Slot.reset]
  codes := by simp [Port.empty]
  engine := ⟨Nat.zero_le _, fun _ => rfl, by simp [Engine.bottom], by simp [Engine.bottom]⟩
  slots := fun k => by simpa using slotInv_none _ _

theorem inv_up {c : Config} (h : c.wf = true) : Inv (up c) where
  cfg := h
  slots_wf := rfl
  ports_wf := rfl
  slots_below := rfl
  ports_below := rfl
  lock_iff := by simp [up, holdsLock, Slot.reset]
  codes := by simp [up, Port.empty]
  engine := (inv_resetOf h).engine
  slots := fun k => by simpa [up] using slotInv_none _ _

/-- The state with slot 0 at `v` and the lock `l`. -/
def at0 (c : Config) (l : Lock) (v : Slot) : State := ((up c).setLock l).setSlot 0 v

/-- A good context without state words. -/
theorem ctxInv_mk {m : Mode} {total : Counter} {occ : Nat} {l : Lifecycle}
    (h : total.toNat < 2 ^ (2 * wordBits (famOf m)) ∧ occ ≤ blockSize (famOf m) ∧ (l = .init → total = 0)) :
    CtxInv (mkCtx m total occ true l []) :=
  ⟨h.1, by simp [mkCtx], by simp [mkCtx], by simp [mkCtx, freshCtx, zeroBytes], h.2.1, h.2.2⟩

/-- A good idle slot that holds a context. -/
theorem slotInv_idle {cfg : Config} {c : Ctx} (hc : CtxInv c) (hi : IdleInv (idleSlot c) c) :
    SlotInv cfg true (idleSlot c) := by
  constructor <;> simp [idleSlot, Slot.reset] <;> first | exact hc | exact hi

/-- A good busy slot. -/
theorem slotInv_busy {cfg : Config} {v : Slot} {c : Ctx} (hv : v.ctx = some c) (hq : v.seq ≠ .idle)
    (he : v.err = .hardwareError → v.seq = .rel ∧ cfg.hwCanFail = true) (hc : CtxInv c) (hb : BusyInv v c) :
    SlotInv cfg true v := by
  constructor
  · simp
  · exact he
  · exact fun h => absurd h hq
  · simp [hv]
  · rintro d hd
    rw [hv] at hd
    cases hd
    exact hc
  · exact fun _ _ h => absurd h hq
  · rintro d hd _
    rw [hv] at hd
    cases hd
    exact hb

theorem inv_at0 {c : Config} (h : c.wf = true) {l : Lock} {v : Slot}
    (hl : (l = .free ∧ holdsLock v.seq = false) ∨ (l = .held 0 ∧ holdsLock v.seq = true))
    (hv : SlotInv c true v) : Inv (at0 c l v) := by
  refine inv_setSlot (inv_up h) ?_ (l := l) (e := (up c).eng) (fun j => ?_) (inv_up h).engine hv
  · simp [Config.wf] at h
    exact h.1
  · rcases hl with ⟨rfl, hh⟩ | ⟨rfl, hh⟩ <;> rcases j with _ | j <;>
      simp_all [up, Slot.reset, holdsLock]

/-- An idle slot that has fed no byte, of any lifecycle. -/
theorem inv_idle (c : Config) (h : c.wf = true) (l : Lifecycle) :
    Inv (at0 c .free (idleSlot (mkCtx .sha256 0 0 true l []))) := by
  refine inv_at0 h (.inl ⟨rfl, rfl⟩) ?_
  cases l <;> exact slotInv_idle (ctxInv_mk (by decide +kernel)) (by constructor <;> decide +kernel)

/-- An idle slot just started. -/
theorem inv_started (c : Config) (h : c.wf = true) : Inv (at0 c .free (idleSlot (mkCtx .sha256 0 0 true .init []))) :=
  inv_idle c h .init

/-- An `UPDATE` of three bytes just accepted. -/
def absorbing3 : Slot := busySlot .absorb .update abc (mkCtx .sha256 3 0 true .accumulating [])

theorem inv_absorbing3 (c : Config) (h : c.wf = true) : Inv (at0 c .free absorbing3) :=
  inv_at0 h (.inl ⟨rfl, rfl⟩) <|
    slotInv_busy rfl (by decide) nofun (ctxInv_mk (by decide +kernel)) (by constructor <;> decide +kernel)

/-- A slot with a full buffer of zeros. -/
def full64 (q : SeqPos) : Slot := busySlot q .update [] (mkCtx .sha256 64 64 true .accumulating [])

theorem inv_waiting64 (c : Config) (h : c.wf = true) : Inv (at0 c .free (full64 .acq)) :=
  inv_at0 h (.inl ⟨rfl, rfl⟩) <|
    slotInv_busy rfl (by decide) nofun (ctxInv_mk (by decide +kernel)) (by constructor <;> decide +kernel)

theorem inv_feeding64 (c : Config) (h : c.wf = true) : Inv (at0 c (.held 0) (full64 .feed)) :=
  inv_at0 h (.inr ⟨rfl, rfl⟩) <|
    slotInv_busy rfl (by decide) nofun (ctxInv_mk (by decide +kernel)) (by constructor <;> decide +kernel)

/-- A slot at `REL` after an engine error. -/
def failed64 : Slot := { full64 .rel with err := .hardwareError }

theorem inv_failed64 : Inv (at0 cfg2 (.held 0) failed64) :=
  inv_at0 (by decide) (.inr ⟨rfl, rfl⟩) <|
    slotInv_busy rfl (by decide) (by decide) (ctxInv_mk (by decide +kernel)) (by constructor <;> decide +kernel)

/-- A `FINISH` of the empty message just accepted: its tail, one block, at `ABSORB`. -/
def finishing0 : Slot := busySlot .absorb .finish (tailBytes .f256 0 0) (mkCtx .sha256 0 0 true .init [])

theorem inv_finishing0 (c : Config) (h : c.wf = true) : Inv (at0 c .free finishing0) :=
  inv_at0 h (.inl ⟨rfl, rfl⟩) <|
    slotInv_busy rfl (by decide) nofun (ctxInv_mk (by decide +kernel)) (by constructor <;> decide +kernel)

/-- A slot at `EXTRACT` with the state words `h`. -/
def extracting (h : List Word) : Slot := busySlot .extract .finish [] (mkCtx .sha256 0 0 false .init h)

theorem inv_extracting {h : List Word} (hl : h.length = 8) (hw : ∀ w ∈ h, w.toNat < 2 ^ 32) :
    Inv (at0 cfgSafe .free (extracting h)) :=
  inv_at0 (by decide) (.inl ⟨rfl, rfl⟩) <| slotInv_busy (c := mkCtx .sha256 0 0 false .init h) rfl
    (by simp [extracting, busySlot]) (by simp [extracting, busySlot])
    ⟨by simp [mkCtx, freshCtx], hw, by simp [mkCtx, hl, stateWords, freshCtx, famOf], by simp [mkCtx, freshCtx],
      by simp [mkCtx], by simp [mkCtx]⟩
    (by constructor <;> simp [extracting, busySlot, mkCtx])

/-- The state words after the one block of the empty message. -/
def emptyHash : List Word := mdChain cfgSafe .sha256 (mdTail .f256 []) 1

theorem inv_extracting0 : Inv (at0 cfgSafe .free (extracting emptyHash)) :=
  inv_extracting (by rw [emptyHash, mdChain, length_engineCompress]; rfl)
    (by rw [emptyHash, mdChain]; exact normWords_lt)

/-- A whole command standing on the channels of slot 0. -/
def withCommand (s : State) (i : Instr) : State :=
  s.setPort (.slot 0) { Port.empty with cmd := (encode i).words, dataIn := (encode i).data }

theorem inv_withCommand {s : State} (hi : Inv s) (h : (s.port (.slot 0)).resp = []) (i : Instr) :
    Inv (withCommand s i) :=
  inv_setPort hi _ _ (by rintro k hk; cases hk; decide) h.symm

/-! ### Witnesses: for every statement with hypotheses, concrete values that meet them -/

theorem witness_ResetEventClearsTheBlock :
    ∃ s : State, s.resetReq = true ∧ s.lock = .held 0 ∧ (s.slot 0).seq = .feed :=
  ⟨{ at0 cfg2 (.held 0) (full64 .feed) with resetReq := true }, rfl, rfl, rfl⟩

theorem witness_BlockWaitsWithNoMove :
    ∃ s : State, s.resetReq = false ∧ enabledMoves s = [] := ⟨up cfg2, rfl, rfl⟩

theorem witness_HwinitBringsUp :
    (∃ s : State, s.hwReady = false ∧ s.draw.initOk = true) ∧ ∃ s : State, s.hwReady = false ∧ s.draw.initOk = false :=
  ⟨⟨withDraw (State.resetOf cfg2) true false false, rfl, rfl⟩, ⟨withDraw (State.resetOf cfg2) false false false, rfl, rfl⟩⟩

theorem witness_SecondHwinitHasNoMeaning : (up cfg2).hwReady = true := rfl

theorem witness_FrameOfHwinit : ∃ s t, exec .hwinit s = .next t :=
  ⟨withDraw (State.resetOf cfg2) true false false, _, rfl⟩

/-- The last slot of the store, up and not up. -/
theorem witness_StartsResetsTheContext :
    startsMode (.startsSha384 1) = some .sha384 ∧ instrSid (.startsSha384 1) = some 1 ∧
      (up cfg2).isIdle (sidNat 1) = true ∧ sidNat 1 < (up cfg2).cfg.nCtx ∧ (up cfg2).hwReady = true ∧
      (State.resetOf cfg2).isIdle (sidNat 1) = true ∧ sidNat 1 < (State.resetOf cfg2).cfg.nCtx ∧
      (State.resetOf cfg2).hwReady = false := by decide

theorem witness_StartsSelectsModeParameters :
    (up cfg2).isIdle (sidNat 0) = true ∧ sidNat 0 < (up cfg2).cfg.nCtx ∧ (up cfg2).hwReady = true ∧
      cfg2.engine = .fips := by decide

/-- An accepted `STARTS`, and one that waits for a busy slot. -/
theorem witness_FrameOfStarts :
    (∃ t, exec (.startsSha1 0) (up cfg2) = .next t) ∧
      ∃ t, exec (.startsSha1 0) (at0 cfg2 .free absorbing3) = .next t := ⟨⟨_, rfl⟩, ⟨_, rfl⟩⟩

/-- The five cases: not up; up and `⊥`; the null-buffer argument; terminal; accepted. -/
theorem witness_UpdateAcceptance :
    ((State.resetOf cfg2).isIdle (sidNat 1) = true ∧ sidNat 1 < cfg2.nCtx ∧ (State.resetOf cfg2).hwReady = false) ∧
      ((up cfg2).isIdle (sidNat 1) = true ∧ (up cfg2).hwReady = true ∧ ((up cfg2).slot (sidNat 1)).ctx = none) ∧
      (∀ l : Lifecycle,
        (at0 cfg2 .free (idleSlot (mkCtx .sha256 0 0 true l []))).isIdle (sidNat 0) = true ∧
        (at0 cfg2 .free (idleSlot (mkCtx .sha256 0 0 true l []))).hwReady = true ∧
        ((at0 cfg2 .free (idleSlot (mkCtx .sha256 0 0 true l []))).slot (sidNat 0)).ctx =
          some (mkCtx .sha256 0 0 true l [])) ∧
      (∀ l : Lifecycle, (mkCtx .sha256 0 0 true l []).lifecycle = l) ∧ (true = true ∧ (1 : BitVec 32) ≠ 0) ∧
      ¬(true = true ∧ (0 : BitVec 32) ≠ 0) :=
  ⟨by decide, by decide, fun _ => ⟨rfl, rfl, rfl⟩, fun _ => rfl, by decide, by decide⟩

/-- A live context whose counter is at its greatest, a terminal one, and no bring-up yet. -/
theorem witness_ZeroLengthUpdateIsNoop :
    (∃ (s : State) (c : Ctx), s.isIdle (sidNat 0) = true ∧ sidNat 0 < s.cfg.nCtx ∧ s.hwReady = true ∧ (s.slot (sidNat 0)).ctx = some c ∧
      c.lifecycle ≠ .terminal ∧ c.total.toNat < 2 ^ (2 * wordBits (famOf c.mode))) ∧
      (∃ (s : State) (c : Ctx), s.isIdle (sidNat 0) = true ∧ sidNat 0 < s.cfg.nCtx ∧ s.hwReady = true ∧
        (s.slot (sidNat 0)).ctx = some c ∧ c.lifecycle = .terminal) ∧
      ∃ s : State, s.isIdle (sidNat 1) = true ∧ sidNat 1 < s.cfg.nCtx ∧ s.hwReady = false :=
  ⟨⟨at0 cfg2 .free (idleSlot (mkCtx .sha1 0xFFFFFFFFFFFFFFFF 63 false .accumulating words8)), _, rfl, by decide, rfl, rfl,
    nofun, by decide +kernel⟩,
    ⟨at0 cfg2 .free (idleSlot (mkCtx .sha1 3 0 false .terminal words8)), _, rfl, by decide, rfl, rfl, rfl⟩,
    State.resetOf cfg2, rfl, by decide, rfl⟩

/-- The five cases, as for `UPDATE`. -/
theorem witness_FinishAcceptance :
    ((State.resetOf cfg2).isIdle (sidNat 1) = true ∧ sidNat 1 < cfg2.nCtx ∧ (State.resetOf cfg2).hwReady = false) ∧
      ((up cfg2).isIdle (sidNat 1) = true ∧ (up cfg2).hwReady = true ∧ ((up cfg2).slot (sidNat 1)).ctx = none) ∧
      ∀ l : Lifecycle,
        (at0 cfg2 .free (idleSlot (mkCtx .sha512 111 111 true l []))).isIdle (sidNat 0) = true ∧
        (at0 cfg2 .free (idleSlot (mkCtx .sha512 111 111 true l []))).hwReady = true ∧
        ((at0 cfg2 .free (idleSlot (mkCtx .sha512 111 111 true l []))).slot (sidNat 0)).ctx =
          some (mkCtx .sha512 111 111 true l []) ∧ (mkCtx .sha512 111 111 true l []).lifecycle = l :=
  ⟨by decide, by decide, fun _ => ⟨rfl, rfl, rfl, rfl⟩⟩

theorem witness_FrameOfUpdate :
    (∃ t, exec (.update false 0 3 abc) (at0 cfg2 .free (idleSlot (freshCtx .sha256))) = .next t) ∧
      ∃ t, exec (.update false 0 3 abc) (at0 cfg2 .free absorbing3) = .next t := ⟨⟨_, rfl⟩, ⟨_, rfl⟩⟩

theorem witness_FrameOfFinish :
    (∃ t, exec (.finish false 0) (at0 cfg2 .free (idleSlot (freshCtx .sha256))) = .next t) ∧
      ∃ t, exec (.finish false 0) (at0 cfg2 .free absorbing3) = .next t := ⟨⟨_, rfl⟩, ⟨_, rfl⟩⟩

/-- The first number outside the store. -/
theorem witness_SlotOutOfRangeIsInvalidArgument :
    instrSid (.update false 2 3 abc) = some 2 ∧ (up cfg2).isIdle (sidNat 2) = true ∧ (up cfg2).cfg.nCtx ≤ sidNat 2 := by
  decide

theorem witness_CommandForBusySlotWaits :
    ∃ s : State, s.isIdle (sidNat 0) = false ∧
      (s.port (.slot (sidNat 0))).cmd = (encode (.update false 0 3 abc)).words ++ [] ∧
      (s.port (.slot (sidNat 0))).dataIn = (encode (.update false 0 3 abc)).data ++ [] :=
  ⟨withCommand (at0 cfg2 .free absorbing3) (.update false 0 3 abc), by decide⟩

/-- The three framings, with no data byte and with the first reserved `OP` among them. -/
theorem witness_FramingOfCommands :
    (cwOp 0x20000000 = 2#4 ∧ cwNullbuf 0x20000000 = 0#1 ∧ abc.length = (3 : BitVec 32).toNat ∧
      ([] : List Byte).length = (0 : BitVec 32).toNat) ∧ (cwOp 0x20800000 = 2#4 ∧ cwNullbuf 0x20800000 = 1#1) ∧
      cwOp 0x10000000 ≠ 2#4 ∧ cwOp 0x40000000 ≠ 2#4 := by decide

/-- A word of no row, on the channels of bring-up, and a `SID` out of range on its own channels. -/
theorem witness_IllegalCommandChangesNothing :
    (takeCommand [0x40000000] [] = some (⟨0x40000000, 0, []⟩, [], []) ∧
      (opcodeRows.all fun r => !r.fits 0x40000000) = true) ∧
      ∃ (s : State) (i : Instr) (sid : BitVec 16), takeCommand (s.port (.slot 2)).cmd (s.port (.slot 2)).dataIn = some (⟨0x30000002, 0, []⟩, [], []) ∧
        decodeCommand ⟨0x30000002, 0, []⟩ = .ok i ∧ instrSid i = some sid ∧ PortId.slot 2 = .slot (sidNat sid) ∧
        s.isIdle (sidNat sid) = true ∧ s.cfg.nCtx ≤ sidNat sid :=
  ⟨by decide, (up cfg2).setPort (.slot 2) { Port.empty with cmd := [0x30000002] }, .finish false 2, 2, by decide⟩

theorem witness_LegalWordsAreTheTableRows :
    (∃ r ∈ opcodeRows, r.fits 0x20800005 = true) ∧ ∃ i, decodeCommand ⟨0x20800005, 7, []⟩ = .ok i :=
  ⟨⟨⟨0x20000000, 0xFF7F0000⟩, by decide, by decide⟩, _, rfl⟩

/-- With data, with none, and with a null buffer. -/
theorem witness_DecodeOfEncode :
    (Instr.update false 0 3 abc).wf = true ∧ (Instr.update false 0 0 []).wf = true ∧
      (Instr.update true 0xFFFF 0xFFFFFFFF []).wf = true ∧ (Instr.finish true 0xFFFF).wf = true := by decide

theorem witness_EncodeOfDecode :
    takeCommand [0x20000001, 3, 9] (abc ++ [7]) = some (⟨0x20000001, 3, abc⟩, [9], [7]) ∧
      decodeCommand ⟨0x20000001, 3, abc⟩ = .ok (.update false 1 3 abc) := by decide

/-- A started slot whose `UPDATE` is the coming step. -/
def updating : State := (withCommand (at0 cfg2 .free (idleSlot (mkCtx .sha256 0 0 true .init []))) (.update false 0 3 abc)).aim
  (.accept (.slot 0))

theorem witness_StepRunsDecodedInstruction :
    updating.resetReq = false ∧ updating.chosen = some (.accept (.slot 0)) ∧
      decode (updating.port (.slot 0)).cmd (updating.port (.slot 0)).dataIn = .ok (.update false 0 3 abc, [], []) :=
  ⟨rfl, by decide, rfl⟩

/-- Two moves, either of which may be next. -/
theorem witness_AnyEnabledMoveMayBeNext :
    enabledMoves (withCommand ((at0 cfg2 .free absorbing3).setSlot 1 (full64 .acq)) .hwinit) =
      [.accept (.slot 0), .absorb 0, .acquire 1] := by decide

/-- `HWINIT` and a reserved `OP` beside a busy slot are accepted, a `FINISH` for it is not, and one for an idle slot is. -/
theorem witness_EnabledMovesAreTheRequires :
    sparseWf Slot.reset (at0 cfg2 .free absorbing3).slots = true ∧
      sparseWf Port.empty (at0 cfg2 .free absorbing3).ports = true ∧
      ([0x00000000, 0x40000000, 0x30000001, 0x30000000] : List CmdWord).map (fun w =>
        decide (Move.accept (.slot 0) ∈
          enabledMoves ((at0 cfg2 .free absorbing3).setPort (.slot 0) { Port.empty with cmd := [w] }))) =
        [true, true, true, false] ∧
      enabledMoves ((at0 cfg2 (.held 0) (full64 .feed)).setSlot 1 (full64 .acq)) = [.feed 0, .timeout 1] := by
  decide

theorem witness_BusySlotLeavesCommandWaiting :
    ∃ (s : State) (c : Command) (ws : List CmdWord) (ds : List Byte) (t : State), sparseWf Port.empty s.ports = true ∧ s.resetReq = false ∧
      takeCommand (s.port (.slot 0)).cmd (s.port (.slot 0)).dataIn = some (c, ws, ds) ∧ cwOp c.cw = 3#4 ∧
      (s.slot (sidNat (cwSid c.cw))).seq ≠ .idle ∧ step s = .next t :=
  ⟨(withCommand (at0 cfg2 .free absorbing3) (.finish false 0)).aim (.absorb 0), _, _, _, _, by decide, rfl, rfl, rfl,
    by decide, rfl⟩

/-- Bytes that just fill the buffer; none left in an `UPDATE`; none left in a `FINISH`. -/
theorem witness_AbsorbMovesBytes :
    (∃ (s : State) (c : Ctx), (s.slot 0).seq = .absorb ∧ (s.slot 0).ctx = some c ∧ (s.slot 0).pend ≠ [] ∧ c.occ < c.bs ∧
      c.bs ≤ c.buffer.length ∧ c.occ + 1 = c.bs) ∧
      (∀ o : SeqOp, ∃ s : State, (s.slot 0).seq = .absorb ∧ (s.slot 0).ctx = some (freshCtx .sha1) ∧ (s.slot 0).pend = [] ∧
        (s.slot 0).op = some o) :=
  ⟨⟨at0 cfg2 .free (busySlot .absorb .update [9, 8] (mkCtx .sha1 65 63 true .accumulating [])), _, rfl, rfl, by decide,
    by decide +kernel, by decide +kernel, by decide⟩, fun o => ⟨at0 cfg2 .free (busySlot .absorb o [] (freshCtx .sha1)), rfl, rfl, rfl, rfl⟩⟩

theorem witness_AcquireTakesTheLock :
    ((at0 cfg2 .free (full64 .acq)).slot 0).seq = .acq ∧ (at0 cfg2 .free (full64 .acq)).lock = .free ∧
      (at0 cfg2 (.held 1) (full64 .acq)).lock = .held 1 := ⟨rfl, rfl, rfl⟩

theorem witness_LockWaitGivesUp :
    (at0 cfgSafe (.held 1) (full64 .acq)).cfg.lockTimeout = false ∧
      (∃ t, takeMove (.timeout 0) (at0 cfg2 (.held 1) (full64 .acq)) = .next t) ∧
      (at0 cfg2 (.held 1) (full64 .acq)).cfg.lockTimeout = true ∧
      ((at0 cfg2 (.held 1) (full64 .acq)).slot 0).seq = .acq ∧ 1 ≠ 0 ∧
      (at0 cfg2 (.held 1) (full64 .acq)).lock = .held 1 := ⟨rfl, ⟨_, rfl⟩, rfl, rfl, by decide, rfl⟩

/-- A slot at `FEED` that restores eight saved words. -/
def restoring : Slot := busySlot .feed .update [] (mkCtx .sha256 128 64 false .accumulating words8)

/-- A first block and a restored one, on an engine that does not fail; and a first block on one that does. -/
theorem witness_FeedBlockChainsTheState :
    (∃ s : State, (s.slot 0).seq = .feed ∧ s.lock = .held 0 ∧ (s.slot 0).ctx = some (mkCtx .sha256 64 64 true .accumulating []) ∧
      s.cfg.hwCanFail = false) ∧
      (∃ s : State, (s.slot 0).seq = .feed ∧ s.lock = .held 0 ∧
        (s.slot 0).ctx = some (mkCtx .sha256 128 64 false .accumulating words8) ∧
        stateWords .f256 ≤ words8.length ∧ s.cfg.hwCanFail = false) ∧
      ∃ s : State, (s.slot 0).seq = .feed ∧ s.lock = .held 0 ∧
        (s.slot 0).ctx = some (mkCtx .sha256 64 64 true .accumulating []) ∧ s.cfg.hwCanFail = true ∧
        s.draw.opError = false ∧ s.draw.readError = true :=
  ⟨⟨at0 cfgSafe (.held 0) (full64 .feed), rfl, rfl, rfl, rfl⟩,
    ⟨at0 cfgSafe (.held 0) restoring, rfl, rfl, rfl, by decide, rfl⟩,
    ⟨withDraw (at0 cfg2 (.held 0) (full64 .feed)) true false true, rfl, rfl, rfl, rfl, rfl, rfl⟩⟩

theorem witness_ReleaseFreesTheLock :
    (∃ s : State, (s.slot 0).seq = .rel ∧ s.lock = .held 0 ∧ (s.slot 0).err = .none) ∧
      ∃ s : State, (s.slot 0).seq = .rel ∧ s.lock = .held 0 ∧ (s.slot 0).err = .hardwareError :=
  ⟨⟨at0 cfg2 (.held 0) (full64 .rel), rfl, rfl, rfl⟩, ⟨at0 cfg2 (.held 0) failed64, rfl, rfl, rfl⟩⟩

theorem witness_ExtractEmitsTheDigest :
    ∃ (s : State) (c : Ctx), (s.slot 0).seq = .extract ∧ (s.slot 0).ctx = some c ∧ digestWords c.mode ≤ c.state.length :=
  ⟨at0 cfg2 .free (extracting words8), _, rfl, rfl, by decide⟩

theorem witness_EnginePrimitives :
    words8.length = stateWords (famOf .sha512) ∧
      ({ h := words8, mode := some .sha512 } : Engine).mode = some .sha512 := ⟨rfl, rfl⟩

/-- The last occupancy with room for the length field and the first without, in each block size. -/
theorem witness_PaddingIsLeast :
    (55 < blockSize .f1 ∧ 55 + 1 ≤ blockSize .f1 - lenFieldSize .f1) ∧
      (56 < blockSize .f256 ∧ blockSize .f256 - lenFieldSize .f256 < 56 + 1) ∧
      (111 < blockSize .f512 ∧ 111 + 1 ≤ blockSize .f512 - lenFieldSize .f512) ∧
      (112 < blockSize .f512 ∧ blockSize .f512 - lenFieldSize .f512 < 112 + 1) := by decide

theorem witness_TailEndsABlock :
    (55 < blockSize .f256 ∧ 55 + 1 ≤ blockSize .f256 - lenFieldSize .f256) ∧
      (63 < blockSize .f256 ∧ blockSize .f256 - lenFieldSize .f256 < 63 + 1) := by decide

theorem witness_BitLengthInWords :
    (0xFFFFFFFFFFFFFFFF : Counter).toNat < 2 ^ (2 * wordBits .f256) ∧
      (0xFFFFFFFFFFFFFFFFFFFFFFFFFFFFFFFF : Counter).toNat < 2 ^ (2 * wordBits .f512) := by decide +kernel

theorem witness_LengthFieldIsBigEndian : 7 < lenFieldSize .f1 ∧ 15 < lenFieldSize .f512 := by decide

/-- The least and the largest context store. -/
theorem witness_ResetMeetsTheInvariant :
    ({ cfg2 with nCtx := 1 } : Config).wf = true ∧ Config.default.wf = true := by decide

/-- A good state and its next: the acceptance of an `UPDATE`. -/
theorem witness_StepKeepsTheInvariant : Inv updating ∧ ∃ t, step updating = .next t :=
  ⟨inv_aim (inv_withCommand (inv_started cfg2 (by decide)) rfl _) _, _, rfl⟩

theorem witness_StepNeverFaults :
    sparseWf Slot.reset updating.slots = true ∧ sparseWf Port.empty updating.ports = true := by decide

/-- A second `HWINIT` on the channels of bring-up. -/
def bringUpAgain : State :=
  ((up cfg2).setPort .bringUp { Port.empty with cmd := [0x00000000] }).aim (.accept .bringUp)

/-- A second bring-up, and a `FINISH` on a context that is `⊥`. -/
theorem witness_StepRefusesOnlyTheUnspecified :
    (Inv bringUpAgain ∧ step bringUpAgain = .refused .secondBringUp) ∧
      Inv ((withCommand (up cfg2) (.finish false 0)).aim (.accept (.slot 0))) ∧
      step ((withCommand (up cfg2) (.finish false 0)).aim (.accept (.slot 0))) = .refused (.contextUnspecified 0) :=
  ⟨⟨inv_aim (inv_setPort (inv_up (c := cfg2) (by decide)) .bringUp
      { Port.empty with cmd := [0x00000000] } (by rintro k hk; cases hk) rfl) _, rfl⟩,
    inv_aim (inv_withCommand (inv_up (by decide)) rfl _) _, rfl⟩

/-- The coming step is a block operation that fails. -/
def failing : State := withDraw (at0 cfg2 (.held 0) (full64 .feed) |>.setEng { h := words8, mode := some .sha256 }) true true false

theorem witness_EngineChangesOnlyUnderTheLock :
    failing.resetReq = false ∧ ∃ t, step failing = .next t ∧ t.eng ≠ failing.eng :=
  ⟨rfl, (next_any (p := fun t => decide (t.eng ≠ failing.eng)) (by decide)).imp fun _ h => ⟨h.1, by simpa using h.2⟩⟩

theorem witness_LockChangesOnlyByArbiter :
    (∃ t, step ((at0 cfg2 .free (full64 .acq)).aim (.acquire 0)) = .next t ∧ t.lock ≠ .free) ∧
      ∃ t, step ((at0 cfg2 (.held 0) failed64).aim (.release 0)) = .next t ∧ t.lock ≠ .held 0 :=
  ⟨⟨_, rfl, nofun⟩, ⟨_, rfl, nofun⟩⟩

/-- A first `HWINIT` that succeeds. -/
def bringingUp : State :=
  withDraw ((State.resetOf cfg2).setPort .bringUp { Port.empty with cmd := [0x00000000] }) true false false

theorem witness_HwReadyChangesOnlyByHwinit :
    bringingUp.resetReq = false ∧ ∃ t, step bringingUp = .next t ∧ t.hwReady ≠ bringingUp.hwReady :=
  ⟨rfl, _, rfl, nofun⟩

theorem witness_SlotsArePrivate :
    updating.resetReq = false ∧ ∃ t, step updating = .next t ∧ t.slot 0 ≠ updating.slot 0 :=
  ⟨rfl, (next_any (p := fun t => decide (t.slot 0 ≠ updating.slot 0)) (by decide)).imp fun _ h => ⟨h.1, by simpa using h.2⟩⟩

/-- Two states alike in slot 0 alone: another session's words stand in the engine of the second. -/
theorem witness_FeedIgnoresOtherSessions :
    ∃ s s' : State, s.cfg = s'.cfg ∧ s.slot 0 = s'.slot 0 ∧ s.draw.opError = s'.draw.opError ∧
      s.draw.readError = s'.draw.readError ∧ s.eng ≠ s'.eng ∧ (∃ t, takeMove (.feed 0) s = .next t) ∧
      ∃ t', takeMove (.feed 0) s' = .next t' :=
  ⟨at0 cfgSafe (.held 0) (full64 .feed),
    ((at0 cfgSafe (.held 0) (full64 .feed)).setEng { h := words8, mode := some .sha512 }).setSlot 1 absorbing3,
    rfl, rfl, rfl, rfl, by decide, ⟨_, rfl⟩, ⟨_, rfl⟩⟩

theorem witness_FirstBlockIgnoresStateWords :
    ∃ (s : State) (c : Ctx), (s.slot 0).ctx = some c ∧ c.firstBlock = true ∧
      (∃ t, takeMove (.feed 0) s = .next t ∧ t.eng.mode ≠ none) ∧
      ∃ t', takeMove (.feed 0) (s.setCtx 0 { c with state := words8 }) = .next t' :=
  ⟨at0 cfgSafe (.held 0) (full64 .feed), mkCtx .sha256 64 64 true .accumulating [], rfl, rfl, ⟨_, rfl, nofun⟩, _, rfl⟩

/-- A `STARTS` for SHA-1 on a slot started for SHA-256. -/
def restartingState : State :=
  (withCommand (at0 cfg2 .free (idleSlot (mkCtx .sha256 0 0 true .init []))) (.startsSha1 0)).aim (.accept (.slot 0))

theorem witness_ModeChangesOnlyByStarts :
    restartingState.resetReq = false ∧ ∃ t c c', step restartingState = .next t ∧
      (restartingState.slot 0).ctx = some c ∧ (t.slot 0).ctx = some c' ∧ c'.mode ≠ c.mode :=
  ⟨rfl, _, _, _, rfl, rfl, rfl, nofun⟩

/-- Slot 1 waits for the lock that slot 0 holds. -/
def contended : State := (at0 cfg2 (.held 0) (full64 .feed)).setSlot 1 (full64 .acq)

theorem inv_contended : Inv contended :=
  inv_setSlot_of_same_lock (inv_feeding64 cfg2 (by decide)) (by decide) rfl <|
    slotInv_busy rfl (by decide) nofun (ctxInv_mk (by decide +kernel)) (by constructor <;> decide +kernel)

/-- An `UPDATE` whose last byte has been placed. -/
def drained : Slot := busySlot .absorb .update [] (mkCtx .sha256 3 3 true .accumulating [])

theorem inv_drained : Inv (at0 cfg2 .free drained) :=
  inv_at0 (by decide) (.inl ⟨rfl, rfl⟩) <|
    slotInv_busy rfl (by decide) nofun (ctxInv_mk (by decide +kernel)) (by constructor <;> decide +kernel)

/-- A word with a reserved bit set, about to be accepted. -/
def illegalWord : State :=
  ((up cfg2).setPort (.slot 0) { Port.empty with cmd := [0x30400000] }).aim (.accept (.slot 0))

theorem inv_withDraw {s : State} (hi : Inv s) (a b c : Bool) : Inv (withDraw s a b c) :=
  inv_of_same hi rfl rfl rfl rfl rfl rfl rfl

/-- The coming step accepts the command `i` at the channels of slot 0. -/
def accepting (s : State) (i : Instr) : State := (withCommand s i).aim (.accept (.slot 0))

theorem inv_accepting {s : State} (hi : Inv s) (h : (s.port (.slot 0)).resp = []) (i : Instr) : Inv (accepting s i) :=
  inv_aim (inv_withCommand hi h i) _

/-- `OK` from each of its four causes. -/
theorem witness_StatusCodesHaveTheirCause_ok :
    (Inv bringingUp ∧ ∃ t, step bringingUp = .next t ∧ (t.port .bringUp).resp = [0x00]) ∧
      (Inv restartingState ∧ ∃ t, step restartingState = .next t ∧ (t.port (.slot 0)).resp = [0x00]) ∧
      (Inv (at0 cfg2 .free drained) ∧
        ∃ t, step ((at0 cfg2 .free drained).aim (.absorb 0)) = .next t ∧ (t.port (.slot 0)).resp = [0x00]) ∧
      (Inv (at0 cfgSafe .free (extracting words8)) ∧
        ∃ t, step ((at0 cfgSafe .free (extracting words8)).aim (.extract 0)) = .next t ∧
          (t.port (.slot 0)).resp = [0x00]) :=
  ⟨⟨inv_withDraw (inv_setPort (inv_resetOf (c := cfg2) (by decide)) .bringUp { Port.empty with cmd := [0x00000000] }
      (by rintro k hk; cases hk) rfl) _ _ _, _, rfl, rfl⟩,
    ⟨inv_accepting (inv_started cfg2 (by decide)) rfl _, _, rfl, rfl⟩, ⟨inv_drained, _, rfl, rfl⟩,
    inv_extracting rfl (by simp [words8]), _, rfl, rfl⟩

/-- `HardwareUnavailable` from a bring-up that fails and from a `STARTS` before bring-up. -/
theorem witness_StatusCodesHaveTheirCause_unavailable :
    (Inv (withDraw bringingUp false false false) ∧
        ∃ t, step (withDraw bringingUp false false false) = .next t ∧ (t.port .bringUp).resp = [0x01]) ∧
      (Inv (accepting (State.resetOf cfg2) (.startsSha1 0)) ∧
        ∃ t, step (accepting (State.resetOf cfg2) (.startsSha1 0)) = .next t ∧ (t.port (.slot 0)).resp = [0x01]) :=
  ⟨⟨inv_withDraw (inv_withDraw (inv_setPort (inv_resetOf (c := cfg2) (by decide)) .bringUp
      { Port.empty with cmd := [0x00000000] } (by rintro k hk; cases hk) rfl) _ _ _) _ _ _, _, rfl, rfl⟩,
    inv_accepting (inv_resetOf (by decide)) rfl _, _, rfl, rfl⟩

/-- `InvalidArgument` from a `SID` just outside the store and from a null buffer, `InvalidState` from a terminal
context. -/
theorem witness_StatusCodesHaveTheirCause_invalid :
    (Inv (accepting (up cfg2) (.finish false 2)) ∧
        ∃ t, step (accepting (up cfg2) (.finish false 2)) = .next t ∧ (t.port (.slot 2)).resp = [0x03]) ∧
      ∀ n : Bool,
        Inv (accepting (at0 cfg2 .free (idleSlot (mkCtx .sha256 0 0 true .terminal []))) (.finish n 0)) ∧
        ∃ t, step (accepting (at0 cfg2 .free (idleSlot (mkCtx .sha256 0 0 true .terminal []))) (.finish n 0)) = .next t ∧
          (t.port (.slot 0)).resp = [if n then 0x03 else 0x04] :=
  ⟨⟨inv_accepting (inv_up (by decide)) rfl _, _, rfl, rfl⟩, fun n =>
    ⟨inv_accepting (inv_idle cfg2 (by decide) .terminal) rfl _, by cases n <;> exact ⟨_, rfl, rfl⟩⟩⟩

/-- `InvalidArgument` from an illegal word, `HardwareBusy` from a lock wait that gives up, and `HardwareError` from an
engine error that is reported. -/
theorem witness_StatusCodesHaveTheirCause :
    (Inv illegalWord ∧ ∃ t, step illegalWord = .next t ∧ (t.port (.slot 0)).resp = [0x03]) ∧
      (Inv contended ∧ ∃ t, step (contended.aim (.timeout 1)) = .next t ∧ (t.port (.slot 1)).resp = [0x02]) ∧
      (Inv (at0 cfg2 (.held 0) failed64) ∧
        ∃ t, step ((at0 cfg2 (.held 0) failed64).aim (.release 0)) = .next t ∧ (t.port (.slot 0)).resp = [0x05]) :=
  ⟨⟨inv_aim (inv_setPort (inv_up (c := cfg2) (by decide)) (.slot 0) { Port.empty with cmd := [0x30400000] }
      (by rintro k hk; cases hk; decide) rfl) _, _, rfl, rfl⟩, ⟨inv_contended, _, rfl, rfl⟩, inv_failed64, _, rfl, rfl⟩

theorem witness_DigestOnlyWithOk :
    ∃ t, step ((at0 cfg2 .free (extracting words8)).aim (.extract 0)) = .next t ∧
      (t.port (.slot 0)).digestOut ≠ [] ∧
      ((at0 cfg2 .free (extracting words8)).aim (.extract 0)).chosen = some (.extract 0) :=
  ⟨_, rfl, by decide, by decide⟩

theorem witness_BusyBlockCanMove :
    Inv (at0 cfg2 .free absorbing3) ∧ ((at0 cfg2 .free absorbing3).slot 0).seq ≠ .idle :=
  ⟨inv_absorbing3 cfg2 (by decide), nofun⟩

/-- A slot that holds no whole block hashes the bytes in its buffer and those still pending. -/
theorem hashing_first {c : Config} {l : Lock} {m : Mode} {q : SeqPos} {pend msg : List Byte} {total : Counter}
    {occ : Nat} {o : SeqOp} {b : Lifecycle} (hb : b ≠ .terminal) (ho : o = .update ∨ q = .idle)
    (hm : msg = (freshCtx m).buffer.take occ ++ pend)
    (ht : total.toNat = msg.length % 2 ^ (2 * wordBits (famOf m))) :
    Hashing (at0 c l (busySlot q o pend (mkCtx m total occ true b []))) 0 m msg := by
  refine ⟨mkCtx m total occ true b [], by simp [at0, busySlot], rfl, hb, ht, 0, [], ?_, by simp, fun _ => rfl, nofun⟩
  rcases ho with rfl | rfl <;> simp [at0, busySlot, hm, mkCtx]

/-- The digest about to go out, bytes on their way, and a new `STARTS`. -/
theorem witness_SessionHashesItsMessage :
    (Inv (at0 cfgSafe .free (extracting emptyHash)) ∧ Hashing (at0 cfgSafe .free (extracting emptyHash)) 0 .sha256 [] ∧
      ∃ t, step ((at0 cfgSafe .free (extracting emptyHash)).aim (.extract 0)) = .next t) ∧
    (Inv (at0 cfg2 .free absorbing3) ∧ Hashing (at0 cfg2 .free absorbing3) 0 .sha256 abc ∧
      ∃ t, step ((at0 cfg2 .free absorbing3).aim (.absorb 0)) = .next t) ∧
    (Inv restartingState ∧ restartingState.restarting 0 = some .sha1 ∧ ∃ t, step restartingState = .next t) := by
  refine ⟨⟨inv_extracting0, ?_, _, rfl⟩, ⟨inv_absorbing3 cfg2 (by decide), ?_, _, rfl⟩,
    inv_aim (inv_withCommand (inv_started cfg2 (by decide)) rfl _) _, by decide, _, rfl⟩
  · refine ⟨mkCtx .sha256 0 0 false .init emptyHash, by simp [at0, extracting, busySlot], rfl, nofun, rfl, 1,
      mdTail .f256 [], ?_, by decide, nofun, fun _ => ⟨by decide, rfl⟩⟩
    simp [at0, extracting, busySlot, mkCtx, famOf]
  · exact hashing_first nofun (.inl rfl) rfl (by decide)

/-- No other slot is busy and no command waits. -/
theorem runsAlone_at0 (c : Config) (v : Slot) : RunsAlone (at0 c .free v) 0 where
  no_reset := rfl
  others_idle := fun j hj => by simp [at0, hj, up, Slot.reset]
  no_command := fun p => by simp [at0, up, Port.empty]

theorem witness_UpdateAloneRunsToOk :
    ∃ (s : State) (c : Ctx), Inv s ∧ RunsAlone s 0 ∧ s.cfg.hwCanFail = false ∧ (s.slot 0).seq = .absorb ∧
      (s.slot 0).op = some .update ∧ (s.slot 0).ctx = some c :=
  ⟨_, _, inv_absorbing3 cfgSafe (by decide), runsAlone_at0 _ _, rfl, rfl, rfl, rfl⟩

theorem witness_FinishAloneRunsToTheDigest :
    ∃ (s : State) (c : Ctx), Inv s ∧ RunsAlone s 0 ∧ s.cfg.hwCanFail = false ∧ (s.slot 0).seq = .absorb ∧
      (s.slot 0).op = some .finish ∧ (s.slot 0).ctx = some c :=
  ⟨_, _, inv_finishing0 cfgSafe (by decide), runsAlone_at0 _ _, rfl, rfl, rfl, rfl⟩

theorem witness_SequentialProcedureOccupancy :
    (mkCtx .sha512 127 127 true .accumulating []).occ < (mkCtx .sha512 127 127 true .accumulating []).bs := by decide

end Sys2Proof.Tests
end

section
/-! Facts the proofs of the state's own statements share: the framing of a decoded command, the counter, the tail, the
engine after a block operation, and a slot record read as a context between commands or inside one. -/

namespace Sys2Proof.Machine

/-! ### A decoded command -/

/-- The bytes taken with a command are as many as its words announce (R94). -/
theorem length_data_of_takeCommand {ws ws' : List CmdWord} {ds ds' : List Byte} {c : Command}
    (h : takeCommand ws ds = some (c, ws', ds')) : c.data.length = dataCount c.cw c.len := by
  cases ws with
  | nil => simp [takeCommand] at h
  | cons cw ws =>
    by_cases hl : hasLen cw = true
    · cases ws with
      | nil => simp [takeCommand, hl] at h
      | cons len ws =>
        simp only [takeCommand, hl, if_true, Option.ite_none_right_eq_some, Option.some.injEq, Prod.mk.injEq] at h
        obtain ⟨hle, rfl, -, -⟩ := h
        simpa using hle
    · simp only [takeCommand, hl, Bool.false_eq_true, if_false, Option.some.injEq, Prod.mk.injEq] at h
      obtain ⟨rfl, -, -⟩ := h
      simp [dataCount, hl]

/-- The fields of the command an `UPDATE` is decoded from (R91, R97). -/
theorem fields_of_decode_update {c : Command} {nullbuf : Bool} {sid : BitVec 16} {len : BitVec 32}
    {data : List Byte} (h : decodeCommand c = .ok (.update nullbuf sid len data)) :
    cwOp c.cw = 2#4 ∧ (cwNullbuf c.cw == 1#1) = nullbuf ∧ c.len = len ∧ c.data = data := by
  simp only [decodeCommand] at h
  split_ifs at h <;> simp_all

/-- An instruction decoded from a command that was taken off its channels is well-formed (R94). -/
theorem wf_of_takeCommand_decode {ws ws' : List CmdWord} {ds ds' : List Byte} {c : Command} {i : Instr}
    (h : takeCommand ws ds = some (c, ws', ds')) (hd : decodeCommand c = .ok i) : i.wf = true := by
  cases i with
  | update nullbuf sid len data =>
    obtain ⟨hop, rfl, rfl, rfl⟩ := fields_of_decode_update hd
    have hbit : ∀ b : BitVec 1, (b == 0#1) = !(b == 1#1) := by decide
    rw [Instr.wf, length_data_of_takeCommand h, dataCount, hasLen, hop, hbit]
    cases cwNullbuf c.cw == 1#1 <;> simp
  | _ => rfl

/-! ### The counter and the tail -/

/-- The sum of two words has wrapped exactly when it is below one of them; that is the carry (R171). -/
theorem carry_eq_div {b a n : Nat} (ha : a < b) (hn : n < b) :
    (if (a + n) % b < n then 1 else 0) = (a + n) / b := by
  by_cases h : a + n < b
  · rw [Nat.mod_eq_of_lt h, Nat.div_eq_of_lt h, if_neg (by omega)]
  · have hdiv : (a + n) / b = 1 := Nat.div_eq_of_lt_le (by omega) (by omega)
    have hmod : (a + n) % b = a + n - b := by
      rw [Nat.mod_eq_sub_mod (by omega), Nat.mod_eq_of_lt (by omega)]
    rw [hdiv, hmod, if_pos (by omega)]

/-- An add word by word, the carry added to the upper word, is the add of the whole number (R171). -/
theorem add_words_eq_mod (b t n : Nat) :
    ((t / b % b + (t % b + n) / b) % b) * b + (t % b + n) % b = (t + n) % (b * b) := by
  have hdiv : (t + n) / b = t / b + (t % b + n) / b := by
    rcases Nat.eq_zero_or_pos b with rfl | hb
    · simp
    · conv_lhs => rw [← Nat.div_add_mod t b, Nat.add_assoc, Nat.mul_add_div hb]
  rw [Nat.mod_mul, hdiv, Nat.mod_add_mod, Nat.mod_add_mod, Nat.mul_comm, Nat.add_comm]

theorem lt_two_pow_wordBits (f : Family) (len : BitVec 32) : len.toNat < 2 ^ wordBits f :=
  lt_of_lt_of_le len.isLt (Nat.pow_le_pow_right (by decide) (by cases f <;> decide))

/-- The add with explicit carry is the add modulo `2^(2W)` (R171). -/
theorem toNat_counterAdd (f : Family) (t : Counter) (len : BitVec 32) :
    (counterAdd f t len).toNat = (t.toNat + len.toNat) % 2 ^ (2 * wordBits f) := by
  have hfit : 2 ^ (2 * wordBits f) ≤ 2 ^ 128 := Nat.pow_le_pow_right (by decide) (by cases f <;> decide)
  have hlo : totalLo f t < 2 ^ wordBits f := Nat.mod_lt _ (Nat.two_pow_pos _)
  simp only [counterAdd, totalOf, BitVec.toNat_ofNat]
  rw [carry_eq_div hlo (lt_two_pow_wordBits f len), totalLo, totalHi, add_words_eq_mod, ← Nat.pow_add, ← Nat.two_mul]
  exact Nat.mod_eq_of_lt (lt_of_lt_of_le (Nat.mod_lt _ (Nat.two_pow_pos _)) hfit)

/-- Whole blocks fit the counter's modulus, so a wrap keeps the occupancy (R31, R37). -/
theorem Ctx.bs_dvd (c : Ctx) : c.bs ∣ 2 ^ (2 * wordBits (famOf c.mode)) := by
  unfold Ctx.bs
  cases c.mode <;> decide

/-- The tail fills the last block up to its end (R184, R186). -/
theorem add_length_tailBytes_mod {f : Family} {occ : Nat} (total : Counter) (h : occ < blockSize f) :
    (occ + (tailBytes f occ total).length) % blockSize f = 0 := by
  cases f <;>
    simp only [tailBytes, padZeros, blockSize, lenFieldSize, List.length_cons, List.length_append, length_zeroBytes,
      length_beBytes] at h ⊢ <;>
    omega

/-! ### The engine after a block operation -/

/-- How a block operation that may start ends: with an error, the engine `⊥`, or with the `NW` words that the engine
then holds (R123, R125). -/
theorem runBlock_cases (cfg : Config) (d : Draw) {c : Ctx} (e : Engine) (h : restoreUnwritten c = false) :
    (cfg.hwCanFail = true ∧ runBlock cfg d c e = (Engine.bottom, none)) ∨
    ∃ words, (runBlock cfg d c e).2 = some words ∧ words.length = stateWords (famOf c.mode) ∧
      (∀ w ∈ words, w.toNat < 2 ^ wordBits (famOf c.mode)) ∧ (runBlock cfg d c e).1.mode = some c.mode ∧
      (runBlock cfg d c e).1.h.take (stateWords (famOf c.mode)) = words := by
  by_cases he : cfg.hwCanFail = true ∧ (d.opError = true ∨ d.readError = true)
  · exact .inl ⟨he.1, runBlock_of_error c e he.1 he.2⟩
  · have hw : c.firstBlock = false → stateWords (famOf c.mode) ≤ c.state.length := by
      simpa [restoreUnwritten] using h
    obtain ⟨hwords, hmode, hh⟩ := runBlock_of_ok e he hw
    exact .inr ⟨_, hwords, length_engineCompress .., normWords_lt, hmode, hh⟩

/-- A first block does not read the saved words (R32, R211). -/
theorem runBlock_firstBlock_state (cfg : Config) (d : Draw) {c : Ctx} (e : Engine) (words : List Word)
    (h : c.firstBlock = true) : runBlock cfg d { c with state := words } e = runBlock cfg d c e := by
  simp [runBlock, h, Ctx.bs]

theorem stateWords_le (f : Family) : stateWords f ≤ 8 := by cases f <;> decide

theorem length_hwStart_le (cfg : Config) (err : Bool) (m : Mode) (blk : List Byte) {e : Engine}
    (h : e.h.length ≤ 8) : (hwStart cfg err m blk e).1.h.length ≤ 8 := by
  cases err
  · simp [hwStart, length_overwriteWords, h, stateWords_le]
  · simp [hwStart, Engine.bottom]

theorem length_hwContinue_le (cfg : Config) (err : Bool) (m : Mode) {saved : List Word} (blk : List Byte) {e : Engine}
    (hs : saved.length ≤ 8) (h : e.h.length ≤ 8) : (hwContinue cfg err m saved blk e).1.h.length ≤ 8 := by
  cases err
  · simp [hwContinue, length_overwriteWords, h, hs, stateWords_le]
  · simp [hwContinue, Engine.bottom]

theorem length_hwRead_le (err : Bool) {e : Engine} (h : e.h.length ≤ 8) : (hwRead err e).1.h.length ≤ 8 := by
  unfold hwRead
  split
  · simp [Engine.bottom]
  · split <;> exact h

/-- A block operation keeps the engine within its eight words (R22). -/
theorem length_runBlock_le (cfg : Config) (d : Draw) (c : Ctx) {e : Engine} (h : e.h.length ≤ 8) :
    (runBlock cfg d c e).1.h.length ≤ 8 := by
  have hs : (c.state.take (stateWords (famOf c.mode))).length ≤ 8 :=
    (List.length_take_le _ _).trans (stateWords_le _)
  unfold runBlock
  cases c.firstBlock <;> simp only [Bool.false_eq_true, if_false, if_true] <;> split
  · exact length_hwRead_le _ (length_hwContinue_le _ _ _ _ hs h)
  · exact length_hwContinue_le _ _ _ _ hs h
  · exact length_hwRead_le _ (length_hwStart_le _ _ _ _ h)
  · exact length_hwStart_le _ _ _ _ h

theorem engineInv_bottom : EngineInv Engine.bottom := ⟨Nat.zero_le _, fun _ => rfl, nofun, nofun⟩

/-- The engine a block operation leaves is good (R22, R214). -/
theorem engineInv_runBlock (cfg : Config) (d : Draw) {c : Ctx} {e : Engine} (he : EngineInv e)
    (h : restoreUnwritten c = false) : EngineInv (runBlock cfg d c e).1 := by
  obtain ⟨-, hr⟩ | ⟨words, -, hlen, hlt, hmode, hh⟩ := runBlock_cases cfg d e h
  · rw [hr]
    exact engineInv_bottom
  · subst hh
    refine ⟨length_runBlock_le cfg d c he.size, ?_, ?_, ?_⟩ <;> rw [hmode]
    · nofun
    · rintro m ⟨⟩
      simpa using hlen
    · rintro m ⟨⟩
      exact hlt

/-! ### A slot record that holds a context -/

/-- An engine error waits nowhere but at `REL` (R125). -/
theorem SlotInv.err_eq_none {cfg : Config} {b : Bool} {v : Slot} (h : SlotInv cfg b v) (hs : v.seq ≠ .rel) :
    v.err = .none := by
  cases he : v.err
  · rfl
  · exact absurd (h.err_rel he).1 hs

/-- The invariant of a slot between commands whose context is not `⊥` (R37). -/
theorem slotInv_iff_of_idle {cfg : Config} {b : Bool} {v : Slot} {c : Ctx} (hc : v.ctx = some c)
    (hs : v.seq = .idle) :
    SlotInv cfg b v ↔ b = true ∧ v.err = .none ∧ v.pend = [] ∧ CtxInv c ∧ IdleInv v c := by
  constructor
  · intro h
    refine ⟨by_contra fun hb => ?_, h.err_eq_none (by simp [hs]), h.idle_pend hs, h.ctx_inv c hc,
      h.idle_inv c hc hs⟩
    simpa [hc] using (h.not_ready (by simpa using hb)).1
  · rintro ⟨rfl, herr, hpend, hctx, hidle⟩
    refine ⟨nofun, ?_, fun _ => hpend, fun hn => absurd hs hn, ?_, ?_, fun _ _ hn => absurd hs hn⟩
    · simp [herr]
    · simpa [hc] using hctx
    · simpa [hc] using fun _ => hidle

/-- The invariant of a slot inside a command (R33, R125, R163, R186). -/
theorem slotInv_iff_of_busy {cfg : Config} {b : Bool} {v : Slot} {c : Ctx} (hc : v.ctx = some c)
    (hs : v.seq ≠ .idle) :
    SlotInv cfg b v ↔ b = true ∧ (v.err = .hardwareError → v.seq = .rel ∧ cfg.hwCanFail = true) ∧ CtxInv c ∧
      BusyInv v c := by
  constructor
  · intro h
    refine ⟨by_contra fun hb => ?_, h.err_rel, h.ctx_inv c hc, h.busy_inv c hc hs⟩
    simpa [hc] using (h.not_ready (by simpa using hb)).1
  · rintro ⟨rfl, herr, hctx, hbusy⟩
    refine ⟨nofun, herr, fun hi => absurd hi hs, fun _ => by simp [hc], ?_, fun _ _ hi => absurd hi hs, ?_⟩
    · simpa [hc] using hctx
    · simpa [hc] using fun _ => hbusy

end Sys2Proof.Machine
end

section
/-! The invariant of a slot record under each operation that writes one (R37, R142, R161, R163, R181, R123 to R125,
R200). -/

namespace Sys2Proof.Machine

variable {cfg : Config} {b : Bool} {v : Slot} {c : Ctx}

/-! ### The commands at acceptance -/

theorem ctxInv_freshCtx (m : Mode) : CtxInv (freshCtx m) :=
  ⟨Nat.two_pow_pos _, nofun, rfl, length_zeroBytes _, Nat.zero_le _, fun _ => rfl⟩

/-- `STARTS` on an idle slot of a machine that is up (R142). -/
theorem slotInv_freshCtx (h : SlotInv cfg true v) (hs : v.seq = .idle) (m : Mode) :
    SlotInv cfg true { v with ctx := some (freshCtx m) } := by
  refine Iff.mpr (slotInv_iff_of_idle rfl hs)
    ⟨rfl, h.err_eq_none (by simp [hs]), h.idle_pend hs, ctxInv_freshCtx m, ?_⟩
  exact ⟨Ctx.bs_pos _, fun _ => rfl, fun _ _ => rfl⟩

/-- An `UPDATE` that brings bytes leaves `Init` (R36, R161). -/
theorem lifecycleAfter_eq_init {len : BitVec 32} {l : Lifecycle} (h : lifecycleAfter len l = .init) :
    len = 0#32 ∧ l = .init := by
  unfold lifecycleAfter at h
  split at h
  · next hz => exact ⟨hz, h⟩
  · simp at h

theorem lifecycleAfter_ne_terminal {len : BitVec 32} {l : Lifecycle} (h : l ≠ .terminal) :
    lifecycleAfter len l ≠ .terminal := by
  unfold lifecycleAfter
  split
  · exact h
  · simp

/-- The counter of an accepted `UPDATE` (R161, R171). -/
theorem toNat_total_updateCtx (c : Ctx) (len : BitVec 32) :
    (updateCtx c len).total.toNat = (c.total.toNat + len.toNat) % 2 ^ (2 * wordBits (famOf c.mode)) :=
  toNat_counterAdd ..

theorem ctxInv_updateCtx (h : CtxInv c) (len : BitVec 32) : CtxInv (updateCtx c len) where
  total_lt := by
    rw [toNat_total_updateCtx]
    exact Nat.mod_lt _ (Nat.two_pow_pos _)
  words_lt := h.words_lt
  words_length := h.words_length
  buffer_length := h.buffer_length
  occ_le := h.occ_le
  init_total := by
    intro hl
    obtain ⟨rfl, hl⟩ := lifecycleAfter_eq_init hl
    apply BitVec.eq_of_toNat_eq
    simp [toNat_total_updateCtx, h.init_total hl]

/-- An accepted `UPDATE` with all of its bytes pending (R161). -/
theorem slotInv_updateSlot (h : SlotInv cfg b v) (hs : v.seq = .idle) (hc : v.ctx = some c)
    (hlive : c.lifecycle ≠ .terminal) {nullbuf : Bool} {len : BitVec 32} {data : List Byte}
    (hlen : (if nullbuf then [] else data).length = len.toNat) :
    SlotInv cfg b (updateSlot v c nullbuf len data) := by
  obtain ⟨hb, herr, -, hctx, hidle⟩ := (slotInv_iff_of_idle hc hs).1 h
  refine Iff.mpr (slotInv_iff_of_busy rfl nofun) ⟨hb, by simp [updateSlot, herr], ctxInv_updateCtx hctx len, ?_⟩
  have htot := toNat_total_updateCtx c len
  constructor
  case op_some => nofun
  case live => exact lifecycleAfter_ne_terminal hlive
  case update_mod =>
    intro _
    change (c.occ + (if nullbuf then [] else data).length) % c.bs = _ % c.bs
    rw [hlen, htot, Nat.mod_mod_of_dvd _ c.bs_dvd, hidle.occ_eq hlive, Nat.mod_add_mod]
  case update_first =>
    intro _ hf
    change _ = c.occ + (if nullbuf then [] else data).length
    have hocc := hidle.first_eq hlive hf
    have hfit : c.occ + len.toNat < 2 ^ (2 * wordBits (famOf c.mode)) := by
      have hlt := hidle.occ_lt
      have hbs := c.bs_cases
      have hl := len.isLt
      have hpow : 2 ^ 64 ≤ 2 ^ (2 * wordBits (famOf c.mode)) :=
        Nat.pow_le_pow_right (by decide) (by cases c.mode <;> decide)
      omega
    rw [hlen, htot, hocc, Nat.mod_eq_of_lt hfit]
  case absorb_occ => exact fun _ => hidle.occ_lt
  all_goals simp [updateSlot]

/-- An accepted `FINISH` with its tail pending (R181, R184). -/
theorem slotInv_finishSlot (h : SlotInv cfg b v) (hs : v.seq = .idle) (hc : v.ctx = some c)
    (hlive : c.lifecycle ≠ .terminal) : SlotInv cfg b (finishSlot v c) := by
  obtain ⟨hb, herr, -, hctx, hidle⟩ := (slotInv_iff_of_idle hc hs).1 h
  refine Iff.mpr (slotInv_iff_of_busy hc nofun) ⟨hb, by simp [finishSlot, herr], hctx, ?_⟩
  constructor
  case live => exact hlive
  case finish_mod => exact fun _ => add_length_tailBytes_mod _ hidle.occ_lt
  case absorb_occ => exact fun _ => hidle.occ_lt
  all_goals simp [finishSlot, tailBytes]

/-! ### `ABSORB` -/

/-- The bytes `ABSORB` takes are pending and fit the block (R163). -/
theorem absorbCount_le (c : Ctx) (pend : List Byte) :
    absorbCount c pend ≤ pend.length ∧ absorbCount c pend ≤ c.bs - c.occ := by
  simp [absorbCount]

theorem ctxInv_absorbCtx (h : CtxInv c) (pend : List Byte) : CtxInv (absorbCtx c pend) := by
  obtain ⟨hp, hroom⟩ := absorbCount_le c pend
  have hocc := h.occ_le
  refine ⟨h.total_lt, h.words_lt, h.words_length, ?_, ?_, h.init_total⟩
  · have hbs := c.bs_cases
    rw [absorbCtx, length_writeRun, h.buffer_length]
    simp only [List.length_take, h.buffer_length]
    omega
  · change c.occ + absorbCount c pend ≤ c.bs
    omega

/-- An `ABSORB` that appends bytes (R163). -/
theorem slotInv_absorbCtx (h : SlotInv cfg b v) (hs : v.seq = .absorb) (hc : v.ctx = some c) :
    SlotInv cfg b
      { v with
        ctx := some (absorbCtx c v.pend)
        pend := v.pend.drop (absorbCount c v.pend)
        seq := if (absorbCtx c v.pend).occ = c.bs then .acq else .absorb } := by
  obtain ⟨hb, -, hctx, hbusy⟩ := (slotInv_iff_of_busy hc (by simp [hs])).1 h
  obtain ⟨hp, hroom⟩ := absorbCount_le c v.pend
  have hocc := hctx.occ_le
  have hne := h.err_eq_none (by simp [hs])
  have hsum : (absorbCtx c v.pend).occ + (v.pend.drop (absorbCount c v.pend)).length = c.occ + v.pend.length := by
    rw [List.length_drop]
    change c.occ + absorbCount c v.pend + _ = _
    omega
  obtain ⟨hop, hlive, humod, hufirst, hfmod, hffirst, -, -, -, -, -⟩ := hbusy
  rw [← hsum] at humod hufirst hfmod hffirst
  have hctx' := ctxInv_absorbCtx hctx v.pend
  by_cases hfull : (absorbCtx c v.pend).occ = c.bs
  · rw [if_pos hfull]
    exact Iff.mpr (slotInv_iff_of_busy rfl nofun) ⟨hb, by simp [hne], hctx', hop, hlive, humod, hufirst,
      hfmod, hffirst, nofun, fun _ => hfull, nofun, nofun, nofun⟩
  · rw [if_neg hfull]
    have hlt : (absorbCtx c v.pend).occ < c.bs := lt_of_le_of_ne hctx'.occ_le hfull
    exact Iff.mpr (slotInv_iff_of_busy rfl nofun) ⟨hb, by simp [hne], hctx', hop, hlive, humod, hufirst,
      hfmod, hffirst, fun _ => hlt, nofun, nofun, nofun, nofun⟩

/-- The last `ABSORB` of an `UPDATE` (R162). -/
theorem slotInv_updateDone (h : SlotInv cfg b v) (hs : v.seq = .absorb) (hc : v.ctx = some c) (hp : v.pend = [])
    (ho : v.op = some .update) : SlotInv cfg b { v with seq := .idle } := by
  obtain ⟨hb, -, hctx, hbusy⟩ := (slotInv_iff_of_busy hc (by simp [hs])).1 h
  have hne := h.err_eq_none (by simp [hs])
  have hlt := hbusy.absorb_occ hs
  have hmod := hbusy.update_mod ho
  have hfirst := hbusy.update_first ho
  simp only [hp, List.length_nil, Nat.add_zero] at hmod hfirst
  refine Iff.mpr (slotInv_iff_of_idle hc rfl) ⟨hb, hne, hp, hctx, hlt, fun _ => ?_, fun _ => hfirst⟩
  rw [← hmod, Nat.mod_eq_of_lt hlt]

/-- The last `ABSORB` of a `FINISH`: every byte of the padded message has been fed (R185, R186). -/
theorem slotInv_tailDone (h : SlotInv cfg b v) (hs : v.seq = .absorb) (hc : v.ctx = some c) (hp : v.pend = [])
    (ho : v.op ≠ some .update) : SlotInv cfg b { v with seq := .extract } := by
  obtain ⟨hb, -, hctx, hbusy⟩ := (slotInv_iff_of_busy hc (by simp [hs])).1 h
  have hop : v.op = some .finish := by
    have hsome := hbusy.op_some
    cases hv : v.op with
    | none => exact absurd hv hsome
    | some o => cases o <;> simp_all
  have hocc : c.occ = 0 := by
    have hmod := hbusy.finish_mod hop
    rwa [hp, List.length_nil, Nat.add_zero, Nat.mod_eq_of_lt (hbusy.absorb_occ hs)] at hmod
  have hfirst : c.firstBlock = false := by
    by_contra hf
    have hpos := hbusy.finish_first hop (by simpa using hf)
    simp [hp, hocc] at hpos
  refine Iff.mpr (slotInv_iff_of_busy hc nofun) ⟨hb, by simp [h.err_eq_none, hs], hctx, ?_⟩
  exact ⟨hbusy.op_some, hbusy.live, hbusy.update_mod, hbusy.update_first, hbusy.finish_mod, hbusy.finish_first,
    nofun, nofun, nofun, nofun, fun _ => ⟨hop, hp, hocc, hfirst⟩⟩

/-! ### The arbiter's micro-operations and `EXTRACT` -/

/-- `ACQUIRE` (R121). -/
theorem slotInv_acquired (h : SlotInv cfg b v) (hs : v.seq = .acq) : SlotInv cfg b { v with seq := .feed } := by
  obtain ⟨c, hc⟩ := Option.ne_none_iff_exists'.1 (h.busy_ctx (by simp [hs]))
  obtain ⟨hb, -, hctx, hbusy⟩ := (slotInv_iff_of_busy hc (by simp [hs])).1 h
  refine Iff.mpr (slotInv_iff_of_busy hc nofun) ⟨hb, by simp [h.err_eq_none, hs], hctx, ?_⟩
  exact ⟨hbusy.op_some, hbusy.live, hbusy.update_mod, hbusy.update_first, hbusy.finish_mod, hbusy.finish_first,
    nofun, fun _ => hbusy.acq_occ (.inl hs), nofun, nofun, nofun⟩

/-- The context after a block operation that saved `words` (R123). -/
theorem ctxInv_savedWords (h : CtxInv c) {words : List Word} (hl : words.length = stateWords (famOf c.mode))
    (hw : ∀ w ∈ words, w.toNat < 2 ^ wordBits (famOf c.mode)) :
    CtxInv { c with state := overwriteWords words c.state, firstBlock := false, occ := 0 } := by
  have hsaved : overwriteWords words c.state = words := by
    refine overwriteWords_of_length_le ?_
    rw [hl, h.words_length]
    split <;> simp
  rw [hsaved]
  exact ⟨h.total_lt, hw, hl, h.buffer_length, Nat.zero_le _, h.init_total⟩

/-- `FEED_BLOCK` with the words read (R123). -/
theorem slotInv_fedSlot_some (h : SlotInv cfg b v) (hs : v.seq = .feed) (hc : v.ctx = some c) {words : List Word}
    (hl : words.length = stateWords (famOf c.mode)) (hw : ∀ w ∈ words, w.toNat < 2 ^ wordBits (famOf c.mode)) :
    SlotInv cfg b (fedSlot v c (some words)) := by
  obtain ⟨hb, -, hctx, hbusy⟩ := (slotInv_iff_of_busy hc (by simp [hs])).1 h
  have hne := h.err_eq_none (by simp [hs])
  have hblock : (c.occ + v.pend.length) % c.bs = (0 + v.pend.length) % c.bs := by
    rw [hbusy.acq_occ (.inr hs), Nat.add_mod_left, Nat.zero_add]
  refine Iff.mpr (slotInv_iff_of_busy rfl nofun) ⟨hb, by simp [fedSlot, hne], ctxInv_savedWords hctx hl hw, ?_⟩
  constructor
  case op_some => exact hbusy.op_some
  case live => exact hbusy.live
  case update_mod => exact fun ho => hblock ▸ hbusy.update_mod ho
  case finish_mod => exact fun ho => hblock ▸ hbusy.finish_mod ho
  case rel_ok => exact fun _ _ => ⟨rfl, rfl⟩
  case rel_err => simp [fedSlot, hne]
  all_goals nofun

/-- `FEED_BLOCK` with an engine error, which waits for `RELEASE` (R125). -/
theorem slotInv_fedSlot_none (h : SlotInv cfg b v) (hs : v.seq = .feed) (hc : v.ctx = some c)
    (hf : cfg.hwCanFail = true) : SlotInv cfg b (fedSlot v c none) := by
  obtain ⟨hb, -, hctx, hbusy⟩ := (slotInv_iff_of_busy hc (by simp [hs])).1 h
  refine Iff.mpr (slotInv_iff_of_busy hc nofun) ⟨hb, fun _ => ⟨rfl, hf⟩, hctx, ?_⟩
  exact ⟨hbusy.op_some, hbusy.live, hbusy.update_mod, hbusy.update_first, hbusy.finish_mod, hbusy.finish_first,
    nofun, nofun, nofun, fun _ _ => hbusy.acq_occ (.inr hs), nofun⟩

/-- `RELEASE` with no error to report (R124). -/
theorem slotInv_released (h : SlotInv cfg b v) (hs : v.seq = .rel) (he : v.err = .none) :
    SlotInv cfg b { v with seq := .absorb } := by
  obtain ⟨c, hc⟩ := Option.ne_none_iff_exists'.1 (h.busy_ctx (by simp [hs]))
  obtain ⟨hb, -, hctx, hbusy⟩ := (slotInv_iff_of_busy hc (by simp [hs])).1 h
  have hocc := (hbusy.rel_ok hs he).1
  refine Iff.mpr (slotInv_iff_of_busy hc nofun) ⟨hb, by simp [he], hctx, ?_⟩
  exact ⟨hbusy.op_some, hbusy.live, hbusy.update_mod, hbusy.update_first, hbusy.finish_mod, hbusy.finish_first,
    fun _ => hocc ▸ c.bs_pos, nofun, nofun, nofun, nofun⟩

/-- `EXTRACT` (R200, R201). -/
theorem slotInv_extracted (h : SlotInv cfg b v) (hs : v.seq = .extract) (hc : v.ctx = some c) :
    SlotInv cfg b { v with ctx := some { c with lifecycle := .terminal }, seq := .idle } := by
  obtain ⟨hb, -, hctx, hbusy⟩ := (slotInv_iff_of_busy hc (by simp [hs])).1 h
  obtain ⟨-, hpend, hocc, -⟩ := hbusy.extract_done hs
  have hne := h.err_eq_none (by simp [hs])
  refine Iff.mpr (slotInv_iff_of_idle rfl rfl) ⟨hb, hne, hpend, ?_, hocc ▸ c.bs_pos, nofun, nofun⟩
  exact ⟨hctx.total_lt, hctx.words_lt, hctx.words_length, hctx.buffer_length, hctx.occ_le, nofun⟩

end Sys2Proof.Machine
end

section
/-! The invariant of the machine under each move, and every step keeps it. -/

namespace Sys2Proof.Machine

/-! ### The acceptance of a command -/

theorem sidNat_lt (sid : BitVec 16) : sidNat sid < 65536 := sid.isLt

/-- The set of channels a `SID` names exists (R63). -/
theorem slotPort_lt {n : Nat} (hn : n < 65536) : ∀ k, PortId.slot n = .slot k → k < 65536 := by
  rintro k ⟨⟩
  exact hn

theorem isIdle_iff {s : State} {k : Nat} : s.isIdle k = true ↔ (s.slot k).seq = .idle := by simp [State.isIdle]

/-- A slot without a context is as good after bring-up as before (R292). -/
theorem inv_setReady {s : State} (hi : Inv s) : Inv (s.setReady true) :=
  { hi with
    codes := by simpa using hi.codes
    slots := fun k => { hi.slots k with not_ready := nofun } }

theorem inv_bringUpResult {s : State} (hi : Inv s) (ok : Bool) : Inv (bringUpResult s ok) := by
  cases ok
  · exact inv_post hi .bringUp _ nofun
  · exact inv_post (inv_setReady hi) .bringUp _ nofun

/-- The error protocol on a slot that does not hold the lock (R250). -/
theorem inv_raise_of_not_holding {s : State} (hi : Inv s) {k : Nat} (e : Status) (hk : k < s.cfg.nCtx)
    (hn : holdsLock (s.slot k).seq = false) (he : e = .invalidState → (s.slot k).seq = .idle) :
    Inv (s.raise k e) := by
  refine inv_raise (l := s.lock) hi e hk (fun j => ?_) he
  rw [hi.lock_iff]
  exact ⟨fun h => ⟨by rintro rfl; simp [hn] at h, h⟩, And.right⟩

/-- A well-formed command for an idle slot keeps the invariant (R140, R142, R161, R181). -/
theorem inv_exec {i : Instr} {s t : State} (hi : Inv s) (hwf : i.wf = true)
    (hidle : ∀ sid, instrSid i = some sid → s.isIdle (sidNat sid) = true) (h : exec i s = .next t) : Inv t := by
  rcases exec_next h with ⟨-, -, rfl⟩ | ⟨sid, -, -, -, rfl⟩ | ⟨sid, hs, hbusy, -⟩ |
    ⟨sid, m, hs, -, -, hk, hr, rfl⟩ | ⟨sid, m, -, -, -, -, -, rfl⟩ | ⟨sid, e, hs, -, -, hk, rfl, -⟩ |
    ⟨nullbuf, sid, len, data, c, rfl, hq, hk, hr, hc, hlive, hnull, rfl⟩ |
    ⟨nullbuf, sid, c, rfl, hq, hk, hr, hc, hlive, -, rfl⟩
  · exact inv_bringUpResult hi _
  · exact inv_post hi _ _ (slotPort_lt (sidNat_lt sid))
  · simp [hidle sid hs] at hbusy
  · have hq := isIdle_iff.1 (hidle sid hs)
    have hv := hr ▸ hi.slots (sidNat sid)
    have hset : Inv (s.setCtx (sidNat sid) (freshCtx m)) :=
      inv_setSlot_of_same_lock hi hk rfl (hr ▸ slotInv_freshCtx hv hq m)
    exact inv_post hset _ _ (slotPort_lt (sidNat_lt sid))
  · exact inv_post hi _ _ (slotPort_lt (sidNat_lt sid))
  · have hq := isIdle_iff.1 (hidle sid hs)
    exact inv_raise_of_not_holding hi e hk (by rw [hq]; rfl) fun _ => hq
  · have hq := isIdle_iff.1 hq
    refine inv_setSlot_of_same_lock hi hk (by rw [hq]; rfl) (slotInv_updateSlot (hi.slots _) hq hc hlive ?_)
    cases nullbuf
    · simpa [Instr.wf] using hwf
    · simp [hnull rfl]
  · have hq := isIdle_iff.1 hq
    exact inv_setSlot_of_same_lock hi hk (by rw [hq]; rfl) (slotInv_finishSlot (hi.slots _) hq hc hlive)

/-- A step accepts only on channels that exist (R63). -/
theorem lt_of_chosen_accept {s : State} (hi : Inv s) {p : PortId} (h : s.chosen = some (.accept p)) :
    ∀ k, p = .slot k → k < 65536 := by
  rintro k rfl
  by_contra hk
  have hr := portReady_of_chosen hi.ports_wf h
  rw [State.port, sparseGet_eq_default_of_below hi.ports_below (Nat.le_of_not_lt hk)] at hr
  simp [portReady, Port.empty, takeCommand] at hr

/-- Taking a command's words and bytes off keeps the invariant. -/
theorem inv_consume {s : State} (hi : Inv s) {p : PortId} (hp : ∀ k, p = .slot k → k < 65536) (ws : List CmdWord)
    (ds : List Byte) : Inv (s.consume p ws ds) := inv_setPort hi p _ hp rfl

/-- The acceptance a step takes keeps the invariant (R96, R98). -/
theorem inv_acceptMove {s t : State} {p : PortId} (hi : Inv s) (hc : s.chosen = some (.accept p))
    (h : acceptMove p s = .next t) : Inv t := by
  have hp := lt_of_chosen_accept hi hc
  obtain ⟨c, ws, ds, ht, ⟨e, -, rfl⟩ | ⟨i, hd, he, hidle⟩⟩ :=
    acceptMove_next_of_ready (portReady_of_chosen hi.ports_wf hc) h
  · exact inv_post (inv_consume hi hp ws ds) p _ hp
  · exact inv_exec (inv_consume hi hp ws ds) (wf_of_takeCommand_decode ht hd) (by simpa using hidle) he

/-! ### The micro-operations -/

theorem inv_absorb {k : Nat} {s t : State} (hi : Inv s) (h : absorb k s = .next t) : Inv t := by
  obtain ⟨c, hs, hc, hcase⟩ := absorb_next h
  have hk := lt_nCtx_of_busy hi (k := k) (by simp [hs])
  have hv := hi.slots k
  rcases hcase with ⟨hp, ho, rfl⟩ | ⟨hp, ho, rfl⟩ | ⟨-, rfl⟩
  · exact inv_post (inv_setSlot_of_same_lock hi hk (by rw [hs]; rfl) (slotInv_updateDone hv hs hc hp ho)) _ _
      (slotPort_lt (lt_of_lt_of_le hk (nCtx_le hi)))
  · exact inv_setSlot_of_same_lock hi hk (by rw [hs]; rfl) (slotInv_tailDone hv hs hc hp ho)
  · refine inv_setSlot_of_same_lock hi hk ?_ (slotInv_absorbCtx hv hs hc)
    rw [hs]
    dsimp only
    split <;> rfl

theorem inv_acquire {k : Nat} {s t : State} (hi : Inv s) (h : acquire k s = .next t) : Inv t := by
  obtain ⟨hs, hfree, rfl⟩ := acquire_next h
  refine inv_setSlot hi (lt_nCtx_of_busy hi (by simp [hs])) (l := .held k) (e := s.eng) (fun j => ?_) hi.engine
    (slotInv_acquired (hi.slots k) hs)
  by_cases hj : j = k
  · simp [hj, holdsLock]
  · simp [hj, ← hi.lock_iff, hfree, Ne.symm hj]

theorem inv_acquireTimeout {k : Nat} {s t : State} (hi : Inv s) (h : acquireTimeout k s = .next t) : Inv t := by
  obtain ⟨hs, -, -, rfl⟩ := acquireTimeout_next h
  exact inv_raise_of_not_holding hi _ (lt_nCtx_of_busy hi (by simp [hs])) (by rw [hs]; rfl) nofun

theorem inv_feedBlock {k : Nat} {s t : State} (hi : Inv s) (h : feedBlock k s = .next t) : Inv t := by
  obtain ⟨c, hs, -, hc, hr, rfl⟩ := feedBlock_next h
  have hv := hi.slots k
  have hfed : SlotInv s.cfg s.hwReady (fedSlot (s.slot k) c (runBlock s.cfg s.draw c s.eng).2) := by
    obtain ⟨hf, he⟩ | ⟨words, hw, hl, hlt, -, -⟩ := runBlock_cases s.cfg s.draw s.eng hr
    · rw [he]
      exact slotInv_fedSlot_none hv hs hc hf
    · rw [hw]
      exact slotInv_fedSlot_some hv hs hc hl hlt
  refine inv_setSlot hi (lt_nCtx_of_busy hi (by simp [hs])) (l := s.lock) (fun j => ?_)
    (engineInv_runBlock s.cfg s.draw hi.engine hr) hfed
  rw [hi.lock_iff]
  by_cases hj : j = k
  · subst hj
    cases (runBlock s.cfg s.draw c s.eng).2 <;> simp [hs, holdsLock, fedSlot]
  · simp [hj]

/-- While slot `k` holds the lock no other slot is at `FEED` or `REL` (R301(d)). -/
theorem holdsLock_other {s : State} (hi : Inv s) {j k : Nat} (hl : s.lock = .held k) (hj : j ≠ k) :
    holdsLock (s.slot j).seq = false := by
  by_contra hh
  have hheld := (hi.lock_iff j).2 (by simpa using hh)
  rw [hl] at hheld
  exact hj (by simpa using hheld.symm)

theorem inv_release {k : Nat} {s t : State} (hi : Inv s) (h : release k s = .next t) : Inv t := by
  obtain ⟨hs, hl, hcase⟩ := release_next h
  have hk := lt_nCtx_of_busy hi (k := k) (by simp [hs])
  rcases hcase with ⟨-, rfl⟩ | ⟨he, rfl⟩
  · refine inv_raise hi _ hk (fun j => ?_) nofun
    simpa using holdsLock_other hi hl
  · refine inv_setSlot hi hk (l := .free) (e := s.eng) (fun j => ?_) hi.engine (slotInv_released (hi.slots k) hs he)
    by_cases hj : j = k
    · simp [hj, holdsLock]
    · simp [hj, holdsLock_other hi hl hj]

theorem inv_emit {s : State} (hi : Inv s) {k : Nat} (hk : k < 65536) (bs : List Byte) : Inv (s.emit k bs) :=
  inv_setPort hi (.slot k) _ (slotPort_lt hk) rfl

theorem inv_extract {k : Nat} {s t : State} (hi : Inv s) (h : extract k s = .next t) : Inv t := by
  obtain ⟨c, hs, hc, -, rfl⟩ := extract_next h
  have hk := lt_nCtx_of_busy hi (k := k) (by simp [hs])
  have hp := lt_of_lt_of_le hk (nCtx_le hi)
  refine inv_post (inv_setSlot_of_same_lock (inv_emit hi hp _) hk ?_ (slotInv_extracted (hi.slots k) hs hc)) _ _
    (slotPort_lt hp)
  rw [slot_emit, hs]
  rfl

/-! ### The step -/

/-- The move a step takes keeps the invariant. -/
theorem inv_takeMove {m : Move} {s t : State} (hi : Inv s) (hc : s.chosen = some m) (h : takeMove m s = .next t) :
    Inv t := by
  cases m with
  | accept p => exact inv_acceptMove hi hc h
  | absorb k => exact inv_absorb hi h
  | acquire k => exact inv_acquire hi h
  | timeout k => exact inv_acquireTimeout hi h
  | feed k => exact inv_feedBlock hi h
  | release k => exact inv_release hi h
  | extract k => exact inv_extract hi h

/-- A machine whose registers, stores and channels have their reset values is good (R50). -/
theorem inv_of_reset_values {s : State} (hcfg : s.cfg.wf = true) (hl : s.lock = .free) (he : s.eng = Engine.bottom)
    (hs : s.slots = []) (hb : s.bringUp = Port.empty) (hp : s.ports = []) : Inv s := by
  have hslot : ∀ k, s.slot k = Slot.reset := fun k => by simp [State.slot, hs]
  have hport : ∀ p, s.port p = Port.empty := by
    rintro (_ | k)
    · exact hb
    · simp [State.port, hp]
  refine ⟨hcfg, by rw [hs]; rfl, by rw [hp]; rfl, by rw [hs]; rfl, by rw [hp]; rfl, fun k => ?_, fun p => ?_,
    he ▸ engineInv_bottom, fun k => ?_⟩
  · simp [hl, hslot, Slot.reset, holdsLock]
  · simp [hport, Port.empty]
  · rw [hslot]
    exact ⟨fun _ => ⟨rfl, rfl⟩, nofun, fun _ => rfl, fun hn => absurd rfl hn, nofun, nofun, nofun⟩

/-- Settles O41: the reset event leaves reset values, waiting leaves the state, and every move keeps the invariant. -/
theorem stepKeepsTheInvariant : Obligations.StepKeepsTheInvariant := by
  intro s t hi h
  obtain ⟨-, rfl⟩ | ⟨-, -, rfl⟩ | ⟨m, u, -, hc, hu, rfl⟩ := step_next h
  · exact inv_of_reset_values hi.cfg rfl rfl rfl rfl rfl
  · exact hi
  · exact inv_advanceDraw (inv_takeMove hi hc hu)

/-- Settles O40: the reset state has the reset values, whatever the implementation. -/
theorem resetMeetsTheInvariant : Obligations.ResetMeetsTheInvariant := by
  have hreset : ∀ c : Config, c.wf = true → Inv (State.resetOf c) := fun c hc =>
    inv_of_reset_values hc rfl rfl rfl rfl rfl
  exact ⟨hreset, hreset Config.default (by decide)⟩

/-- Settles O1: every slot number reads as a slot after reset. -/
theorem resetLeavesStatedValues : Obligations.ResetLeavesStatedValues := by
  intro c
  refine ⟨rfl, rfl, fun i => ?_, rfl, fun k => ?_⟩
  · simp [Engine.bottom]
  · simp [Slot.reset]

end Sys2Proof.Machine
end

section
/-! Who writes the lock, `hw_ready` and a context's mode, and what a first block reads. -/

namespace Sys2Proof.Machine

/-! ### What the acceptance of a command leaves alone -/

/-- The meanings leave the implementation parameters and the lock alone, and only `HWINIT` writes `hw_ready`, to 1
(R9, R20, R21, R140). -/
theorem exec_globals {i : Instr} {s t : State} (h : exec i s = .next t) :
    t.cfg = s.cfg ∧ t.lock = s.lock ∧ (t.hwReady = s.hwReady ∨ i = .hwinit ∧ t.hwReady = true) := by
  rcases exec_next h with ⟨rfl, -, rfl⟩ | ⟨sid, -, -, -, rfl⟩ | ⟨sid, -, -, rfl⟩ | ⟨sid, m, -, -, -, -, -, rfl⟩ |
    ⟨sid, m, -, -, -, -, -, rfl⟩ | ⟨sid, e, -, -, -, -, rfl, -⟩ |
    ⟨nullbuf, sid, len, data, c, -, -, -, -, -, -, -, rfl⟩ |
    ⟨nullbuf, sid, c, -, -, -, -, -, -, -, rfl⟩
  case inl => cases s.draw.initOk <;> simp [bringUpResult]
  all_goals simp

/-- The slot record `w` has lost its context or has kept the mode of the record `v` (R35). -/
def KeepsMode (v w : Slot) : Prop := w.ctx = none ∨ w.ctx.map Ctx.mode = v.ctx.map Ctx.mode

theorem KeepsMode.refl (v : Slot) : KeepsMode v v := .inr rfl

theorem KeepsMode.mode_eq {v w : Slot} {c c' : Ctx} (h : KeepsMode v w) (hc : v.ctx = some c)
    (hc' : w.ctx = some c') : c'.mode = c.mode := by
  simpa [KeepsMode, hc, hc'] using h

/-- Every error but `InvalidState` takes the context away (R250, R252). -/
theorem keepsMode_errorSlot (e : Status) (v : Slot) : KeepsMode v (errorSlot e v) := by
  by_cases he : e = .invalidState <;> simp [KeepsMode, errorSlot, he]

theorem keepsMode_fedSlot {v : Slot} {c : Ctx} (hc : v.ctx = some c) (r : Option (List Word)) :
    KeepsMode v (fedSlot v c r) := by
  cases r <;> simp [KeepsMode, fedSlot, hc]

/-- A slot either keeps its mode over a command, or the command is a `STARTS` for it (R35, R142). -/
theorem exec_mode {i : Instr} {s t : State} (h : exec i s = .next t) (k : Nat) :
    KeepsMode (s.slot k) (t.slot k) ∨
      (instrSid i).map sidNat = some k ∧ (t.slot k).ctx.map Ctx.mode = startsMode i := by
  rcases exec_next h with ⟨-, -, rfl⟩ | ⟨sid, -, -, -, rfl⟩ | ⟨sid, -, -, rfl⟩ | ⟨sid, m, hs, hm, -, -, -, rfl⟩ |
    ⟨sid, m, -, -, -, -, -, rfl⟩ | ⟨sid, e, -, -, -, -, rfl, -⟩ |
    ⟨nullbuf, sid, len, data, c, -, -, -, -, hc, -, -, rfl⟩ | ⟨nullbuf, sid, c, -, -, -, -, hc, -, -, rfl⟩
  · cases s.draw.initOk <;> simp [bringUpResult, KeepsMode.refl]
  · simp [KeepsMode.refl]
  · simp [KeepsMode.refl]
  · by_cases hk : k = sidNat sid
    · subst hk
      exact .inr ⟨by simp [hs], by simp [State.setCtx, freshCtx, hm]⟩
    · simp [State.setCtx, hk, KeepsMode.refl]
  · simp [KeepsMode.refl]
  · by_cases hk : k = sidNat sid
    · subst hk
      simp [keepsMode_errorSlot]
    · simp [hk, KeepsMode.refl]
  · by_cases hk : k = sidNat sid
    · subst hk
      simp [KeepsMode, updateSlot, updateCtx, hc]
    · simp [hk, KeepsMode.refl]
  · by_cases hk : k = sidNat sid
    · subst hk
      simp [KeepsMode, finishSlot]
    · simp [hk, KeepsMode.refl]

/-! ### What a micro-operation leaves alone -/

/-- No micro-operation writes the implementation parameters or `hw_ready` (R20). -/
theorem takeMove_cfg_hwReady {m : Move} {s t : State} {k : Nat} (hm : m.slot? = some k)
    (h : takeMove m s = .next t) : t.cfg = s.cfg ∧ t.hwReady = s.hwReady := by
  cases m with
  | accept p => simp [Move.slot?] at hm
  | absorb k => obtain ⟨c, -, -, ⟨-, -, rfl⟩ | ⟨-, -, rfl⟩ | ⟨-, rfl⟩⟩ := absorb_next h <;> simp
  | acquire k => obtain ⟨-, -, rfl⟩ := acquire_next h; simp
  | timeout k => obtain ⟨-, -, -, rfl⟩ := acquireTimeout_next h; simp
  | feed k => obtain ⟨c, -, -, -, -, rfl⟩ := feedBlock_next h; simp
  | release k => obtain ⟨-, -, ⟨-, rfl⟩ | ⟨-, rfl⟩⟩ := release_next h <;> simp
  | extract k => obtain ⟨c, -, -, -, rfl⟩ := extract_next h; simp

/-- The lock is written only by `ACQUIRE`, which takes it for its slot, and by `RELEASE`, which frees it (R21). -/
theorem takeMove_lock {m : Move} {s t : State} {k : Nat} (hm : m.slot? = some k) (h : takeMove m s = .next t) :
    t.lock = s.lock ∨ (m = .acquire k ∧ s.lock = .free ∧ t.lock = .held k) ∨
      (m = .release k ∧ s.lock = .held k ∧ t.lock = .free) := by
  cases m with
  | accept p => simp [Move.slot?] at hm
  | absorb j => obtain ⟨c, -, -, ⟨-, -, rfl⟩ | ⟨-, -, rfl⟩ | ⟨-, rfl⟩⟩ := absorb_next h <;> simp
  | acquire j =>
    obtain ⟨-, hl, rfl⟩ := acquire_next h
    cases hm
    exact .inr (.inl ⟨rfl, hl, rfl⟩)
  | timeout j => obtain ⟨-, -, -, rfl⟩ := acquireTimeout_next h; simp
  | feed j => obtain ⟨c, -, -, -, -, rfl⟩ := feedBlock_next h; simp
  | release j =>
    obtain ⟨-, hl, ⟨-, rfl⟩ | ⟨-, rfl⟩⟩ := release_next h <;> cases hm <;> exact .inr (.inr ⟨rfl, hl, rfl⟩)
  | extract j => obtain ⟨c, -, -, -, rfl⟩ := extract_next h; simp

/-- No micro-operation writes a mode (R35). -/
theorem takeMove_mode {m : Move} {s t : State} {j : Nat} (hm : m.slot? = some j) (h : takeMove m s = .next t)
    (k : Nat) : KeepsMode (s.slot k) (t.slot k) := by
  by_cases hk : k = j
  · subst hk
    cases m with
    | accept p => simp [Move.slot?] at hm
    | absorb k =>
      cases hm
      obtain ⟨c, -, hc, ⟨-, -, rfl⟩ | ⟨-, -, rfl⟩ | ⟨-, rfl⟩⟩ := absorb_next h <;>
        simp [KeepsMode, hc, absorbCtx]
    | acquire k =>
      cases hm
      obtain ⟨-, -, rfl⟩ := acquire_next h
      simp [KeepsMode]
    | timeout k =>
      cases hm
      obtain ⟨-, -, -, rfl⟩ := acquireTimeout_next h
      simp [keepsMode_errorSlot]
    | feed k =>
      cases hm
      obtain ⟨c, -, -, hc, -, rfl⟩ := feedBlock_next h
      simp [keepsMode_fedSlot hc]
    | release k =>
      cases hm
      obtain ⟨-, -, ⟨-, rfl⟩ | ⟨-, rfl⟩⟩ := release_next h
      · simp [keepsMode_errorSlot]
      · simp [KeepsMode]
    | extract k =>
      cases hm
      obtain ⟨c, -, hc, -, rfl⟩ := extract_next h
      simp [KeepsMode, hc]
  · rw [takeMove_other_slot hm h k hk]
    exact .refl _

/-! ### The step -/

/-- What a step other than the reset event did: it waited, it answered an illegal word, it accepted an instruction, or
it took a micro-operation of one slot (R11, R96, R98). -/
theorem step_next_of_no_reset {s t : State} (hr : s.resetReq = false) (h : step s = .next t) :
    t = s ∨
    (∃ p ws ds, t = ((s.consume p ws ds).post p .invalidArgument).advanceDraw) ∨
    (∃ p ws ds i u, s.accepting = some i ∧ exec i (s.consume p ws ds) = .next u ∧ t = u.advanceDraw) ∨
    (∃ m k u, s.chosen = some m ∧ m.slot? = some k ∧ takeMove m s = .next u ∧ t = u.advanceDraw) := by
  obtain ⟨hr', -⟩ | ⟨-, -, rfl⟩ | ⟨m, u, -, hc, hu, rfl⟩ := step_next h
  · simp [hr] at hr'
  · exact .inl rfl
  · cases hm : m.slot? with
    | some k => exact .inr (.inr (.inr ⟨m, k, u, hc, hm, hu, rfl⟩))
    | none =>
      cases m <;> simp only [Move.slot?, reduceCtorEq] at hm
      obtain ⟨c, ws, ds, ht, ⟨i, hd, he⟩ | ⟨e, -, rfl⟩⟩ := acceptMove_next hu
      · exact .inr (.inr (.inl ⟨_, ws, ds, i, u, accepting_of_decode hc ht hd, he, rfl⟩))
      · exact .inr (.inl ⟨_, ws, ds, rfl⟩)

/-- Settles O45: a step that waits or accepts leaves the lock, so it took a micro-operation. -/
theorem lockChangesOnlyByArbiter : Obligations.LockChangesOnlyByArbiter := by
  intro s t hr h hne
  obtain rfl | ⟨p, ws, ds, rfl⟩ | ⟨p, ws, ds, i, u, -, hu, rfl⟩ | ⟨m, k, u, hc, hm, hu, rfl⟩ :=
    step_next_of_no_reset hr h
  · exact absurd rfl hne
  · simp at hne
  · obtain ⟨-, hl, -⟩ := exec_globals hu
    exact absurd (by simpa using hl) hne
  · obtain hl | ⟨rfl, hs, hl⟩ | ⟨rfl, hs, hl⟩ := takeMove_lock hm hu
    · exact absurd hl hne
    · exact ⟨k, .inl ⟨hc, hs, hl⟩⟩
    · exact ⟨k, .inr ⟨hc, hs, hl⟩⟩

/-- Settles O46: of everything a step can have done, only an accepted `HWINIT` writes `hw_ready`. -/
theorem hwReadyChangesOnlyByHwinit : Obligations.HwReadyChangesOnlyByHwinit := by
  intro s t hr h
  obtain rfl | ⟨p, ws, ds, rfl⟩ | ⟨p, ws, ds, i, u, ha, hu, rfl⟩ | ⟨m, k, u, -, hm, hu, rfl⟩ :=
    step_next_of_no_reset hr h
  · simp
  · simp
  · obtain ⟨hcfg, -, hsame | ⟨rfl, hup⟩⟩ := exec_globals hu
    · simp [hcfg, hsame]
    · simp [hcfg, hup, ha]
  · simp [takeMove_cfg_hwReady hm hu]

/-- Settles O50: a slot that has not kept its mode was named by a `STARTS`. -/
theorem modeChangesOnlyByStarts : Obligations.ModeChangesOnlyByStarts := by
  intro s t k c c' hr h hc hc' hne
  have hlost : ¬KeepsMode (s.slot k) (t.slot k) := fun hk => hne (hk.mode_eq hc hc')
  obtain rfl | ⟨p, ws, ds, rfl⟩ | ⟨p, ws, ds, i, u, ha, hu, rfl⟩ | ⟨m, j, u, -, hm, hu, rfl⟩ :=
    step_next_of_no_reset hr h
  · exact absurd (.refl _) hlost
  · simp [KeepsMode.refl] at hlost
  · obtain hk | ⟨hsid, hmode⟩ := exec_mode hu k
    · exact absurd (by simpa using hk) hlost
    · simp only [slot_advanceDraw] at hc'
      simp [State.restarting, ha, hsid, ← hmode, hc']
  · exact absurd (takeMove_mode hm hu k) hlost

/-! ### The first block of a message -/

/-- A first block whose engine does not end in an error saves exactly `NW` words (R123, R214). -/
theorem runBlock_words_of_mode {cfg : Config} {d : Draw} {c : Ctx} {e : Engine} (h : restoreUnwritten c = false)
    (hm : (runBlock cfg d c e).1.mode ≠ none) :
    ∃ words, (runBlock cfg d c e).2 = some words ∧ words.length = stateWords (famOf c.mode) := by
  obtain ⟨-, hr⟩ | ⟨words, hw, hl, -⟩ := runBlock_cases cfg d e h
  · rw [hr] at hm
    exact absurd rfl hm
  · exact ⟨words, hw, hl⟩

/-- Settles O49: both block operations run the engine alike, so both save the same words. -/
theorem firstBlockIgnoresStateWords : Obligations.FirstBlockIgnoresStateWords := by
  intro s t t' k c words hc hf h h' hmode
  obtain ⟨d, -, -, hd, hr, rfl⟩ := feedBlock_next h
  obtain ⟨d', -, -, hd', -, rfl⟩ := feedBlock_next h'
  obtain rfl : c = d := by simpa [hc] using hd
  obtain rfl : { c with state := words } = d' := by simpa [State.setCtx] using hd'
  have hdraw : (s.setCtx k { c with state := words }).draw = s.draw := rfl
  obtain ⟨saved, hw, hl⟩ := runBlock_words_of_mode hr hmode
  simp only [State.setCtx_cfg, State.setCtx_eng, hdraw, runBlock_firstBlock_state _ _ _ _ hf, hw, fedSlot,
    slot_setSlot_same]
  exact ⟨_, _, rfl, rfl, by simp [take_overwriteWords _ hl], rfl⟩

end Sys2Proof.Machine
end

section
/-! The memory rules: any enabled move may be next, the length field is big-endian, and who writes the engine registers
and a slot record (R60, R63, R70 to R73). -/

namespace Sys2Proof.Machine

/-! ### The choice of the coming step -/

/-- Which moves are enabled does not depend on the draws of the run (R70). -/
theorem enabledMoves_withTape (s : State) (ds : List Draw) : enabledMoves { s with tape := ds } = enabledMoves s :=
  rfl

/-- The draw's `turn` picks the move at that place of the enabled ones (R70). -/
theorem chosen_withTurn {s : State} {i : Nat} (hi : i < (enabledMoves s).length) (ds : List Draw) :
    State.chosen { s with tape := { s.draw with turn := i } :: ds } = some (enabledMoves s)[i] := by
  rw [State.chosen, enabledMoves_withTape, State.draw]
  dsimp only
  rw [Nat.mod_eq_of_lt hi, List.getElem?_eq_getElem hi]

/-- Settles O24: the draw whose `turn` is the move's place among the enabled ones. -/
theorem anyEnabledMoveMayBeNext : Obligations.AnyEnabledMoveMayBeNext := by
  intro s m hm
  obtain ⟨i, hi, rfl⟩ := List.mem_iff_getElem.1 hm
  exact ⟨{ s.draw with turn := i }, enabledMoves_withTape .., chosen_withTurn hi _⟩

/-! ### The length field -/

theorem beValue_concat (bs : List Byte) (b : Byte) : beValue (bs ++ [b]) = beValue bs * 256 + b.toNat := by
  simp [beValue]

/-- The last byte of a big-endian spelling is the number's lowest; the bytes before it spell the rest (R10). -/
theorem beBytes_succ (n v : Nat) : beBytes (n + 1) v = beBytes n (v / 256) ++ [BitVec.ofNat 8 v] := by
  have hrest : ∀ i ∈ List.range n, BitVec.ofNat 8 (v / 2 ^ (8 * (n + 1 - 1 - i))) =
      BitVec.ofNat 8 (v / 256 / 2 ^ (8 * (n - 1 - i))) := by
    intro i hi
    have hexp : 8 * (n + 1 - 1 - i) = 8 + 8 * (n - 1 - i) := by
      have := List.mem_range.1 hi
      omega
    rw [hexp, Nat.pow_add, ← Nat.div_div_eq_div_mul]
  rw [beBytes, beBytes, List.range_succ, List.map_append, List.map_congr_left hrest]
  simp

/-- A big-endian spelling of `n` bytes reads back as the number modulo `2^(8n)` (R10). -/
theorem beValue_beBytes (n v : Nat) : beValue (beBytes n v) = v % 2 ^ (8 * n) := by
  induction n generalizing v with
  | zero => simp [beBytes, beValue, Nat.mod_one]
  | succ n ih =>
    calc beValue (beBytes (n + 1) v) = v / 256 % 2 ^ (8 * n) * 256 + v % 256 := by
          rw [beBytes_succ, beValue_concat, ih, BitVec.toNat_ofNat]
      _ = v % (256 * 2 ^ (8 * n)) := by rw [Nat.mod_mul]; omega
      _ = v % 2 ^ (8 * (n + 1)) := by rw [Nat.mul_succ, Nat.pow_add, Nat.mul_comm]

/-- The bit-length fits its field: `2·W = 8·LFS` (R7, R183). -/
theorem bitLength_lt (f : Family) (t : Counter) : bitLength f t < 2 ^ (8 * lenFieldSize f) := by
  have hbits : 2 * wordBits f = 8 * lenFieldSize f := by cases f <;> rfl
  rw [← hbits]
  exact Nat.mod_lt _ (Nat.two_pow_pos _)

/-- Behind the marker and the zeros of the tail stands the length field (R184). -/
theorem drop_tailBytes (f : Family) (occ : Nat) (t : Counter) :
    (tailBytes f occ t).drop (1 + padZeros f occ) = beBytes (lenFieldSize f) (bitLength f t) := by
  rw [tailBytes, Nat.add_comm, List.drop_succ_cons, List.drop_left' (length_zeroBytes _)]

/-- Settles O39: byte by byte by the spelling's own bytes, and read back because the bit-length fits the field. -/
theorem lengthFieldIsBigEndian : Obligations.LengthFieldIsBigEndian := by
  intro f n total
  constructor
  · intro i hi
    rw [← List.getElem?_drop, drop_tailBytes, getElem?_beBytes hi]
  · rw [drop_tailBytes, beValue_beBytes, Nat.mod_eq_of_lt (bitLength_lt f total)]

/-! ### Who writes the engine registers and a slot record -/

/-- The meaning of a command leaves the engine registers alone, and every slot record but the one it names
(R63, R73). -/
theorem exec_eng_slots {i : Instr} {s t : State} (h : exec i s = .next t) :
    t.eng = s.eng ∧ ∀ k, (instrSid i).map sidNat ≠ some k → t.slot k = s.slot k := by
  have hother : ∀ {sid k}, instrSid i = some sid → (instrSid i).map sidNat ≠ some k → k ≠ sidNat sid := by
    rintro sid k hs hk rfl
    simp [hs] at hk
  rcases exec_next h with ⟨-, -, rfl⟩ | ⟨sid, -, -, -, rfl⟩ | ⟨sid, -, -, rfl⟩ | ⟨sid, m, hs, -, -, -, -, rfl⟩ |
    ⟨sid, m, -, -, -, -, -, rfl⟩ | ⟨sid, e, hs, -, -, -, rfl, -⟩ |
    ⟨nullbuf, sid, len, data, c, rfl, -, -, -, -, -, -, rfl⟩ | ⟨nullbuf, sid, c, rfl, -, -, -, -, -, -, rfl⟩
  · cases s.draw.initOk <;> simp [bringUpResult]
  · simp
  · simp
  · exact ⟨by simp, fun k hk => by simp [State.setCtx, hother hs hk]⟩
  · simp
  · exact ⟨by simp, fun k hk => slot_raise_other _ _ (hother hs hk)⟩
  · exact ⟨rfl, fun k hk => slot_setSlot_other _ _ (hother rfl hk)⟩
  · exact ⟨rfl, fun k hk => slot_setSlot_other _ _ (hother rfl hk)⟩

/-- Of the micro-operations only `FEED_BLOCK` writes the engine registers (R73). -/
theorem takeMove_eng {m : Move} {s t : State} {k : Nat} (hm : m.slot? = some k) (h : takeMove m s = .next t) :
    t.eng = s.eng ∨ m = .feed k := by
  cases m with
  | accept p => simp [Move.slot?] at hm
  | absorb j => obtain ⟨c, -, -, ⟨-, -, rfl⟩ | ⟨-, -, rfl⟩ | ⟨-, rfl⟩⟩ := absorb_next h <;> simp
  | acquire j => obtain ⟨-, -, rfl⟩ := acquire_next h; simp
  | timeout j => obtain ⟨-, -, -, rfl⟩ := acquireTimeout_next h; simp
  | feed j => cases hm; exact .inr rfl
  | release j => obtain ⟨-, -, ⟨-, rfl⟩ | ⟨-, rfl⟩⟩ := release_next h <;> simp
  | extract j => obtain ⟨c, -, -, -, rfl⟩ := extract_next h; simp

/-- The slot at `FEED_BLOCK` holds the lock, and what the engine then holds is no value, after an error, or is saved in
the slot's context (R123, R125, R301(b)). -/
theorem feedBlock_saves {k : Nat} {s t : State} (h : feedBlock k s = .next t) :
    s.lock = .held k ∧
      (t.eng = Engine.bottom ∨
        ∃ c, (t.slot k).ctx = some c ∧ t.eng.mode = some c.mode ∧
          c.state.take (stateWords (famOf c.mode)) = t.eng.h.take (stateWords (famOf c.mode))) := by
  obtain ⟨c, -, hl, -, hr, rfl⟩ := feedBlock_next h
  refine ⟨hl, ?_⟩
  obtain ⟨-, he⟩ | ⟨words, hw, hlen, -, hmode, hh⟩ := runBlock_cases s.cfg s.draw s.eng hr
  · exact .inl (by simp [he])
  · rw [hw, slot_setSlot_same]
    exact .inr ⟨_, rfl, hmode, by simp [take_overwriteWords _ hlen, hh]⟩

/-- Settles O44: a step that waits or accepts leaves the engine, so it took the one micro-operation that writes it. -/
theorem engineChangesOnlyUnderTheLock : Obligations.EngineChangesOnlyUnderTheLock := by
  intro s t hr h hne
  obtain rfl | ⟨p, ws, ds, rfl⟩ | ⟨p, ws, ds, i, u, -, hu, rfl⟩ | ⟨m, k, u, hc, hm, hu, rfl⟩ :=
    step_next_of_no_reset hr h
  · exact absurd rfl hne
  · simp at hne
  · exact absurd (by simpa using (exec_eng_slots hu).1) hne
  · obtain he | rfl := takeMove_eng hm hu
    · exact absurd he hne
    · exact ⟨k, hc, feedBlock_saves (t := u) hu⟩

/-- Settles O47: a command leaves every slot but the one it names, a micro-operation every slot but its own. -/
theorem slotsArePrivate : Obligations.SlotsArePrivate := by
  intro s t k hr h hne
  obtain rfl | ⟨p, ws, ds, rfl⟩ | ⟨p, ws, ds, i, u, ha, hu, rfl⟩ | ⟨m, j, u, hc, hm, hu, rfl⟩ :=
    step_next_of_no_reset hr h
  · exact absurd rfl hne
  · simp at hne
  · by_cases hsid : (instrSid i).map sidNat = some k
    · obtain ⟨sid, hs, hk⟩ := Option.map_eq_some_iff.1 hsid
      exact .inl ⟨i, sid, ha, hs, hk⟩
    · exact absurd (by simpa using (exec_eng_slots hu).2 k hsid) hne
  · by_cases hk : k = j
    · exact .inr ⟨m, hc, hk ▸ hm⟩
    · exact absurd (takeMove_other_slot hm hu k hk) hne

end Sys2Proof.Machine
end

section
/-! The encoding: framing, decode of encode and encode of decode, and the opcode table (R91 to R97). -/

namespace Sys2Proof.Machine

open Sys2Proof.Laws

/-! ### Framing -/

/-- Settles O17: `OP` and `NULLBUF` pick the branch of the framing. -/
theorem framingOfCommands : Obligations.FramingOfCommands := by
  intro cw len ws d ds
  refine ⟨fun hop hbuf hlen => ?_, fun hop hbuf => ?_, fun hop => ?_⟩
  · simp [takeCommand, dataCount, hasLen, hop, hbuf, ← hlen]
  · simp [takeCommand, dataCount, hasLen, hop, hbuf]
  · simp [takeCommand, hasLen, hop]

/-- What is taken off the channels stood at their head; a command without a `LEN` word has none and no byte (R94). -/
theorem takeCommand_eq_some {ws ws' : List CmdWord} {ds ds' : List Byte} {c : Command}
    (h : takeCommand ws ds = some (c, ws', ds')) :
    ws = c.words ++ ws' ∧ ds = c.data ++ ds' ∧ (hasLen c.cw = false → c.len = 0 ∧ c.data = []) := by
  cases ws with
  | nil => simp [takeCommand] at h
  | cons cw ws =>
    by_cases hl : hasLen cw = true
    · cases ws with
      | nil => simp [takeCommand, hl] at h
      | cons len ws =>
        simp only [takeCommand, hl, if_true, Option.ite_none_right_eq_some, Option.some.injEq, Prod.mk.injEq] at h
        obtain ⟨-, rfl, rfl, rfl⟩ := h
        simp [Command.words, hl]
    · simp only [takeCommand, hl, Bool.false_eq_true, if_false, Option.some.injEq, Prod.mk.injEq] at h
      obtain ⟨rfl, rfl, rfl⟩ := h
      simp [Command.words, hl]

/-- Every encoded instruction is framed as itself (R94). -/
theorem framed (i : Instr) : Framed.Statement i := by
  cases i with
  | hwinit => exact Framed.hwinit
  | startsSha1 sid => exact Framed.startsSha1 sid
  | startsSha256 sid => exact Framed.startsSha256 sid
  | startsSha224 sid => exact Framed.startsSha224 sid
  | startsSha512 sid => exact Framed.startsSha512 sid
  | startsSha384 sid => exact Framed.startsSha384 sid
  | update nullbuf sid len data => exact Framed.update nullbuf sid len data
  | finish nullbuf sid => exact Framed.finish nullbuf sid

/-! ### Decode of encode -/

theorem nullbufBit_beq (b : Bool) : (nullbufBit b == 1#1) = b := by cases b <;> rfl

theorem nullbufBit_of_beq (x : BitVec 1) : nullbufBit (x == 1#1) = x := by revert x; decide

/-- The instruction with the `LEN` word and the bytes of an `UPDATE` replaced. -/
def withPayload (len : BitVec 32) (data : List Byte) : Instr → Instr
  | .update nullbuf sid _ _ => .update nullbuf sid len data
  | i => i

/-- The decoder reads every field of an encoded word back, and the payload from behind it (R91, R93, R97). -/
theorem decodeCommand_cw_encode (i : Instr) (len : BitVec 32) (data : List Byte) :
    decodeCommand ⟨(encode i).cw, len, data⟩ = .ok (withPayload len data i) := by
  have hzero : mkCw 0#4 0#2 0#1 0#1 0#16 = 0#32 := rfl
  cases i with
  | hwinit => simp [decodeCommand, encode, withPayload, hzero, cwOp, cwRsv25, cwRsv22]
  | _ =>
    simp [decodeCommand, encode, withPayload, cwOp_mkCw, cwFam_mkCw, cwVar_mkCw, cwNullbuf_mkCw, cwSid_mkCw,
      cwRsv25_mkCw, cwRsv22_mkCw, nullbufBit_beq]

theorem decodeCommand_encode (i : Instr) : decodeCommand (encode i) = .ok i :=
  (decodeCommand_cw_encode i (encode i).len (encode i).data).trans (by cases i <;> rfl)

/-- Settles O21: the words and bytes are framed as the encoded command, and that decodes to the instruction. -/
theorem decodeOfEncode : Obligations.DecodeOfEncode := by
  intro i ws ds hwf
  rw [decode, framed i hwf ws ds]
  simp only [decodeCommand_encode]

/-- Settles O20: the decoder evaluated on each word. -/
theorem specWordsDecode : Obligations.SpecWordsDecode := ⟨rfl, rfl, rfl, rfl, rfl, rfl, rfl⟩

/-! ### Encode of decode -/

/-- A command word whose reserved bits are 0 is made of the values its fields have. -/
theorem mkCw_eq_of_fields {cw : CmdWord} {op : BitVec 4} {fam : BitVec 2} {var nullbuf : BitVec 1}
    (hrsv : cwRsv25 cw = 0#1 ∧ cwRsv22 cw = 0#7) (hop : cwOp cw = op) (hfam : cwFam cw = fam) (hvar : cwVar cw = var)
    (hnull : cwNullbuf cw = nullbuf) : mkCw op fam var nullbuf (cwSid cw) = cw := by
  subst hop hfam hvar hnull
  exact mkCw_fields hrsv.1 hrsv.2

/-- A word that decodes is the encoded word of its instruction: each branch of the decoder has tested every field
(R91, R97). -/
theorem cw_encode_of_decode {c : Command} {i : Instr} (h : decodeCommand c = .ok i) : (encode i).cw = c.cw := by
  have bit : ∀ x : BitVec 1, ¬x = 0#1 → x = 1#1 := by decide
  have op3 : ∀ x : BitVec 4, ¬3#4 < x → ¬x = 0#4 → ¬x = 1#4 → ¬x = 2#4 → x = 3#4 := by decide
  simp only [decodeCommand, Bool.or_eq_true, bne_iff_ne, ne_eq] at h
  split_ifs at h with hle hrsv h0 hz h1 hnull hf0 hvar hf1 hvar hf2 hvar hfv h2
  all_goals cases h
  all_goals replace hrsv := And.intro (not_not.1 (not_or.1 hrsv).1) (not_not.1 (not_or.1 hrsv).2)
  case pos.refl => rw [hz]; rfl
  · exact mkCw_eq_of_fields hrsv h1 hf0 hvar hnull
  · exact mkCw_eq_of_fields hrsv h1 hf1 hvar hnull
  · exact mkCw_eq_of_fields hrsv h1 hf1 (bit _ hvar) hnull
  · exact mkCw_eq_of_fields hrsv h1 hf2 hvar hnull
  · exact mkCw_eq_of_fields hrsv h1 hf2 (bit _ hvar) hnull
  · simp only [not_or, not_not] at hfv
    exact mkCw_eq_of_fields hrsv h2 hfv.1 hfv.2 (nullbufBit_of_beq _).symm
  · simp only [not_or, not_not] at hfv
    exact mkCw_eq_of_fields hrsv (op3 _ hle h0 h1 h2) hfv.1 hfv.2 (nullbufBit_of_beq _).symm

/-- A command without a `LEN` word where its command word has none is the encoding of what it decodes to. -/
theorem encode_of_decode {c : Command} {i : Instr} (hd : decodeCommand c = .ok i)
    (hnone : hasLen c.cw = false → c.len = 0 ∧ c.data = []) : encode i = c := by
  have hcw := cw_encode_of_decode hd
  obtain ⟨cw, len, data⟩ := c
  cases i with
  | update nullbuf sid len' data' =>
    obtain ⟨-, -, hlen, hdata⟩ := fields_of_decode_update hd
    simpa [encode, ← hlen, ← hdata] using hcw
  | _ =>
    subst hcw
    obtain ⟨hlen, hdata⟩ := hnone (by simp [encode, hasLen, cwOp_mkCw])
    simpa [encode] using And.intro hlen.symm hdata.symm

/-- Settles O22: the framing gives the split of the channels, and the command is its instruction's encoding because a
`LEN` word and bytes stand only where the word announces them. -/
theorem encodeOfDecode : Obligations.EncodeOfDecode := by
  intro ws ws' ds ds' c i ht hd
  obtain ⟨hws, hds, hnone⟩ := takeCommand_eq_some ht
  exact ⟨encode_of_decode hd hnone, wf_of_takeCommand_decode ht hd, hws, hds⟩

/-! ### The opcode table -/

/-- Two command words are equal when all their fields are (R91). -/
theorem cw_eq_iff (w v : CmdWord) :
    w = v ↔ cwOp w = cwOp v ∧ cwFam w = cwFam v ∧ cwRsv25 w = cwRsv25 v ∧ cwVar w = cwVar v ∧
      cwNullbuf w = cwNullbuf v ∧ cwRsv22 w = cwRsv22 v ∧ cwSid w = cwSid v := by
  constructor
  · rintro rfl
    simp
  · rintro ⟨h1, h2, h3, h4, h5, h6, h7⟩
    apply BitVec.eq_of_toNat_eq
    rw [toNat_cw w, toNat_cw v, h1, h2, h3, h4, h5, h6, h7]

/-- The fields of a word under a mask (R97). -/
theorem and_eq_iff_fields (w m p : CmdWord) :
    w &&& m = p ↔
      cwOp w &&& cwOp m = cwOp p ∧ cwFam w &&& cwFam m = cwFam p ∧ cwRsv25 w &&& cwRsv25 m = cwRsv25 p ∧
      cwVar w &&& cwVar m = cwVar p ∧ cwNullbuf w &&& cwNullbuf m = cwNullbuf p ∧
      cwRsv22 w &&& cwRsv22 m = cwRsv22 p ∧ cwSid w &&& cwSid m = cwSid p := by
  rw [cw_eq_iff]
  simp only [cwOp, cwFam, cwRsv25, cwVar, cwNullbuf, cwRsv22, cwSid, BitVec.extractLsb'_and]

/-- A row whose mask has every field whole but `NULLBUF` and leaves out `SID` is fitted by the words made of its
pattern's fields, with any `SID` and any `NULLBUF` that agrees under the mask (R97). -/
theorem fits_iff_mkCw {m : BitVec 32} (hm : cwOp m = BitVec.allOnes 4 ∧ cwFam m = BitVec.allOnes 2 ∧
      cwRsv25 m = BitVec.allOnes 1 ∧ cwVar m = BitVec.allOnes 1 ∧ cwRsv22 m = BitVec.allOnes 7 ∧ cwSid m = 0#16)
    (op : BitVec 4) (fam : BitVec 2) (var nullbuf : BitVec 1) (w : CmdWord) :
    OpcodeRow.fits ⟨mkCw op fam var nullbuf 0#16, m⟩ w = true ↔
      ∃ n sid, n &&& cwNullbuf m = nullbuf ∧ w = mkCw op fam var n sid := by
  obtain ⟨mop, mfam, m25, mvar, m22, msid⟩ := hm
  simp only [OpcodeRow.fits, beq_iff_eq, and_eq_iff_fields, mop, mfam, m25, mvar, m22, msid, BitVec.and_allOnes,
    BitVec.and_zero, cwOp_mkCw, cwFam_mkCw, cwRsv25_mkCw, cwVar_mkCw, cwNullbuf_mkCw, cwRsv22_mkCw, cwSid_mkCw,
    and_true]
  constructor
  · rintro ⟨hop, hfam, h25, hvar, hnull, h22⟩
    exact ⟨_, _, hnull, (mkCw_eq_of_fields ⟨h25, h22⟩ hop hfam hvar rfl).symm⟩
  · rintro ⟨n, sid, hnull, rfl⟩
    simp [cwOp_mkCw, cwFam_mkCw, cwRsv25_mkCw, cwVar_mkCw, cwNullbuf_mkCw, cwRsv22_mkCw, hnull]

/-- The rows of `STARTS` leave out `SID` (R97). -/
theorem fits_startsRow (op : BitVec 4) (fam : BitVec 2) (var nullbuf : BitVec 1) (w : CmdWord) :
    OpcodeRow.fits ⟨mkCw op fam var nullbuf 0#16, 0xFFFF0000⟩ w = true ↔ ∃ sid, w = mkCw op fam var nullbuf sid := by
  have hnull : cwNullbuf 0xFFFF0000 = BitVec.allOnes 1 := by decide
  rw [fits_iff_mkCw (by decide), hnull]
  simp only [BitVec.and_allOnes, exists_and_left, exists_eq_left]

/-- The rows of `UPDATE` and `FINISH` leave out `NULLBUF` and `SID` (R97). -/
theorem fits_nullbufRow (op : BitVec 4) (fam : BitVec 2) (var : BitVec 1) (w : CmdWord) :
    OpcodeRow.fits ⟨mkCw op fam var 0#1 0#16, 0xFF7F0000⟩ w = true ↔ ∃ n sid, w = mkCw op fam var n sid := by
  have hnull : cwNullbuf 0xFF7F0000 = 0#1 := by decide
  rw [fits_iff_mkCw (by decide), hnull]
  simp only [BitVec.and_zero, true_and]

/-- The row of `HWINIT` leaves no field out (R97). -/
theorem fits_hwinitRow (w : CmdWord) : OpcodeRow.fits ⟨0, 0xFFFFFFFF⟩ w = true ↔ w = 0 := by
  rw [OpcodeRow.fits, beq_iff_eq]
  change w &&& BitVec.allOnes 32 = _ ↔ _
  rw [BitVec.and_allOnes]

theorem rowOf_mem (i : Instr) : rowOf i ∈ opcodeRows := by cases i <;> simp [rowOf, opcodeRows]

/-- An encoded instruction fits its own row (R97). -/
theorem fits_encode (i : Instr) : (rowOf i).fits (encode i).cw = true := by
  cases i with
  | hwinit => rfl
  | startsSha1 sid => exact (fits_startsRow 1#4 0#2 0#1 0#1 _).2 ⟨sid, rfl⟩
  | startsSha256 sid => exact (fits_startsRow 1#4 1#2 0#1 0#1 _).2 ⟨sid, rfl⟩
  | startsSha224 sid => exact (fits_startsRow 1#4 1#2 1#1 0#1 _).2 ⟨sid, rfl⟩
  | startsSha512 sid => exact (fits_startsRow 1#4 2#2 0#1 0#1 _).2 ⟨sid, rfl⟩
  | startsSha384 sid => exact (fits_startsRow 1#4 2#2 1#1 0#1 _).2 ⟨sid, rfl⟩
  | update nullbuf sid _ _ => exact (fits_nullbufRow 2#4 0#2 0#1 _).2 ⟨nullbufBit nullbuf, sid, rfl⟩
  | finish nullbuf sid => exact (fits_nullbufRow 3#4 0#2 0#1 _).2 ⟨nullbufBit nullbuf, sid, rfl⟩

/-- A word that fits a row is the encoded word of an instruction of that row (R97). -/
theorem cw_encode_of_fits {r : OpcodeRow} {w : CmdWord} (hr : r ∈ opcodeRows) (h : r.fits w = true) :
    ∃ i, rowOf i = r ∧ w = (encode i).cw := by
  simp only [opcodeRows, List.mem_cons, List.not_mem_nil, or_false] at hr
  obtain rfl | rfl | rfl | rfl | rfl | rfl | rfl | rfl := hr
  · exact ⟨.hwinit, rfl, (fits_hwinitRow w).1 h⟩
  · obtain ⟨sid, hw⟩ := (fits_startsRow 1#4 0#2 0#1 0#1 w).1 h
    exact ⟨.startsSha1 sid, rfl, hw⟩
  · obtain ⟨sid, hw⟩ := (fits_startsRow 1#4 1#2 0#1 0#1 w).1 h
    exact ⟨.startsSha256 sid, rfl, hw⟩
  · obtain ⟨sid, hw⟩ := (fits_startsRow 1#4 1#2 1#1 0#1 w).1 h
    exact ⟨.startsSha224 sid, rfl, hw⟩
  · obtain ⟨sid, hw⟩ := (fits_startsRow 1#4 2#2 0#1 0#1 w).1 h
    exact ⟨.startsSha512 sid, rfl, hw⟩
  · obtain ⟨sid, hw⟩ := (fits_startsRow 1#4 2#2 1#1 0#1 w).1 h
    exact ⟨.startsSha384 sid, rfl, hw⟩
  · obtain ⟨n, sid, hw⟩ := (fits_nullbufRow 2#4 0#2 0#1 w).1 h
    exact ⟨.update (n == 1#1) sid 0 [], rfl, by rw [hw, encode, nullbufBit_of_beq]⟩
  · obtain ⟨n, sid, hw⟩ := (fits_nullbufRow 3#4 0#2 0#1 w).1 h
    exact ⟨.finish (n == 1#1) sid, rfl, by rw [hw, encode, nullbufBit_of_beq]⟩

/-- A word that fits a row decodes to an instruction of that row (R97). -/
theorem decode_of_fits {c : Command} {r : OpcodeRow} (hr : r ∈ opcodeRows) (h : r.fits c.cw = true) :
    ∃ i, decodeCommand c = .ok i ∧ rowOf i = r := by
  obtain ⟨cw, len, data⟩ := c
  obtain ⟨i, rfl, rfl⟩ := cw_encode_of_fits hr h
  exact ⟨withPayload len data i, decodeCommand_cw_encode i len data, by cases i <;> rfl⟩

/-- Settles O18: a decoded word is its instruction's encoded one, which fits its row; a word that fits two rows decodes
to one instruction, which has one row. -/
theorem legalWordsAreTheTableRows : Obligations.LegalWordsAreTheTableRows := by
  intro c
  refine ⟨fun i hi => ⟨rowOf_mem i, cw_encode_of_decode hi ▸ fits_encode i⟩, fun r hr h => decode_of_fits hr h,
    fun r hr r' hr' h h' => ?_⟩
  obtain ⟨i, hi, rfl⟩ := decode_of_fits hr h
  obtain ⟨i', hi', rfl⟩ := decode_of_fits hr' h'
  rw [hi, Except.ok.injEq] at hi'
  rw [hi']

end Sys2Proof.Machine
end

section
/-! The acceptance of a command: an illegal one changes nothing, a legal one is run, and which moves are enabled
(R92, R96, R98, R121 to R124). -/

namespace Sys2Proof.Machine

/-! ### Commands that are answered `InvalidArgument` -/

/-- A command whose slot number is out of range is answered and does nothing else (R92, R98). -/
theorem exec_of_sid_out_of_range {i : Instr} {sid : BitVec 16} {s : State} (hs : instrSid i = some sid)
    (hi : s.isIdle (sidNat sid) = true) (hn : s.cfg.nCtx ≤ sidNat sid) :
    exec i s = .next (s.post (.slot (sidNat sid)) .invalidArgument) := by
  obtain ⟨body, hb⟩ := exec_eq_whenAccepted hs s
  rw [hb, whenAccepted, if_pos hi, if_neg (Nat.not_lt.2 hn)]

/-- A status alone changes nothing else (R100). -/
theorem answered_post (s : State) (p : PortId) (st : Status) : answered p (statusCode st) s (s.post p st) :=
  ⟨port_post_same s p st, fun _ hq => port_post_other s st hq⟩

theorem sameGlobals_post (s : State) (p : PortId) (st : Status) : sameGlobals s (s.post p st) := by simp [sameGlobals]

/-- Settles O15: the command is answered at acceptance. -/
theorem slotOutOfRangeIsInvalidArgument : Obligations.SlotOutOfRangeIsInvalidArgument := by
  intro i sid s hs hi hn
  exact ⟨_, exec_of_sid_out_of_range hs hi hn, answered_post s _ _, fun _ => slot_post .., sameGlobals_post ..⟩

/-- A command that fits no row does not decode (R97). -/
theorem decode_error_of_fits_none {c : Command} (h : ∀ r ∈ opcodeRows, r.fits c.cw = false) :
    ∃ e, decodeCommand c = .error e := by
  cases hd : decodeCommand c with
  | error e => exact ⟨e, rfl⟩
  | ok i =>
    have hfit : (rowOf i).fits c.cw = true := cw_encode_of_decode hd ▸ fits_encode i
    simp [h _ (rowOf_mem i)] at hfit

/-- Settles O19: either kind of illegal command is taken off and answered on its own channels. -/
theorem illegalCommandChangesNothing : Obligations.IllegalCommandChangesNothing := by
  intro s p c ws ds ht hbad
  have hanswer : takeMove (.accept p) s = .next ((s.consume p ws ds).post p .invalidArgument) := by
    simp only [takeMove, acceptMove, ht]
    obtain hfit | ⟨i, sid, hd, hs, rfl, hi, hn⟩ := hbad
    · obtain ⟨e, he⟩ := decode_error_of_fits_none hfit
      rw [he]
    · rw [hd]
      exact exec_of_sid_out_of_range hs (by simpa using hi) (by simpa using hn)
  refine ⟨_, hanswer, fun j => by simp, by simp [sameGlobals], fun q hq => by simp [hq], ?_⟩
  simp [statusCode]

/-! ### The step that accepts -/

/-- A decoded instruction is the one the command at the head of the channels decodes to (R94, R97). -/
theorem takeCommand_of_decode {ws ws' : List CmdWord} {ds ds' : List Byte} {i : Instr}
    (h : decode ws ds = .ok (i, ws', ds')) :
    ∃ c, takeCommand ws ds = some (c, ws', ds') ∧ decodeCommand c = .ok i := by
  unfold decode at h
  split at h
  · simp at h
  · next c _ _ ht =>
    split at h
    · simp at h
    · next j hd =>
      simp only [Except.ok.injEq, Prod.mk.injEq] at h
      obtain ⟨rfl, rfl, rfl⟩ := h
      exact ⟨c, ht, hd⟩

/-- Settles O23: the chosen acceptance takes off the command that decodes and runs what it decodes to. -/
theorem stepRunsDecodedInstruction : Obligations.StepRunsDecodedInstruction := by
  intro s p i ws ds hr hc hd
  obtain ⟨c, ht, hi⟩ := takeCommand_of_decode hd
  simp [step, stepOnce, hr, hc, takeMove, acceptMove, ht, hi]

/-! ### Which moves are enabled -/

theorem heldByOther_iff (l : Lock) (k : Nat) : heldByOther l k = true ↔ ∃ j, j ≠ k ∧ l = .held j := by
  cases l <;> simp [heldByOther]

/-- Settles O25: an acceptance where the head of the channels can be accepted, and for each micro-operation its own
clause of the sequencer's. -/
theorem enabledMovesAreTheRequires : Obligations.EnabledMovesAreTheRequires := by
  intro s hs hp
  refine ⟨fun p => ?_, fun k => ?_⟩
  · rw [← portReady_iff, mem_enabledMoves hs hp]
    simp [seqMove_eq_some]
  · simp only [mem_enabledMoves hs hp, seqMove_eq_some, heldByOther_iff]
    refine ⟨?_, ?_, ?_, ?_, ?_, ?_⟩ <;> simp

end Sys2Proof.Machine
end

section
/-! What goes out: at most one status code per step, each with its cause, and digest bytes only with the `OK` of a
`FINISH` (R100, R101, R240 to R248). -/

namespace Sys2Proof.Machine

/-! ### The response channels -/

theorem resp_post (s : State) (p q : PortId) (st : Status) :
    ((s.post p st).port q).resp = (s.port q).resp ++ if q = p then [statusCode st] else [] := by
  by_cases hq : q = p
  · subst hq
    simp
  · simp [hq]

theorem resp_raise (s : State) (k : Nat) (q : PortId) (e : Status) :
    ((s.raise k e).port q).resp = (s.port q).resp ++ if q = .slot k then [statusCode e] else [] := by
  simp [State.raise, resp_post]

/-- Taking a command off its channels puts nothing out (R96). -/
theorem outputs_consume (s : State) (p q : PortId) (ws : List CmdWord) (ds : List Byte) :
    ((s.consume p ws ds).port q).resp = (s.port q).resp ∧
      ((s.consume p ws ds).port q).digestOut = (s.port q).digestOut := by
  by_cases hq : q = p
  · subst hq
    simp
  · simp [hq]

/-- A command that waits puts nothing out (R291). -/
theorem outputs_putBack (s : State) (p q : PortId) (c : Command) :
    ((s.putBack p c).port q).resp = (s.port q).resp ∧
      ((s.putBack p c).port q).digestOut = (s.port q).digestOut := by
  by_cases hq : q = p
  · subst hq
    simp [State.putBack]
  · simp [State.putBack, hq]

theorem resp_emit (s : State) (k : Nat) (q : PortId) (bs : List Byte) :
    ((s.emit k bs).port q).resp = (s.port q).resp := by
  by_cases hq : q = .slot k
  · subst hq
    simp
  · simp [hq]

/-- From `s` to `t` no status has gone out, or one has, on one set of channels, with its cause. -/
def AnswersOnce (s t : State) : Prop :=
  (∀ q, (t.port q).resp = (s.port q).resp) ∨
    ∃ p st, answerCause s p (statusCode st) ∧
      ∀ q, (t.port q).resp = (s.port q).resp ++ if q = p then [statusCode st] else []

theorem AnswersOnce.of_same {s t : State} (h : ∀ q, (t.port q).resp = (s.port q).resp) : AnswersOnce s t := .inl h

/-- A status put out after changes that leave the response channels alone. -/
theorem AnswersOnce.of_post {s u : State} {p : PortId} {st : Status} (h : ∀ q, (u.port q).resp = (s.port q).resp)
    (hc : answerCause s p (statusCode st)) : AnswersOnce s (u.post p st) :=
  .inr ⟨p, st, hc, fun q => by rw [resp_post, h]⟩

/-- An error raised after changes that leave the response channels alone. -/
theorem AnswersOnce.of_raise {s u : State} {k : Nat} {e : Status} (h : ∀ q, (u.port q).resp = (s.port q).resp)
    (hc : answerCause s (.slot k) (statusCode e)) : AnswersOnce s (u.raise k e) :=
  .inr ⟨.slot k, e, hc, fun q => by rw [resp_raise, h]⟩

/-! ### The causes -/

theorem draw_consume (s : State) (p : PortId) (ws : List CmdWord) (ds : List Byte) :
    (s.consume p ws ds).draw = s.draw := by simp [State.draw]

/-- A bring-up answers its outcome (R140). -/
theorem bringUpResult_answersOnce {s u : State} (hu : ∀ q, (u.port q).resp = (s.port q).resp)
    (ha : s.accepting = some .hwinit) (hr : s.hwReady = false) :
    AnswersOnce s (bringUpResult u s.draw.initOk) := by
  cases hok : s.draw.initOk <;> simp only [bringUpResult, Bool.false_eq_true, if_false, if_true]
  · exact .of_post hu (.inr (.inl ⟨rfl, hr, .inl ⟨ha, rfl, hok⟩⟩))
  · exact .of_post (by simpa using hu) (.inl ⟨rfl, .inl ⟨ha, rfl, hr, hok⟩⟩)

/-- An error of `UPDATE` or `FINISH` at acceptance has the cause of its code (R241, R243, R246). -/
theorem answerCause_of_exec_error {s : State} {i : Instr} {k : Nat} {e : Status} (hon : s.acceptsOn (.slot k) i k)
    (hm : startsMode i = none) (hk : k < s.cfg.nCtx)
    (h : (e = .hardwareUnavailable ∧ s.hwReady = false) ∨
      (e = .invalidArgument ∧ s.hwReady = true ∧ nullArgument i = true ∧ ∃ c, (s.slot k).ctx = some c) ∨
      (e = .invalidState ∧ s.hwReady = true ∧ nullArgument i = false ∧
        ∃ c, (s.slot k).ctx = some c ∧ c.lifecycle = .terminal)) :
    answerCause s (.slot k) (statusCode e) := by
  obtain ⟨rfl, hr⟩ | ⟨rfl, hr, hnull, c, hc⟩ | ⟨rfl, hr, hnull, c, hc, hl⟩ := h
  · exact .inr (.inl ⟨rfl, hr, .inr ⟨i, k, hon, hk⟩⟩)
  · exact .inr (.inr (.inr (.inl ⟨rfl, .inr (.inr ⟨i, k, hon, hk, hr, by simp [hc], hnull⟩)⟩)))
  · exact .inr (.inr (.inr (.inr (.inl ⟨rfl, i, k, c, hon, hm, hk, hr, hc, hl, hnull⟩))))

/-- The acceptance of an instruction puts out each status for the cause that R240 to R248 name. -/
theorem exec_answersOnce {i : Instr} {s u : State} {p : PortId} {ws : List CmdWord} {ds : List Byte}
    (ha : s.accepting = some i) (h : exec i (s.consume p ws ds) = .next u) :
    AnswersOnce s u := by
  have hsame := fun q => (outputs_consume s p q ws ds).1
  have hon : ∀ {sid}, instrSid i = some sid → s.acceptsOn (.slot (sidNat sid)) i (sidNat sid) := fun hs =>
    ⟨ha, by simp [hs], rfl⟩
  have hcase := exec_next h
  simp only [State.consume_cfg, State.consume_hwReady, slot_consume, draw_consume] at hcase
  obtain ⟨rfl, hr, rfl⟩ | ⟨sid, hs, -, hn, rfl⟩ | ⟨sid, -, -, rfl⟩ | ⟨sid, m, hs, hm, -, hk, hr, rfl⟩ |
    ⟨sid, m, hs, -, -, hk, hr, rfl⟩ | ⟨sid, e, hs, hm, -, hk, rfl, he⟩ |
    ⟨nullbuf, sid, len, data, c, -, -, -, -, -, -, -, rfl⟩ | ⟨nullbuf, sid, c, -, -, -, -, -, -, -, rfl⟩ := hcase
  · exact bringUpResult_answersOnce hsame ha hr
  · exact .of_post hsame (.inr (.inr (.inr (.inl ⟨rfl, .inr (.inl ⟨i, _, hon hs, hn⟩)⟩))))
  · exact .of_same fun q => (outputs_putBack ..).1.trans (hsame q)
  · exact .of_post (by simpa using hsame) (.inl ⟨rfl, .inr (.inl ⟨i, m, _, hon hs, hm, hk, hr⟩)⟩)
  · exact .of_post hsame (.inr (.inl ⟨rfl, hr, .inr ⟨i, _, hon hs, hk⟩⟩))
  · exact .of_raise hsame (answerCause_of_exec_error (hon hs) hm hk he)
  · exact .of_same (by simpa using hsame)
  · exact .of_same (by simpa using hsame)

/-- A micro-operation puts out a status only where it ends its slot's command (R122, R124, R162, R200). -/
theorem takeMove_answersOnce {m : Move} {k : Nat} {s u : State} (hi : Inv s) (hc : s.chosen = some m)
    (hm : m.slot? = some k) (h : takeMove m s = .next u) :
    AnswersOnce s u := by
  cases m with
  | accept p => simp [Move.slot?] at hm
  | absorb k =>
    obtain ⟨c, -, -, ⟨hp, ho, rfl⟩ | ⟨-, -, rfl⟩ | ⟨-, rfl⟩⟩ := absorb_next h
    · exact .of_post (by simp) (.inl ⟨rfl, .inr (.inr (.inl ⟨k, hc, rfl, hp, ho⟩))⟩)
    · exact .of_same (by simp)
    · exact .of_same (by simp)
  | acquire k =>
    obtain ⟨-, -, rfl⟩ := acquire_next h
    exact .of_same (by simp)
  | timeout k =>
    obtain ⟨-, -, ht, rfl⟩ := acquireTimeout_next h
    exact .of_raise (fun _ => rfl) (.inr (.inr (.inl ⟨rfl, k, hc, rfl, ht⟩)))
  | feed k =>
    obtain ⟨c, -, -, -, -, rfl⟩ := feedBlock_next h
    exact .of_same (by simp)
  | release k =>
    obtain ⟨-, -, ⟨he, rfl⟩ | ⟨-, rfl⟩⟩ := release_next h
    · exact .of_raise (by simp) (.inr (.inr (.inr (.inr (.inr ⟨rfl, k, hc, rfl, he, ((hi.slots k).err_rel he).2⟩)))))
    · exact .of_same (by simp)
  | extract k =>
    obtain ⟨c, -, -, -, rfl⟩ := extract_next h
    exact .of_post (by simp [resp_emit]) (.inl ⟨rfl, .inr (.inr (.inr ⟨k, hc, rfl⟩))⟩)

/-- The move a step takes answers at most once, with its cause; an illegal word is answered where it stood (R98). -/
theorem takeMove_chosen_answersOnce {m : Move} {s u : State} (hi : Inv s) (hc : s.chosen = some m)
    (h : takeMove m s = .next u) : AnswersOnce s u := by
  cases hm : m.slot? with
  | some k => exact takeMove_answersOnce hi hc hm h
  | none =>
    cases m <;> simp only [Move.slot?, reduceCtorEq] at hm
    obtain ⟨c, ws, ds, ht, ⟨i, hd, he⟩ | ⟨e, hd, rfl⟩⟩ := acceptMove_next h
    · exact exec_answersOnce (accepting_of_decode hc ht hd) he
    · exact .of_post (fun _ => (outputs_consume ..).1)
        (.inr (.inr (.inr (.inl ⟨rfl, .inl ⟨c, ws, ds, e, hc, ht, hd⟩⟩))))

/-- Settles O51: a step that waits answers nothing, and the move of any other answers at most once. -/
theorem statusCodesHaveTheirCause : Obligations.StatusCodesHaveTheirCause := by
  intro s t hi hr h
  have honce : AnswersOnce s t := by
    obtain ⟨hr', -⟩ | ⟨-, -, rfl⟩ | ⟨m, u, -, hc, hu, rfl⟩ := step_next h
    · simp [hr] at hr'
    · exact .of_same fun _ => rfl
    · simpa only [AnswersOnce, port_advanceDraw] using takeMove_chosen_answersOnce hi hc hu
  obtain hsame | ⟨p, st, hcause, hone⟩ := honce
  · exact ⟨fun q => .inl (hsame q), fun q _ hq => absurd (hsame q) hq⟩
  · have hother : ∀ q, q ≠ p → (t.port q).resp = (s.port q).resp := fun q hq => by simp [hone, hq]
    refine ⟨fun q => ?_, fun q q' hq hq' => ?_⟩
    · by_cases hqp : q = p
      · subst hqp
        exact .inr ⟨statusCode st, by simp [hone], hcause⟩
      · exact .inl (hother q hqp)
    · have hqp : q = p := by_contra fun hne => hq (hother q hne)
      have hqp' : q' = p := by_contra fun hne => hq' (hother q' hne)
      rw [hqp, hqp']

/-! ### The digest-out streams -/

theorem digestOut_post (s : State) (p q : PortId) (st : Status) :
    ((s.post p st).port q).digestOut = (s.port q).digestOut := by
  by_cases hq : q = p
  · subst hq
    simp
  · simp [hq]

theorem digestOut_raise (s : State) (k : Nat) (q : PortId) (e : Status) :
    ((s.raise k e).port q).digestOut = (s.port q).digestOut := by
  simp [State.raise, digestOut_post]

/-- No command puts out a digest byte at acceptance (R101). -/
theorem exec_digestOut {i : Instr} {s t : State} (h : exec i s = .next t) (q : PortId) :
    (t.port q).digestOut = (s.port q).digestOut := by
  rcases exec_next h with ⟨-, -, rfl⟩ | ⟨sid, -, -, -, rfl⟩ | ⟨sid, -, -, rfl⟩ | ⟨sid, m, -, -, -, -, -, rfl⟩ |
    ⟨sid, m, -, -, -, -, -, rfl⟩ | ⟨sid, e, -, -, -, -, rfl, -⟩ |
    ⟨nullbuf, sid, len, data, c, -, -, -, -, -, -, -, rfl⟩ | ⟨nullbuf, sid, c, -, -, -, -, -, -, -, rfl⟩
  · cases s.draw.initOk <;> simp [bringUpResult, digestOut_post]
  · simp [digestOut_post]
  · simp [outputs_putBack]
  · simp [digestOut_post]
  · simp [digestOut_post]
  · simp [digestOut_raise]
  · simp
  · simp

/-- Of the micro-operations only `EXTRACT` puts out digest bytes, on its own slot's channels (R101, R200). -/
theorem takeMove_digestOut {m : Move} {k : Nat} {s t : State} (hm : m.slot? = some k) (h : takeMove m s = .next t)
    (q : PortId) : (t.port q).digestOut = (s.port q).digestOut ∨ m = .extract k ∧ q = .slot k := by
  cases m with
  | accept p => simp [Move.slot?] at hm
  | absorb j =>
    obtain ⟨c, -, -, ⟨-, -, rfl⟩ | ⟨-, -, rfl⟩ | ⟨-, rfl⟩⟩ := absorb_next h <;> simp [digestOut_post]
  | acquire j => obtain ⟨-, -, rfl⟩ := acquire_next h; simp
  | timeout j => obtain ⟨-, -, -, rfl⟩ := acquireTimeout_next h; simp [digestOut_raise]
  | feed j => obtain ⟨c, -, -, -, -, rfl⟩ := feedBlock_next h; simp
  | release j => obtain ⟨-, -, ⟨-, rfl⟩ | ⟨-, rfl⟩⟩ := release_next h <;> simp [digestOut_raise]
  | extract j =>
    obtain rfl : j = k := by simpa [Move.slot?] using hm
    obtain ⟨c, -, -, -, rfl⟩ := extract_next h
    by_cases hq : q = .slot j
    · exact .inr ⟨rfl, hq⟩
    · exact .inl (by simp [hq])

/-- The digest of a mode has its `DB` bytes (R8, R200). -/
theorem length_digestOf {m : Mode} {words : List Word} (h : digestWords m ≤ words.length) :
    (digestOf m words).length = digestBytes m := by
  have hwords : digestWords m * wordBytes (famOf m) = digestBytes m := by cases m <;> rfl
  rw [digestOf, List.length_flatMap]
  simp [h, hwords]

/-- `EXTRACT` puts out the digest and `OK` together (R200). -/
theorem extract_outputs {k : Nat} {s t : State} (h : extract k s = .next t) :
    ∃ c d, (s.slot k).ctx = some c ∧ d.length = digestBytes c.mode ∧
      (t.port (.slot k)).digestOut = (s.port (.slot k)).digestOut ++ d ∧
      (t.port (.slot k)).resp = (s.port (.slot k)).resp ++ [0x00] := by
  obtain ⟨c, -, hc, hl, rfl⟩ := extract_next h
  exact ⟨c, digestOf c.mode c.state, hc, length_digestOf hl, by simp, by simp [statusCode]⟩

/-- Settles O52: a step that waits or accepts puts out no digest byte, so it took a micro-operation, and of those only
`EXTRACT` does. -/
theorem digestOnlyWithOk : Obligations.DigestOnlyWithOk := by
  intro s t hr h
  refine ⟨fun p hne => ?_, fun k hk => ?_⟩
  · obtain rfl | ⟨p', ws, ds, rfl⟩ | ⟨p', ws, ds, i, u, -, hu, rfl⟩ | ⟨m, k, u, hc, hm, hu, rfl⟩ :=
      step_next_of_no_reset hr h
    · exact absurd rfl hne
    · simp [digestOut_post, outputs_consume] at hne
    · simp [exec_digestOut hu, outputs_consume] at hne
    · obtain hsame | ⟨rfl, rfl⟩ := takeMove_digestOut hm hu p
      · exact absurd (by simpa using hsame) hne
      · exact ⟨k, rfl, hc⟩
  · obtain ⟨hr', -⟩ | ⟨-, hnone, -⟩ | ⟨m, u, -, hc, hu, rfl⟩ := step_next h
    · simp [hr] at hr'
    · simp [hk] at hnone
    · obtain rfl : m = .extract k := by simpa [hk] using hc.symm
      simpa using extract_outputs hu

end Sys2Proof.Machine
end

section
/-! The arbiter: taking the lock, giving up the wait for it, a block operation under it, and giving it back
(R121 to R126). -/

namespace Sys2Proof.Machine

/-! ### What writing one slot record, and ending a command with an error, leaves alone -/

theorem sameOtherSlots_setSlot (s : State) (k : Nat) (v : Slot) : sameOtherSlots k s (s.setSlot k v) :=
  fun _ hj => slot_setSlot_other s v hj

theorem sameGlobals_setSlot (s : State) (k : Nat) (v : Slot) : sameGlobals s (s.setSlot k v) := by simp [sameGlobals]

/-- The error protocol ends the command with its status; only `InvalidState` keeps the context (R250, R252). -/
theorem raisedAt_raise (s : State) (k : Nat) (e : Status) :
    raisedAt k (statusCode e) (decide (e = .invalidState)) s (s.raise k e) := by
  refine ⟨?_, fun j hj => slot_raise_other s e hj,
    ⟨port_raise_same s k e, fun q hq => port_raise_other s e hq⟩, by simp [sameGlobals]⟩
  simp [errorSlot]

/-! ### The lock -/

/-- An enabled micro-operation is enabled at some listed slot record, canonical or not. -/
theorem seqMove_of_mem_enabledMoves {s : State} {m : Move} {k : Nat} (hm : m.slot? = some k)
    (h : m ∈ enabledMoves s) : ∃ j v, seqMove s j v = some m := by
  simp only [enabledMoves, List.mem_append, List.mem_filterMap, Prod.exists] at h
  obtain (h | ⟨j, q, -, h⟩) | ⟨j, v, -, h⟩ := h
  · split at h
    · obtain rfl : m = .accept .bringUp := by simpa using h
      simp [Move.slot?] at hm
    · simp at h
  · split at h
    · obtain rfl : Move.accept (.slot j) = m := by simpa using h
      simp [Move.slot?] at hm
    · simp at h
  · exact ⟨j, v, h⟩

theorem acquire_of_free {s : State} {k : Nat} (hs : (s.slot k).seq = .acq) (hl : s.lock = .free) :
    acquire k s = .next ((s.setLock (.held k)).setSlot k { s.slot k with seq := .feed }) := by
  rw [acquire, if_pos ⟨hs, hl⟩]

theorem lock_free_of_acquire_mem {s : State} {k : Nat} (h : .acquire k ∈ enabledMoves s) : s.lock = .free := by
  obtain ⟨j, v, hv⟩ := seqMove_of_mem_enabledMoves (k := k) rfl h
  obtain ⟨-, hl, -⟩ : v.seq = .acq ∧ s.lock = .free ∧ k = j := by simpa [seqMove_eq_some] using hv
  exact hl

/-- Settles O28: the free lock is taken in one write of the lock and one of the slot, and a held one disables it. -/
theorem acquireTakesTheLock : Obligations.AcquireTakesTheLock := by
  intro s k
  refine ⟨fun hs hl => ?_, fun j hl hmem => ?_⟩
  · exact ⟨_, acquire_of_free hs hl, rfl, slot_setSlot_same .., sameOtherSlots_setSlot (s.setLock _) k _,
      fun p => by simp, sameGlobals_setSlot (s.setLock (.held k)) k _⟩
  · simp [lock_free_of_acquire_mem hmem] at hl

theorem acquireTimeout_of_heldByOther {s : State} {k : Nat} (hs : (s.slot k).seq = .acq)
    (hl : heldByOther s.lock k = true) (ht : s.cfg.lockTimeout = true) :
    acquireTimeout k s = .next (s.raise k .hardwareBusy) := by
  rw [acquireTimeout, if_pos ⟨hs, hl, ht⟩]

theorem lockTimeout_of_timeout_mem {s : State} {k : Nat} (h : .timeout k ∈ enabledMoves s) :
    s.cfg.lockTimeout = true := by
  obtain ⟨j, v, hv⟩ := seqMove_of_mem_enabledMoves (k := k) rfl h
  obtain ⟨-, -, ht, -⟩ : v.seq = .acq ∧ heldByOther s.lock j = true ∧ s.cfg.lockTimeout = true ∧ k = j := by
    simpa [seqMove_eq_some] using hv
  exact ht

/-- Settles O29: only the three conditions of R122 let it give up, and what it then does is the error protocol. -/
theorem lockWaitGivesUp : Obligations.LockWaitGivesUp := by
  intro s k
  refine ⟨fun ht hmem => ?_, fun t h => ?_, fun j ht hs hj hl => ?_⟩
  · simp [lockTimeout_of_timeout_mem hmem] at ht
  · obtain ⟨hs, hl, -, -⟩ := acquireTimeout_next h
    exact ⟨hs, (heldByOther_iff _ _).1 hl⟩
  · exact ⟨_, acquireTimeout_of_heldByOther hs ((heldByOther_iff _ _).2 ⟨j, hj, hl⟩) ht,
      raisedAt_raise s k .hardwareBusy⟩

/-- `RELEASE` with no error recorded (R124). -/
theorem release_of_no_error {s : State} {k : Nat} (hs : (s.slot k).seq = .rel) (hl : s.lock = .held k)
    (he : (s.slot k).err = .none) :
    release k s = .next ((s.setLock .free).setSlot k { s.slot k with seq := .absorb }) := by
  rw [release, if_pos ⟨hs, hl⟩, if_neg (by simp [he])]

/-- `RELEASE` with an engine error recorded: the lock is free when the error protocol runs (R124). -/
theorem release_of_error {s : State} {k : Nat} (hs : (s.slot k).seq = .rel) (hl : s.lock = .held k)
    (he : (s.slot k).err = .hardwareError) :
    release k s = .next ((s.setLock .free).raise k .hardwareError) := by
  rw [release, if_pos ⟨hs, hl⟩, if_pos he]

/-- Settles O31: on both paths the lock is written first. -/
theorem releaseFreesTheLock : Obligations.ReleaseFreesTheLock := by
  intro s k hs hl
  refine ⟨fun he => ?_, fun he => ?_⟩
  · exact ⟨_, release_of_no_error hs hl he, rfl, slot_setSlot_same .., sameOtherSlots_setSlot (s.setLock _) k _,
      fun p => by simp, sameGlobals_setSlot (s.setLock .free) k _⟩
  · exact ⟨_, release_of_error hs hl he, rfl, raisedAt_raise (s.setLock .free) k .hardwareError⟩

/-! ### The block operation -/

/-- A restore reads only written words when all `NW` of them are there (R32, U8). -/
theorem restoreUnwritten_eq_false_iff (c : Ctx) :
    restoreUnwritten c = false ↔ (c.firstBlock = false → stateWords (famOf c.mode) ≤ c.state.length) := by
  simp [restoreUnwritten]

/-- `FEED_BLOCK` writes the engine registers and its own slot (R123). -/
theorem feedBlock_of_held {s : State} {k : Nat} {c : Ctx} (hs : (s.slot k).seq = .feed) (hl : s.lock = .held k)
    (hc : (s.slot k).ctx = some c) (hr : restoreUnwritten c = false) :
    feedBlock k s = .next ((s.setEng (runBlock s.cfg s.draw c s.eng).1).setSlot k
      (fedSlot (s.slot k) c (runBlock s.cfg s.draw c s.eng).2)) := by
  simp [feedBlock, hs, hl, hc, hr]

/-- Settles O30: the primitives' answer, read or error, decides what the one write of the slot saves. -/
theorem feedBlockChainsTheState : Obligations.FeedBlockChainsTheState := by
  intro s k c hs hl hc hstate
  have hfeed := feedBlock_of_held hs hl hc ((restoreUnwritten_eq_false_iff c).2 hstate)
  refine ⟨fun hok => ?_, fun hfail hdraw => ?_⟩
  · obtain ⟨hwords, hmode, hheld⟩ := runBlock_of_ok s.eng hok hstate
    rw [hwords] at hfeed
    have hsaved := fun h => take_overwriteWords c.state
      (length_engineCompress s.cfg (famOf c.mode) h (c.buffer.take c.bs))
    refine ⟨_, { c with state := _, firstBlock := false, occ := 0 }, hfeed, congrArg Slot.ctx (slot_setSlot_same ..),
      hsaved _, rfl, rfl, rfl, rfl, rfl, rfl, hheld.trans (hsaved _).symm, hmode, ?_, ?_, ?_, ?_,
      sameOtherSlots_setSlot (s.setEng _) k _, fun p => ?_, sameGlobals_setSlot (s.setEng _) k _⟩ <;> simp [fedSlot]
  · rw [runBlock_of_error c s.eng hfail hdraw] at hfeed
    exact ⟨_, hfeed, slot_setSlot_same .., rfl, sameOtherSlots_setSlot (s.setEng _) k _,
      fun p => by simp, sameGlobals_setSlot (s.setEng _) k _⟩

/-- What a block operation reads depends on the implementation, its context and the run's engine errors, not on the
registers another session left (R23, R126). -/
theorem runBlock_words_congr {cfg : Config} {d d' : Draw} {c : Ctx} (e e' : Engine)
    (hr : restoreUnwritten c = false) (ho : d.opError = d'.opError) (hd : d.readError = d'.readError) :
    (runBlock cfg d c e).2 = (runBlock cfg d' c e').2 := by
  by_cases herr : cfg.hwCanFail = true ∧ (d.opError = true ∨ d.readError = true)
  · obtain ⟨hfail, hdraw⟩ := herr
    rw [runBlock_of_error c e hfail hdraw, runBlock_of_error c e' hfail (ho ▸ hd ▸ hdraw)]
  · have hstate := (restoreUnwritten_eq_false_iff c).1 hr
    rw [(runBlock_of_ok e herr hstate).1, (runBlock_of_ok e' (ho ▸ hd ▸ herr) hstate).1]

/-- Settles O48: both block operations run on the same context and read the same words. -/
theorem feedIgnoresOtherSessions : Obligations.FeedIgnoresOtherSessions := by
  intro s s' t t' k hcfg hslot hop hread h h'
  obtain ⟨c, -, -, hc, hr, rfl⟩ := feedBlock_next h
  obtain ⟨c', -, -, hc', -, rfl⟩ := feedBlock_next h'
  obtain rfl : c = c' := by simpa [← hslot, hc] using hc'
  rw [slot_setSlot_same, slot_setSlot_same, ← hslot, ← hcfg, runBlock_words_congr s.eng s'.eng hr hop hread]

end Sys2Proof.Machine
end

section
/-! Bring-up and the five `STARTS`: what they answer and what they leave alone (R140 to R147). -/

namespace Sys2Proof.Machine

open Sys2Proof.Laws

/-! ### HWINIT -/

/-- A first bring-up writes its outcome to `hw_ready` and answers it (R140). -/
theorem exec_hwinit_of_down {s : State} {ok : Bool} (h : s.hwReady = false) (hok : s.draw.initOk = ok) :
    exec .hwinit s = .next ((s.setReady ok).post .bringUp (if ok then .ok else .hardwareUnavailable)) := by
  have hdown : s.setReady false = s := by rw [State.setReady, ← h]
  cases ok <;> simp [exec, execHwinit, bringUpResult, h, hok, hdown]

theorem exec_hwinit_of_up {s : State} (h : s.hwReady = true) : exec .hwinit s = .refused .secondBringUp := by
  simp [exec, execHwinit, h]

/-- A bring-up's next state is that of the first one (R140, R141). -/
theorem exec_hwinit_next {s t : State} (h : exec .hwinit s = .next t) :
    ∃ st, t = (s.setReady s.draw.initOk).post .bringUp st := by
  cases hr : s.hwReady with
  | true => simp [exec_hwinit_of_up hr] at h
  | false =>
    rw [exec_hwinit_of_down hr rfl, Host.Outcome.next.injEq] at h
    exact ⟨_, h.symm⟩

/-- Writing `hw_ready` touches no channel. -/
theorem answered_setReady_post (s : State) (b : Bool) (p : PortId) (st : Status) :
    answered p (statusCode st) s ((s.setReady b).post p st) := by
  simpa [answered, sameOtherPorts] using answered_post (s.setReady b) p st

/-- Settles O4: either drawn outcome is written and answered, and nothing else is. -/
theorem hwinitBringsUp : Obligations.HwinitBringsUp := by
  refine ⟨decodeCommand_encode .hwinit, fun s hr => ⟨fun hok => ?_, fun hok => ?_⟩⟩
  · exact ⟨_, exec_hwinit_of_down hr hok, by simp, answered_setReady_post s true .bringUp .ok,
      fun j => by simp, by simp, by simp⟩
  · exact ⟨_, exec_hwinit_of_down hr hok, by simp, answered_setReady_post s false .bringUp .hardwareUnavailable,
      fun j => by simp, by simp, by simp⟩

/-- Settles O5: `HWINIT` tests `hw_ready` before anything else. -/
theorem secondHwinitHasNoMeaning : Obligations.SecondHwinitHasNoMeaning := fun _ hr => exec_hwinit_of_up hr

/-- Settles O6: a next state differs by one write of `hw_ready` and one status. -/
theorem frameOfHwinit : Obligations.FrameOfHwinit := by
  intro s t h
  obtain ⟨st, rfl⟩ := exec_hwinit_next h
  obtain ⟨hport, hother⟩ := answered_setReady_post s s.draw.initOk .bringUp st
  exact ⟨fun j => by simp, hother, by rw [hport], by rw [hport], by rw [hport], by simp⟩

/-! ### STARTS -/

section
variable {i : Instr} {m : Mode} {sid : BitVec 16} {s : State} (hm : startsMode i = some m)
  (hs : instrSid i = some sid) (hi : s.isIdle (sidNat sid) = true) (hn : sidNat sid < s.cfg.nCtx)
include hm hs hi hn

/-- A `STARTS` of a machine that is up writes a fresh context and answers `OK` (R142). -/
theorem exec_starts_of_up (hr : s.hwReady = true) :
    ∃ t, exec i s = .next t ∧ (t.slot (sidNat sid)).ctx = some (freshCtx m) ∧
      answered (.slot (sidNat sid)) 0x00 s t ∧ sameOtherSlots (sidNat sid) s t ∧ sameGlobals s t := by
  refine ⟨(s.setCtx (sidNat sid) (freshCtx m)).post (.slot (sidNat sid)) .ok, ?_, ?_, ?_, fun j hj => ?_, ?_⟩
  · rw [exec_of_startsMode hm hs, starts, whenAccepted_of_ready _ _ hi hn, if_pos hr]
  · simp [State.setCtx]
  · exact ⟨by simp [statusCode], fun q hq => by simp [hq]⟩
  · simp [State.setCtx, hj]
  · simp [sameGlobals]

/-- A `STARTS` before bring-up only answers `HardwareUnavailable` (R142, R251). -/
theorem exec_starts_of_down (hr : s.hwReady = false) :
    ∃ t, exec i s = .next t ∧ sameSlots s t ∧ answered (.slot (sidNat sid)) 0x01 s t ∧ sameGlobals s t := by
  refine ⟨s.post (.slot (sidNat sid)) .hardwareUnavailable, ?_, fun j => slot_post .., answered_post ..,
    sameGlobals_post ..⟩
  rw [exec_of_startsMode hm hs, starts, whenAccepted_of_ready _ _ hi hn, if_neg (by simp [hr])]

end

/-- Settles O7: the context written is `freshCtx` of the mode, whatever the slot held. -/
theorem startsResetsTheContext : Obligations.StartsResetsTheContext := by
  intro i m sid s hm hs hi hn
  refine ⟨fun hr => ?_, exec_starts_of_down hm hs hi hn⟩
  obtain ⟨t, hexec, hctx, hframe⟩ := exec_starts_of_up hm hs hi hn hr
  exact ⟨t, freshCtx m, hexec, hctx, rfl, rfl, rfl, rfl, rfl, rfl, fun _ => rfl, hframe⟩

/-- A word of `STARTS` is its row's pattern plus `SID` (R91, R97). -/
theorem ofNat_startsWord {top : Nat} {fam : BitVec 2} {var : BitVec 1}
    (h : top = 2 ^ 28 + fam.toNat * 2 ^ 26 + var.toNat * 2 ^ 24) (sid : BitVec 16) :
    BitVec.ofNat 32 (top + sid.toNat) = mkCw 1#4 fam var 0#1 sid := by
  apply BitVec.eq_of_toNat_eq
  rw [toNat_mkCw, h]
  have := fam.isLt
  have := var.isLt
  have := sid.isLt
  simp
  omega

/-- A `STARTS` whose words are `top + SID` has the row of R143 to R147 with its mode's parameters. -/
theorem startsRow_of_encode {i : BitVec 16 → Instr} {top : Nat} {m : Mode} {fam : BitVec 2} {var : BitVec 1}
    (hm : ∀ sid, startsMode (i sid) = some m) (hs : ∀ sid, instrSid (i sid) = some sid)
    (henc : ∀ sid, encode (i sid) = ⟨mkCw 1#4 fam var 0#1 sid, 0, []⟩)
    (htop : top = 2 ^ 28 + fam.toNat * 2 ^ 26 + var.toNat * 2 ^ 24) :
    StartsRow i top m (blockSize (famOf m)) (wordBits (famOf m)) (stateWords (famOf m)) (lenFieldSize (famOf m))
      (2 * wordBits (famOf m)) (digestBytes m) (digestWords m) where
  word sid := by rw [ofNat_startsWord htop, ← henc, decodeCommand_encode]
  effect sid s hi hn := ⟨exec_starts_of_up (hm sid) (hs sid) hi hn, exec_starts_of_down (hm sid) (hs sid) hi hn⟩
  bs_eq := rfl
  w_eq := rfl
  nw_eq := rfl
  lfs_eq := rfl
  total_eq := rfl
  db_eq := rfl
  dw_eq := rfl

/-- The initial constants of the two modes of one family differ (R144, R216). -/
theorem engineIV_sha224_ne_sha256 {cfg : Config} (h : cfg.engine = .fips) :
    engineIV cfg .sha224 ≠ engineIV cfg .sha256 := by
  simp only [engineIV, h]
  decide

/-- Settles O8: each row's words are those of the encoder, and the parameters are its mode's. -/
theorem startsSelectsModeParameters : Obligations.StartsSelectsModeParameters := by
  refine ⟨?_, ?_, ?_, ?_, ?_, fun sid => ?_, fun cfg => engineIV_sha224_ne_sha256⟩
  · exact startsRow_of_encode (fam := 0#2) (var := 0#1) (fun _ => rfl) (fun _ => rfl) (fun _ => rfl) rfl
  · exact startsRow_of_encode (fam := 1#2) (var := 1#1) (fun _ => rfl) (fun _ => rfl) (fun _ => rfl) rfl
  · exact startsRow_of_encode (fam := 1#2) (var := 0#1) (fun _ => rfl) (fun _ => rfl) (fun _ => rfl) rfl
  · exact startsRow_of_encode (fam := 2#2) (var := 1#1) (fun _ => rfl) (fun _ => rfl) (fun _ => rfl) rfl
  · exact startsRow_of_encode (fam := 2#2) (var := 0#1) (fun _ => rfl) (fun _ => rfl) (fun _ => rfl) rfl
  · rw [ofNat_startsWord (fam := 0#2) (var := 1#1) (top := 0x11000000) rfl]
    simp [decodeCommand, cwOp_mkCw, cwFam_mkCw, cwVar_mkCw, cwNullbuf_mkCw, cwRsv25_mkCw, cwRsv22_mkCw]

/-- Settles O9: of the four ways a `STARTS` ends, three put out a status, the busy slot's puts the command back, and
only the accepted one writes a slot record, its own context. -/
theorem frameOfStarts : Obligations.FrameOfStarts := by
  intro i m sid s t hm hs h
  rw [exec_of_startsMode hm hs] at h
  obtain ⟨-, -, rfl⟩ | ⟨hbusy, rfl⟩ | ⟨-, -, -, rfl⟩ | ⟨-, -, -, rfl⟩ := starts_next h
  · exact ⟨sameGlobals_post .., fun j _ => slot_post .., fun q hq => port_post_other _ _ hq, by simp⟩
  · exact ⟨by simp [sameGlobals], fun j _ => slot_putBack .., fun q hq => by simp [State.putBack, hq],
      by simp [State.putBack, hbusy]⟩
  · exact ⟨by simp [sameGlobals], fun j hj => by simp [State.setCtx, hj], fun q hq => by simp [hq],
      by simp [State.setCtx]⟩
  · exact ⟨sameGlobals_post .., fun j _ => slot_post .., fun q hq => port_post_other _ _ hq, by simp⟩

end Sys2Proof.Machine
end

section
/-! Which steps are refused: a second bring-up and a command on a context that is `⊥`, and no other (R141, R186,
R293). -/

namespace Sys2Proof.Machine

/-! ### The acceptance of a command -/

/-- Acceptance itself refuses nothing (R96). -/
theorem whenAccepted_refused {s : State} {sid : BitVec 16} {c : Command} {body : Host.Outcome State Fault Refusal}
    {r : Refusal} (h : whenAccepted s sid c body = .refused r) : body = .refused r := by
  obtain ⟨-, -, he⟩ | ⟨-, -, he⟩ | ⟨-, he⟩ := whenAccepted_cases s sid c body <;> rw [he] at h
  · exact h
  · simp at h
  · simp at h

/-- The checks of `UPDATE` and `FINISH` refuse only a context that is `⊥` (R247, R293). -/
theorem whenPermitted_refused {s : State} {k : Nat} {badArg : Bool} {f : Ctx → State} {r : Refusal}
    (h : whenPermitted s k badArg (fun c => .next (f c)) = .refused r) :
    r = .contextUnspecified k ∧ s.hwReady = true ∧ (s.slot k).ctx = none := by
  obtain ⟨-, he⟩ | ⟨hr, hc, he⟩ | ⟨c, -, -, -, he⟩ | ⟨c, -, -, -, -, he⟩ | ⟨c, -, -, -, -, he⟩ :=
    whenPermitted_cases s k badArg (fun c => .next (f c)) <;> rw [he] at h
  · simp at h
  · exact ⟨by simpa using h.symm, hr, hc⟩
  · simp at h
  · simp at h
  · simp at h

/-- No `STARTS` is refused (R142). -/
theorem starts_ne_refused (m : Mode) (sid : BitVec 16) (c : Command) (s : State) (r : Refusal) :
    starts m sid c s ≠ .refused r := by
  intro h
  have hbody := whenAccepted_refused h
  split at hbody <;> simp at hbody

/-- A command is refused only as a second bring-up (U2) or for a context that is `⊥` (U1). -/
theorem exec_refused {i : Instr} {s : State} {r : Refusal} (h : exec i s = .refused r) :
    (i = .hwinit ∧ r = .secondBringUp ∧ s.hwReady = true) ∨
    (∃ sid, instrSid i = some sid ∧ startsMode i = none ∧ r = .contextUnspecified (sidNat sid) ∧ s.hwReady = true ∧
      (s.slot (sidNat sid)).ctx = none) := by
  cases i with
  | hwinit =>
    cases hr : s.hwReady with
    | false => simp [exec_hwinit_of_down hr rfl] at h
    | true => exact .inl ⟨rfl, by simpa [exec_hwinit_of_up hr] using h.symm, rfl⟩
  | update nullbuf sid len data =>
    exact .inr ⟨sid, rfl, rfl, whenPermitted_refused (whenAccepted_refused h)⟩
  | finish nullbuf sid =>
    exact .inr ⟨sid, rfl, rfl, whenPermitted_refused (whenAccepted_refused h)⟩
  | _ sid => exact (starts_ne_refused _ sid _ s r h).elim

/-- A refused acceptance has taken a legal command off, which is refused (R96, R98). -/
theorem acceptMove_refused {p : PortId} {s : State} {r : Refusal} (h : acceptMove p s = .refused r) :
    ∃ c ws ds i, takeCommand (s.port p).cmd (s.port p).dataIn = some (c, ws, ds) ∧ decodeCommand c = .ok i ∧
      exec i (s.consume p ws ds) = .refused r := by
  unfold acceptMove at h
  split at h
  · simp at h
  · next c ws ds ht =>
    split at h
    · next i hd => exact ⟨c, ws, ds, i, ht, hd, h⟩
    · simp at h

/-! ### The micro-operations -/

/-- Inside a command the slot has a context, whose words are all written once the first block is done (R32, R37). -/
theorem exists_ctx_of_busy {s : State} (hi : Inv s) {k : Nat} (hs : (s.slot k).seq ≠ .idle) :
    ∃ c, (s.slot k).ctx = some c ∧ BusyInv (s.slot k) c ∧
      (c.firstBlock = false → c.state.length = stateWords (famOf c.mode)) := by
  obtain ⟨c, hc⟩ := Option.ne_none_iff_exists'.1 ((hi.slots k).busy_ctx hs)
  exact ⟨c, hc, (hi.slots k).busy_inv c hc hs, fun hf => by simpa [hf] using ((hi.slots k).ctx_inv c hc).words_length⟩

theorem absorb_ne_refused {s : State} (hi : Inv s) (k : Nat) (r : Refusal) : absorb k s ≠ .refused r := by
  by_cases hs : (s.slot k).seq = .absorb
  · obtain ⟨c, hc, -⟩ := exists_ctx_of_busy hi (k := k) (by simp [hs])
    simp only [absorb, hs, hc, if_true]
    split_ifs <;> simp
  · simp [absorb, hs]

theorem acquire_ne_refused (k : Nat) (s : State) (r : Refusal) : acquire k s ≠ .refused r := by
  unfold acquire
  split <;> simp

theorem acquireTimeout_ne_refused (k : Nat) (s : State) (r : Refusal) : acquireTimeout k s ≠ .refused r := by
  unfold acquireTimeout
  split <;> simp

/-- A restore finds all its words (R32, U8). -/
theorem feedBlock_ne_refused {s : State} (hi : Inv s) (k : Nat) (r : Refusal) : feedBlock k s ≠ .refused r := by
  by_cases hs : (s.slot k).seq = .feed ∧ s.lock = .held k
  · obtain ⟨hseq, hl⟩ := hs
    obtain ⟨c, hc, -, hwords⟩ := exists_ctx_of_busy hi (k := k) (by simp [hseq])
    simp [feedBlock_of_held hseq hl hc ((restoreUnwritten_eq_false_iff c).2 fun hf => (hwords hf).ge)]
  · simp [feedBlock, hs]

theorem release_ne_refused (k : Nat) (s : State) (r : Refusal) : release k s ≠ .refused r := by
  unfold release
  split_ifs <;> simp

/-- At `EXTRACT` the last block is done, so the digest's words are written (R186, R200). -/
theorem extract_ne_refused {s : State} (hi : Inv s) (k : Nat) (r : Refusal) : extract k s ≠ .refused r := by
  by_cases hs : (s.slot k).seq = .extract
  · obtain ⟨c, hc, hbusy, hwords⟩ := exists_ctx_of_busy hi (k := k) (by simp [hs])
    obtain ⟨-, -, -, hf⟩ := hbusy.extract_done hs
    have hlen : digestWords c.mode ≤ c.state.length := hwords hf ▸ digestWords_le_stateWords c.mode
    simp [extract, hs, hc, Nat.not_lt.2 hlen]
  · simp [extract, hs]

/-- In a good state no micro-operation is refused (R186). -/
theorem takeMove_ne_refused {m : Move} {k : Nat} {s : State} (hi : Inv s) (hm : m.slot? = some k) (r : Refusal) :
    takeMove m s ≠ .refused r := by
  cases m with
  | accept p => simp [Move.slot?] at hm
  | absorb j => exact absorb_ne_refused hi j r
  | acquire j => exact acquire_ne_refused j s r
  | timeout j => exact acquireTimeout_ne_refused j s r
  | feed j => exact feedBlock_ne_refused hi j r
  | release j => exact release_ne_refused j s r
  | extract j => exact extract_ne_refused hi j r

/-! ### The step -/

/-- A refused step has taken a move that is refused; the reset event and waiting are not (R280). -/
theorem step_refused {s : State} {r : Refusal} (h : step s = .refused r) :
    ∃ m, s.chosen = some m ∧ takeMove m s = .refused r := by
  unfold step stepOnce at h
  split at h
  · simp at h
  · split at h
    · simp at h
    · next m hc =>
      refine ⟨m, hc, ?_⟩
      cases ht : takeMove m s <;> simp_all

/-- Settles O43: the refused move is no micro-operation, so it accepts a command that is refused. -/
theorem stepRefusesOnlyTheUnspecified : Obligations.StepRefusesOnlyTheUnspecified := by
  intro s r hi h
  obtain ⟨m, hc, hm⟩ := step_refused h
  cases hk : m.slot? with
  | some k => exact absurd hm (takeMove_ne_refused hi hk r)
  | none =>
    cases m <;> simp only [Move.slot?, reduceCtorEq] at hk
    obtain ⟨c, ws, ds, i, ht, hd, he⟩ := acceptMove_refused hm
    have hacc := accepting_of_decode hc ht hd
    obtain ⟨rfl, hr, hup⟩ | ⟨sid, hs, hmode, hr, hup, hctx⟩ := exec_refused he
    · exact .inl ⟨hr, by simpa using hup, hacc⟩
    · exact .inr ⟨i, sid, hacc, hs, hmode, hr, by simpa using hup, by simpa using hctx⟩

end Sys2Proof.Machine
end

section
/-! The Block Processor: the counter add, what an `UPDATE` answers at acceptance and what it leaves alone, and `ABSORB`
(R161 to R164, R171, R172). -/

namespace Sys2Proof.Machine

/-! ### The counter add word by word -/

/-- Two words side by side fit the counter's `2W` bits (R31, R171). -/
theorem toNat_totalOf {f : Family} {hi lo : Nat} (hhi : hi < 2 ^ wordBits f) (hlo : lo < 2 ^ wordBits f) :
    (totalOf f hi lo).toNat = hi * 2 ^ wordBits f + lo := by
  cases f <;> simp only [totalOf, wordBits, BitVec.toNat_ofNat] at hhi hlo ⊢ <;> omega

theorem totalLo_totalOf {f : Family} {hi lo : Nat} (hhi : hi < 2 ^ wordBits f) (hlo : lo < 2 ^ wordBits f) :
    totalLo f (totalOf f hi lo) = lo := by
  rw [totalLo, toNat_totalOf hhi hlo, Nat.mul_comm, Nat.mul_add_mod, Nat.mod_eq_of_lt hlo]

theorem totalHi_totalOf {f : Family} {hi lo : Nat} (hhi : hi < 2 ^ wordBits f) (hlo : lo < 2 ^ wordBits f) :
    totalHi f (totalOf f hi lo) = hi := by
  rw [totalHi, toNat_totalOf hhi hlo, Nat.mul_comm, Nat.mul_add_div (Nat.two_pow_pos _), Nat.div_eq_of_lt hlo,
    Nat.add_zero, Nat.mod_eq_of_lt hhi]

/-- Settles O35: the words of the sum are the two the add puts together, the carry is the quotient of the low sum, and
the whole add is `toNat_counterAdd`. -/
theorem counterAddCarries : Obligations.CounterAddCarries := by
  intro f t len
  have hpos := Nat.two_pow_pos (wordBits f)
  have hlo : totalLo f (counterAdd f t len) = (totalLo f t + len.toNat) % 2 ^ wordBits f :=
    totalLo_totalOf (Nat.mod_lt _ hpos) (Nat.mod_lt _ hpos)
  have hcarry := carry_eq_div (a := totalLo f t) (Nat.mod_lt _ hpos) (lt_two_pow_wordBits f len)
  refine ⟨hlo, ?_, ?_, toNat_counterAdd f t len⟩
  · rw [hlo]
    exact totalHi_totalOf (Nat.mod_lt _ hpos) (Nat.mod_lt _ hpos)
  · rw [hlo, ← Nat.one_le_div_iff hpos, ← hcarry]
    split <;> next h => simpa using h

/-! ### `ABSORB` -/

section
variable {s : State} {k : Nat} {c : Ctx} (hs : (s.slot k).seq = .absorb) (hc : (s.slot k).ctx = some c)
include hs hc

/-- With bytes pending, as many as fit go to the buffer (R163). -/
theorem absorb_of_pending (hp : (s.slot k).pend ≠ []) :
    absorb k s = .next (s.setSlot k
      { s.slot k with
        ctx := some (absorbCtx c (s.slot k).pend)
        pend := (s.slot k).pend.drop (absorbCount c (s.slot k).pend)
        seq := if (absorbCtx c (s.slot k).pend).occ = c.bs then .acq else .absorb }) := by
  simp [absorb, hs, hc, hp]

/-- With none pending `UPDATE` completes with `OK` (R162). -/
theorem absorb_of_update_done (hp : (s.slot k).pend = []) (ho : (s.slot k).op = some .update) :
    absorb k s = .next ((s.setSlot k { s.slot k with seq := .idle }).post (.slot k) .ok) := by
  simp [absorb, hs, hc, hp, ho]

/-- With none pending `FINISH` goes on to `EXTRACT` (R163). -/
theorem absorb_of_finish_done (hp : (s.slot k).pend = []) (ho : (s.slot k).op = some .finish) :
    absorb k s = .next (s.setSlot k { s.slot k with seq := .extract }) := by
  simp [absorb, hs, hc, hp, ho]

end

/-- One write of a slot record and one status on its channels. -/
theorem answered_setSlot_post (s : State) (k : Nat) (v : Slot) (st : Status) :
    answered (.slot k) (statusCode st) s ((s.setSlot k v).post (.slot k) st) :=
  ⟨by simp, fun q hq => by simp [hq]⟩

theorem sameOtherSlots_setSlot_post (s : State) (k : Nat) (v : Slot) (p : PortId) (st : Status) :
    sameOtherSlots k s ((s.setSlot k v).post p st) := fun j hj => by simp [hj]

theorem sameGlobals_setSlot_post (s : State) (k : Nat) (v : Slot) (p : PortId) (st : Status) :
    sameGlobals s ((s.setSlot k v).post p st) := by simp [sameGlobals]

/-- With room in the buffer and a byte pending, `ABSORB` takes at least one byte (R163). -/
theorem absorbCount_pos {c : Ctx} {pend : List Byte} (hp : pend ≠ []) (hocc : c.occ < c.bs) :
    1 ≤ absorbCount c pend := by
  have := List.length_pos_iff.2 hp
  rw [absorbCount]
  omega

/-- Settles O27: the bytes taken are a run written at `occ`, within the block and so within the buffer. -/
theorem absorbMovesBytes : Obligations.AbsorbMovesBytes := by
  intro s j c hs hc
  refine ⟨fun hp hocc hbuf => ?_, fun hp ho => ?_, fun hp ho => ?_⟩
  · obtain ⟨hk, hroom⟩ := absorbCount_le c (s.slot j).pend
    have hlen : ((s.slot j).pend.take (absorbCount c (s.slot j).pend)).length = absorbCount c (s.slot j).pend := by
      simpa using hk
    have hfit : c.occ + ((s.slot j).pend.take (absorbCount c (s.slot j).pend)).length ≤ c.buffer.length := by omega
    refine ⟨_, absorbCtx c (s.slot j).pend, absorbCount c (s.slot j).pend, absorb_of_pending hs hc hp, rfl,
      absorbCount_pos hp hocc, by omega, by omega, by simp, fun a ha => ?_, fun a ha => ?_, rfl, rfl, rfl, rfl, rfl,
      rfl, ?_, ?_, ?_, ?_, sameOtherSlots_setSlot _ _ _, fun p => by simp, sameGlobals_setSlot ..⟩
    · rw [absorbCtx, getElem?_writeRun_in hfit (hlen.symm ▸ ha), List.getElem?_take_of_lt ha]
    · exact getElem?_writeRun_out hfit (hlen.symm ▸ ha)
    all_goals rw [slot_setSlot_same]
    rfl
  · exact ⟨_, absorb_of_update_done hs hc hp ho, by simp, answered_setSlot_post s j _ .ok,
      sameOtherSlots_setSlot_post _ _ _ _ _, sameGlobals_setSlot_post ..⟩
  · exact ⟨_, absorb_of_finish_done hs hc hp ho, by simp, fun p => by simp, sameOtherSlots_setSlot _ _ _,
      sameGlobals_setSlot ..⟩

/-! ### Who writes the counter -/

/-- No micro-operation writes the counter of its slot (R161, R181). -/
theorem takeMove_total : movesKeepTotal := by
  intro m k s t c c' hm h hc hc'
  cases m with
  | accept p => simp [Move.slot?] at hm
  | absorb j =>
    cases hm
    obtain ⟨d, -, hd, hcases⟩ := absorb_next h
    obtain rfl : c = d := by simpa [hc] using hd
    obtain ⟨-, -, rfl⟩ | ⟨-, -, rfl⟩ | ⟨-, rfl⟩ := hcases <;> simp [hc] at hc' <;> simp [← hc', absorbCtx]
  | acquire j =>
    cases hm
    obtain ⟨-, -, rfl⟩ := acquire_next h
    rw [slot_setSlot_same] at hc'
    cases hc.symm.trans hc'
    rfl
  | timeout j =>
    cases hm
    obtain ⟨-, -, -, rfl⟩ := acquireTimeout_next h
    simp [errorSlot] at hc'
  | feed j =>
    cases hm
    obtain ⟨d, -, -, hd, -, rfl⟩ := feedBlock_next h
    obtain rfl : c = d := by simpa [hc] using hd
    cases hr : (runBlock s.cfg s.draw c s.eng).2 <;> simp [hr, fedSlot, hc] at hc' <;> simp [← hc']
  | release j =>
    cases hm
    obtain ⟨-, -, ⟨-, rfl⟩ | ⟨-, rfl⟩⟩ := release_next h
    · simp [errorSlot] at hc'
    · rw [slot_setSlot_same] at hc'
      cases hc.symm.trans hc'
      rfl
  | extract j =>
    cases hm
    obtain ⟨d, -, hd, -, rfl⟩ := extract_next h
    obtain rfl : c = d := by simpa [hc] using hd
    rw [slot_post, slot_setSlot_same] at hc'
    cases hc'
    rfl

/-! ### `UPDATE` at acceptance -/

/-- The context an accepted `UPDATE` leaves, its counter as the sum modulo `2^(2W)` (R161, R172). -/
theorem updateCtx_eq (c : Ctx) (len : BitVec 32) :
    updateCtx c len =
      { c with
        total := BitVec.ofNat 128 ((c.total.toNat + len.toNat) % 2 ^ (2 * wordBits (famOf c.mode)))
        lifecycle := if 0 < len.toNat then .accumulating else c.lifecycle } := by
  have htotal : (updateCtx c len).total =
      BitVec.ofNat 128 ((c.total.toNat + len.toNat) % 2 ^ (2 * wordBits (famOf c.mode))) := by
    rw [← toNat_total_updateCtx, BitVec.ofNat_toNat, BitVec.setWidth_eq]
  have hlife : (updateCtx c len).lifecycle = if 0 < len.toNat then .accumulating else c.lifecycle := by
    by_cases hz : len = 0#32
    · simp [updateCtx, lifecycleAfter, hz]
    · have hpos : 0 < len.toNat := Nat.pos_of_ne_zero fun h => hz (BitVec.eq_of_toNat_eq h)
      simp [updateCtx, lifecycleAfter, hz, hpos]
  rw [← htotal, ← hlife]
  rfl

/-- A counter within its width is kept by an `UPDATE` of no bytes, and so is the rest of the context (R164). -/
theorem updateCtx_zero {c : Ctx} (h : c.total.toNat < 2 ^ (2 * wordBits (famOf c.mode))) : updateCtx c 0#32 = c := by
  have htotal : c.total.toNat % 2 ^ (2 * wordBits (famOf c.mode)) = c.total.toNat := Nat.mod_eq_of_lt h
  simp [updateCtx_eq, htotal]

section
variable {s : State} {sid : BitVec 16} (hi : s.isIdle (sidNat sid) = true) (hn : sidNat sid < s.cfg.nCtx)
  (nullbuf : Bool) (len : BitVec 32) (data : List Byte)
include hi hn

/-- Before bring-up `UPDATE` ends with `HardwareUnavailable` (R241, R247). -/
theorem exec_update_of_down (hr : s.hwReady = false) :
    ∃ t, exec (.update nullbuf sid len data) s = .next t ∧ raisedAt (sidNat sid) 0x01 false s t := by
  refine ⟨_, ?_, raisedAt_raise s (sidNat sid) .hardwareUnavailable⟩
  rw [exec_update, whenAccepted_of_ready _ _ hi hn, whenPermitted, if_neg (by simp [hr])]

/-- On a context that is not `⊥` the null-buffer argument is tested before the lifecycle (R161, R247). -/
theorem exec_update_of_ctx (hr : s.hwReady = true) {c : Ctx} (hc : (s.slot (sidNat sid)).ctx = some c) :
    exec (.update nullbuf sid len data) s =
      if nullbuf = true ∧ len ≠ 0 then .next (s.raise (sidNat sid) .invalidArgument)
      else if c.lifecycle = .terminal then .next (s.raise (sidNat sid) .invalidState)
      else .next (s.setSlot (sidNat sid) (updateSlot (s.slot (sidNat sid)) c nullbuf len data)) := by
  rw [exec_update, whenAccepted_of_ready _ _ hi hn, whenPermitted_of_ctx _ _ hr hc]
  simp

theorem exec_update_of_terminal (hr : s.hwReady = true) {c : Ctx} (hc : (s.slot (sidNat sid)).ctx = some c)
    (harg : ¬(nullbuf = true ∧ len ≠ 0)) (ht : c.lifecycle = .terminal) :
    ∃ t, exec (.update nullbuf sid len data) s = .next t ∧ raisedAt (sidNat sid) 0x04 true s t := by
  refine ⟨_, ?_, raisedAt_raise s (sidNat sid) .invalidState⟩
  rw [exec_update_of_ctx hi hn _ _ _ hr hc, if_neg harg, if_pos ht]

theorem exec_update_of_live (hr : s.hwReady = true) {c : Ctx} (hc : (s.slot (sidNat sid)).ctx = some c)
    (harg : ¬(nullbuf = true ∧ len ≠ 0)) (ht : c.lifecycle ≠ .terminal) :
    exec (.update nullbuf sid len data) s =
      .next (s.setSlot (sidNat sid) (updateSlot (s.slot (sidNat sid)) c nullbuf len data)) := by
  rw [exec_update_of_ctx hi hn _ _ _ hr hc, if_neg harg, if_neg ht]

end

/-- Settles O10: each test is a branch of the acceptance, and an accepted one is one write of the slot. -/
theorem updateAcceptance : Obligations.UpdateAcceptance := by
  intro nullbuf sid len data s hi hn
  refine ⟨exec_update_of_down hi hn nullbuf len data, fun hr hc => ?_, fun c hr hc hnull hlen => ?_,
    fun c hr hc => exec_update_of_terminal hi hn nullbuf len data hr hc, fun c hr hc harg ht => ?_, takeMove_total⟩
  · rw [exec_update, whenAccepted_of_ready _ _ hi hn]
    simp [whenPermitted, hr, hc]
  · refine ⟨_, ?_, raisedAt_raise s (sidNat sid) .invalidArgument⟩
    rw [exec_update_of_ctx hi hn _ _ _ hr hc, if_pos ⟨hnull, hlen⟩]
  · refine ⟨_, exec_update_of_live hi hn nullbuf len data hr hc harg ht, ?_, ?_, ?_, ?_, ?_,
      sameOtherSlots_setSlot _ _ _, fun p => by simp, sameGlobals_setSlot ..⟩ <;> rw [slot_setSlot_same]
    · rw [← updateCtx_eq]
      rfl
    · rfl
    · rfl
    · rfl
    · rfl

/-- Settles O11: the accepted context is the old one, and with nothing pending the first `ABSORB` answers. -/
theorem zeroLengthUpdateIsNoop : Obligations.ZeroLengthUpdateIsNoop := by
  intro nullbuf sid s hi hn
  have harg : ¬(nullbuf = true ∧ (0 : BitVec 32) ≠ 0) := by simp
  refine ⟨fun c hr hc ht htotal => ?_, fun c hr hc => exec_update_of_terminal hi hn nullbuf 0 [] hr hc harg,
    exec_update_of_down hi hn nullbuf 0 []⟩
  have hexec := exec_update_of_live hi hn nullbuf 0 [] hr hc harg ht
  have hslot := slot_setSlot_same s (sidNat sid) (updateSlot (s.slot (sidNat sid)) c nullbuf 0 [])
  have hdone := absorb_of_update_done (congrArg Slot.seq hslot) (congrArg Slot.ctx hslot)
    (by rw [hslot]; exact ite_self []) (congrArg Slot.op hslot)
  refine ⟨_, _, hexec, hdone, ?_, by simp, ⟨by simp [statusCode], fun q hq => by simp [hq]⟩, fun j hj => by simp [hj],
    by simp [sameGlobals]⟩
  simp [updateSlot, updateCtx_zero htotal]

/-- Settles O13: of the ways an `UPDATE` ends, one answers, one puts the command back, the errors take the context
away or keep it whole, and an accepted one writes the counter and the lifecycle. -/
theorem frameOfUpdate : Obligations.FrameOfUpdate := by
  intro nullbuf sid len data s t h
  have hdigest := exec_digestOut h (.slot (sidNat sid))
  rcases exec_next h with ⟨hi, -⟩ | ⟨sid', hs, -, -, rfl⟩ | ⟨sid', hs, hbusy, rfl⟩ | ⟨sid', m, -, hm, -⟩ |
    ⟨sid', m, -, hm, -⟩ | ⟨sid', e, hs, -, -, -, rfl, -⟩ |
    ⟨nullbuf', sid', len', data', d, hi, -, -, -, hd, -, -, rfl⟩ | ⟨nullbuf', sid', d, hi, -⟩
  · simp at hi
  · cases hs
    refine ⟨sameGlobals_post .., fun j _ => slot_post .., fun q hq => port_post_other _ _ hq, hdigest, by simp,
      fun c c' hc hc' => ?_⟩
    obtain rfl : c = c' := by simpa [hc] using hc'
    simp
  · cases hs
    refine ⟨by simp [sameGlobals], fun j _ => slot_putBack .., fun q hq => by simp [State.putBack, hq], hdigest,
      by simp [hbusy], fun c c' hc hc' => ?_⟩
    obtain rfl : c = c' := by simpa [hc] using hc'
    simp
  · simp [startsMode] at hm
  · simp [startsMode] at hm
  · cases hs
    refine ⟨by simp [sameGlobals], fun j hj => slot_raise_other _ _ hj, fun q hq => port_raise_other _ _ hq, hdigest,
      by simp, fun c c' hc hc' => ?_⟩
    obtain ⟨-, rfl⟩ : e = .invalidState ∧ c = c' := by simpa [errorSlot, hc] using hc'
    simp
  · cases hi
    refine ⟨sameGlobals_setSlot .., sameOtherSlots_setSlot _ _ _, fun q _ => port_setSlot .., hdigest, by simp,
      fun c c' hc hc' => ?_⟩
    obtain rfl : c = d := by simpa [hc] using hd
    obtain rfl : updateCtx c len = c' := by simpa [updateSlot] using hc'
    simp [updateCtx]
  · simp at hi

end Sys2Proof.Machine
end

section
/-! The sequential procedure of R166 and R202: its occupancy, and its bytes taken a run at a time. -/

namespace Sys2Proof.Machine

variable {cfg : Config} {c : Ctx}

/-! ### One byte, and the occupancy -/

/-- One byte grows the buffer, or fills it and is fed with the block (R202). -/
theorem absorbByte_occ_firstBlock (cfg : Config) (c : Ctx) (b : Byte) :
    (c.occ + 1 ≠ c.bs → (absorbByte cfg c b).occ = c.occ + 1 ∧ (absorbByte cfg c b).firstBlock = c.firstBlock) ∧
    (c.occ + 1 = c.bs → (absorbByte cfg c b).occ = 0 ∧ (absorbByte cfg c b).firstBlock = false) := by
  constructor <;> intro h <;> simp only [Ctx.bs] at h <;> simp [absorbByte, Ctx.bs, h]

/-- The loop writes neither mode, counter nor lifecycle (R166). -/
theorem absorbByte_kept (cfg : Config) (c : Ctx) (b : Byte) :
    (absorbByte cfg c b).mode = c.mode ∧ (absorbByte cfg c b).total = c.total ∧
      (absorbByte cfg c b).lifecycle = c.lifecycle := by
  unfold absorbByte
  dsimp only
  split <;> exact ⟨rfl, rfl, rfl⟩

theorem absorbAll_nil (cfg : Config) (c : Ctx) : absorbAll cfg c [] = c := rfl

theorem absorbAll_cons (cfg : Config) (c : Ctx) (b : Byte) (bs : List Byte) :
    absorbAll cfg c (b :: bs) = absorbAll cfg (absorbByte cfg c b) bs := rfl

theorem absorbAll_append (cfg : Config) (c : Ctx) (xs ys : List Byte) :
    absorbAll cfg c (xs ++ ys) = absorbAll cfg (absorbAll cfg c xs) ys := List.foldl_append

/-- Settles O57, by induction on the bytes: the first fills the block, which leaves occupancy 0 and a fed block, or
grows the occupancy by one. -/
theorem sequentialProcedureOccupancy : Obligations.SequentialProcedureOccupancy := by
  intro cfg c bs hocc
  induction bs generalizing c with
  | nil => simp [absorbAll, Nat.mod_eq_of_lt hocc, Nat.div_eq_of_lt hocc]
  | cons b bs ih =>
    obtain ⟨hmode, htotal, hlife⟩ := absorbByte_kept cfg c b
    have hbs : (absorbByte cfg c b).bs = c.bs := congrArg (blockSize ∘ famOf) hmode
    obtain ⟨hgrow, hfill⟩ := absorbByte_occ_firstBlock cfg c b
    have hpos := c.bs_pos
    rw [absorbAll_cons, ← hmode, ← htotal, ← hlife, List.length_cons]
    by_cases hfull : c.occ + 1 = c.bs
    · obtain ⟨hocc', hfirst⟩ := hfill hfull
      obtain ⟨ihocc, ihmode, ihtotal, ihlife, ihfirst⟩ := ih (absorbByte cfg c b) (by omega)
      rw [hocc', hbs] at ihocc
      rw [hfirst] at ihfirst
      refine ⟨?_, ihmode, ihtotal, ihlife, ihfirst.trans ?_⟩
      · rw [ihocc, Nat.zero_add, ← Nat.add_mod_left c.bs bs.length, ← hfull]
        congr 1
        omega
      · rw [Nat.div_eq_zero_iff_lt hpos]
        simp
        omega
    · obtain ⟨hocc', hfirst⟩ := hgrow hfull
      obtain ⟨ihocc, ihmode, ihtotal, ihlife, ihfirst⟩ := ih (absorbByte cfg c b) (by omega)
      rw [hocc', hbs, Nat.add_right_comm, Nat.add_assoc] at ihocc
      rw [hocc', hbs, hfirst, Nat.add_right_comm, Nat.add_assoc] at ihfirst
      exact ⟨ihocc, ihmode, ihtotal, ihlife, ihfirst⟩

/-! ### A run of bytes -/

/-- The context with a run of bytes appended to the buffer. -/
def storeRun (c : Ctx) (bs : List Byte) : Ctx :=
  { c with buffer := writeRun c.buffer c.occ bs, occ := c.occ + bs.length }

/-- The context after its block has been fed and the words saved (R166). -/
def feedCtx (cfg : Config) (c : Ctx) : Ctx :=
  { c with
    state := engineCompress cfg (famOf c.mode) (if c.firstBlock then engineIV cfg c.mode else c.state)
      (c.buffer.take c.bs)
    firstBlock := false
    occ := 0 }

theorem set_eq_writeRun {buf : List Byte} {i : Nat} (h : i < buf.length) (b : Byte) :
    buf.set i b = writeRun buf i [b] := by
  rw [writeRun, List.set_eq_take_append_cons_drop, if_pos h]
  simp

theorem writeRun_append {buf xs ys : List Byte} {i : Nat} (h : i + xs.length ≤ buf.length) :
    writeRun buf i (xs ++ ys) = writeRun (writeRun buf i xs) (i + xs.length) ys := by
  have hi : (buf.take i).length = i := by simp; omega
  have hpre : (buf.take i ++ xs).length = i + xs.length := by simp; omega
  simp only [writeRun]
  rw [List.take_left' hpre, ← hpre, List.drop_length_add_append, hpre, List.drop_drop, List.length_append]
  simp [Nat.add_assoc]

theorem storeRun_append {xs ys : List Byte} (h : c.occ + xs.length ≤ c.buffer.length) :
    storeRun c (xs ++ ys) = storeRun (storeRun c xs) ys := by
  simp [storeRun, writeRun_append h, Nat.add_assoc]

/-- One byte of the loop is a run of one, fed when it fills the block (R202). -/
theorem absorbByte_eq (cfg : Config) (h : c.occ < c.buffer.length) (b : Byte) :
    absorbByte cfg c b =
      if c.occ + 1 = c.bs then feedCtx cfg (storeRun c [b]) else storeRun c [b] := by
  simp only [absorbByte, set_eq_writeRun h]
  rfl

/-- `ABSORB` appends the bytes it takes as one run (R163). -/
theorem absorbCtx_eq_storeRun (c : Ctx) (pend : List Byte) :
    absorbCtx c pend = storeRun c (pend.take (absorbCount c pend)) := by
  simp [absorbCtx, storeRun, (absorbCount_le c pend).1]

/-- Bytes that do not fill the block are appended. -/
theorem absorbAll_of_lt {bs : List Byte} (h : c.occ + bs.length < c.bs) (hbuf : c.bs ≤ c.buffer.length) :
    absorbAll cfg c bs = storeRun c bs := by
  induction bs using List.reverseRecOn with
  | nil => simp [absorbAll, storeRun, writeRun]
  | append_singleton bs b ih =>
    rw [List.length_append, List.length_singleton] at h
    have hlen : (storeRun c bs).buffer.length = c.buffer.length := length_writeRun (by omega)
    have hocc : (storeRun c bs).occ = c.occ + bs.length := rfl
    have hbs : (storeRun c bs).bs = c.bs := rfl
    rw [absorbAll_append, ih (by omega), absorbAll_cons, absorbAll_nil, absorbByte_eq cfg (by omega),
      if_neg (by omega), ← storeRun_append (by omega)]

/-- Bytes that just fill the block are appended and fed. -/
theorem absorbAll_of_fills {bs : List Byte} (hocc : c.occ < c.bs) (h : c.occ + bs.length = c.bs)
    (hbuf : c.bs ≤ c.buffer.length) : absorbAll cfg c bs = feedCtx cfg (storeRun c bs) := by
  obtain rfl | ⟨bs, b, rfl⟩ := List.eq_nil_or_concat bs
  · simp at h
    omega
  · rw [List.concat_eq_append, List.length_append, List.length_singleton] at h
    have hlen : (storeRun c bs).buffer.length = c.buffer.length := length_writeRun (by omega)
    have hocc : (storeRun c bs).occ = c.occ + bs.length := rfl
    have hbs : (storeRun c bs).bs = c.bs := rfl
    rw [List.concat_eq_append, absorbAll_append, absorbAll_of_lt (by omega) hbuf, absorbAll_cons, absorbAll_nil,
      absorbByte_eq cfg (by omega), if_pos (by omega), ← storeRun_append (by omega)]

/-- The loop over the pending bytes goes on from where one `ABSORB`, and the block operation when it has filled the
buffer, leaves the context (R163, R166). -/
theorem absorbAll_eq_of_absorbCtx {pend : List Byte} (hocc : c.occ < c.bs) (hbuf : c.bs ≤ c.buffer.length) :
    absorbAll cfg c pend =
      absorbAll cfg
        (if (absorbCtx c pend).occ = c.bs then feedCtx cfg (absorbCtx c pend) else absorbCtx c pend)
        (pend.drop (absorbCount c pend)) := by
  obtain ⟨hle, hroom⟩ := absorbCount_le c pend
  have htake : (pend.take (absorbCount c pend)).length = absorbCount c pend := by simpa using hle
  have hocc' : (absorbCtx c pend).occ = c.occ + absorbCount c pend := rfl
  conv_lhs => rw [← List.take_append_drop (absorbCount c pend) pend, absorbAll_append]
  congr 1
  rw [absorbCtx_eq_storeRun] at hocc' ⊢
  split
  · next hfull => exact absorbAll_of_fills hocc (by omega) hbuf
  · next hpart => exact absorbAll_of_lt (by omega) hbuf

end Sys2Proof.Machine
end

section
/-! A command that runs alone: the steps are its own sequencer's, and they do what the sequential procedure does
(R162, R163, R166, R302). -/

namespace Sys2Proof.Machine

/-! ### The only enabled move -/

/-- With no command waiting no channel can be accepted from (R96). -/
theorem portReady_of_no_command {s : State} {q : Port} (h : q.cmd = []) : portReady s q = false := by
  simp [portReady, h, takeCommand]

/-- When slot `k` runs alone its sequencer has the only enabled move, so every draw picks it (R70). -/
theorem chosen_of_runsAlone {s : State} {k : Nat} {m : Move} (hi : Inv s) (ha : RunsAlone s k)
    (hm : seqMove s k (s.slot k) = some m) : s.chosen = some m := by
  have honly : ∀ m', m' ∈ enabledMoves s ↔ m' = m := by
    intro m'
    rw [mem_enabledMoves hi.slots_wf hi.ports_wf]
    constructor
    · rintro (⟨p, -, hr⟩ | ⟨j, hj⟩)
      · simp [portReady_of_no_command (ha.no_command p)] at hr
      · by_cases hjk : j = k
        · subst hjk
          simpa [hm] using hj.symm
        · simp [seqMove, ha.others_idle j hjk] at hj
    · rintro rfl
      exact .inr ⟨k, hm⟩
  have hlt : s.draw.turn % (enabledMoves s).length < (enabledMoves s).length :=
    Nat.mod_lt _ (List.length_pos_of_mem ((honly m).2 rfl))
  rw [State.chosen, List.getElem?_eq_getElem hlt]
  exact congrArg some ((honly _).1 (List.getElem_mem hlt))

theorem step_of_runsAlone {s u : State} {k : Nat} {m : Move} (hi : Inv s) (ha : RunsAlone s k)
    (hm : seqMove s k (s.slot k) = some m) (hu : takeMove m s = .next u) : step s = .next u.advanceDraw := by
  simp [step, stepOnce, ha.no_reset, chosen_of_runsAlone hi ha hm, hu]

/-- No micro-operation writes the reset request (R280). -/
theorem takeMove_resetReq {m : Move} {s t : State} {k : Nat} (hm : m.slot? = some k) (h : takeMove m s = .next t) :
    t.resetReq = s.resetReq := by
  cases m with
  | accept p => simp [Move.slot?] at hm
  | absorb k => obtain ⟨c, -, -, ⟨-, -, rfl⟩ | ⟨-, -, rfl⟩ | ⟨-, rfl⟩⟩ := absorb_next h <;> simp
  | acquire k => obtain ⟨-, -, rfl⟩ := acquire_next h; simp
  | timeout k => obtain ⟨-, -, -, rfl⟩ := acquireTimeout_next h; simp
  | feed k => obtain ⟨c, -, -, -, -, rfl⟩ := feedBlock_next h; simp
  | release k => obtain ⟨-, -, ⟨-, rfl⟩ | ⟨-, rfl⟩⟩ := release_next h <;> simp
  | extract k => obtain ⟨c, -, -, -, rfl⟩ := extract_next h; simp

theorem slot?_of_seqMove {s : State} {k : Nat} {v : Slot} {m : Move} (h : seqMove s k v = some m) :
    m.slot? = some k := by
  obtain ⟨-, rfl⟩ | ⟨-, -, rfl⟩ | ⟨-, -, -, rfl⟩ | ⟨-, -, rfl⟩ | ⟨-, -, rfl⟩ | ⟨-, rfl⟩ :=
    (seqMove_eq_some ..).1 h <;> rfl

/-! ### Runs of a slot alone -/

/-- From `s`, where slot `k` runs alone, the machine comes to `t`, where it still does, and so far nothing but that
slot's record, the lock, the engine and the draws has changed. -/
structure SoloRun (k : Nat) (s t : State) : Prop where
  run : ∃ n, Host.Core.run Sys2Proof.core n s = .next t
  inv : Inv t
  alone : RunsAlone t k
  cfg : t.cfg = s.cfg
  others : sameOtherSlots k s t
  ports : samePorts s t

theorem run_succ {M : Host.Core} {s u : M.State} (n : Nat) (h : M.step s = .next u) :
    M.run (n + 1) s = M.run n u := by
  simp [Host.Core.run, h]

/-- A run of `n + m` steps goes on from where its first `n` lead. -/
theorem run_add {M : Host.Core} {s t : M.State} {n : Nat} (m : Nat) (h : M.run n s = .next t) :
    M.run (n + m) s = M.run m t := by
  induction n generalizing s with
  | zero =>
    obtain rfl : s = t := by simpa [Host.Core.run] using h
    rw [Nat.zero_add]
  | succ n ih =>
    cases hstep : M.step s with
    | next u =>
      rw [run_succ n hstep] at h
      rw [Nat.add_right_comm, run_succ _ hstep, ih h]
    | fault r => simp [Host.Core.run, hstep] at h
    | refused r => simp [Host.Core.run, hstep] at h

theorem SoloRun.refl {s : State} {k : Nat} (hi : Inv s) (ha : RunsAlone s k) : SoloRun k s s :=
  ⟨⟨0, rfl⟩, hi, ha, rfl, fun _ _ => rfl, fun _ => rfl⟩

theorem SoloRun.trans {s t u : State} {k : Nat} (h : SoloRun k s t) (h' : SoloRun k t u) : SoloRun k s u := by
  obtain ⟨n, hn⟩ := h.run
  obtain ⟨m, hm⟩ := h'.run
  exact ⟨⟨n + m, (run_add m hn).trans hm⟩, h'.inv, h'.alone, h'.cfg.trans h.cfg,
    fun j hj => (h'.others j hj).trans (h.others j hj), fun p => (h'.ports p).trans (h.ports p)⟩

/-- One enabled micro-operation of the slot that answers nothing. -/
theorem soloRun_of_move {s u : State} {k : Nat} {m : Move} {v : Slot} (hi : Inv s) (ha : RunsAlone s k)
    (hm : seqMove s k (s.slot k) = some m) (hu : takeMove m s = .next u) (hp : samePorts s u) (hv : u.slot k = v) :
    ∃ t, SoloRun k s t ∧ t.slot k = v := by
  have hslot := slot?_of_seqMove hm
  have hstep := step_of_runsAlone hi ha hm hu
  have hothers : sameOtherSlots k s u := takeMove_other_slot hslot hu
  refine ⟨u.advanceDraw, ⟨⟨1, run_succ 0 hstep⟩, stepKeepsTheInvariant s _ hi hstep,
    ⟨?_, fun j hj => ?_, fun p => ?_⟩, (takeMove_cfg_hwReady hslot hu).1, hothers,
    fun p => (port_advanceDraw u p).trans (hp p)⟩, hv⟩
  · exact (takeMove_resetReq hslot hu).trans ha.no_reset
  · rw [slot_advanceDraw, hothers j hj]
    exact ha.others_idle j hj
  · rw [port_advanceDraw, hp p]
    exact ha.no_command p

/-! ### The lock -/

/-- A slot that runs alone and does not hold the lock finds it free (R301). -/
theorem lock_free_of_runsAlone {s : State} {k : Nat} (hi : Inv s) (ha : RunsAlone s k)
    (hk : holdsLock (s.slot k).seq = false) : s.lock = .free := by
  cases hl : s.lock with
  | free => rfl
  | held j =>
    have hj := (hi.lock_iff j).1 hl
    by_cases hjk : j = k
    · simp [hjk, hk] at hj
    · simp [ha.others_idle j hjk, holdsLock] at hj

/-- The lock is held by a slot at `FEED` or `REL` (R301). -/
theorem lock_held_of_seq {s : State} {k : Nat} (hi : Inv s) (hk : (s.slot k).seq = .feed ∨ (s.slot k).seq = .rel) :
    s.lock = .held k :=
  (hi.lock_iff k).2 (by simpa [holdsLock] using hk)

/-! ### The micro-operations of a slot alone -/

section
variable {s : State} {k : Nat} {c : Ctx} (hi : Inv s) (ha : RunsAlone s k)
include hi ha

/-- `ABSORB` with bytes pending. -/
theorem soloRun_absorb (hs : (s.slot k).seq = .absorb) (hc : (s.slot k).ctx = some c) (hp : (s.slot k).pend ≠ []) :
    ∃ t, SoloRun k s t ∧ t.slot k =
      { s.slot k with
        ctx := some (absorbCtx c (s.slot k).pend)
        pend := (s.slot k).pend.drop (absorbCount c (s.slot k).pend)
        seq := if (absorbCtx c (s.slot k).pend).occ = c.bs then .acq else .absorb } :=
  soloRun_of_move (m := .absorb k) hi ha (by simp [seqMove, hs]) (absorb_of_pending hs hc hp)
    (fun p => port_setSlot ..) (slot_setSlot_same ..)

/-- `ACQUIRE`. -/
theorem soloRun_acquire (hs : (s.slot k).seq = .acq) :
    ∃ t, SoloRun k s t ∧ t.slot k = { s.slot k with seq := .feed } := by
  have hl := lock_free_of_runsAlone hi ha (by simp [hs, holdsLock])
  exact soloRun_of_move (m := .acquire k) hi ha (by simp [seqMove, hs, hl]) (acquire_of_free hs hl)
    (fun p => by simp) (slot_setSlot_same ..)

/-- `FEED_BLOCK` on an engine that does not fail saves the words of the sequential procedure. -/
theorem soloRun_feed (hf : s.cfg.hwCanFail = false) (hs : (s.slot k).seq = .feed) (hc : (s.slot k).ctx = some c) :
    ∃ t, SoloRun k s t ∧ t.slot k = { s.slot k with ctx := some (feedCtx s.cfg c), seq := .rel } := by
  have hl := lock_held_of_seq hi (.inl hs)
  have hlen := ((hi.slots k).ctx_inv c hc).words_length
  have hle : c.state.length ≤ stateWords (famOf c.mode) := by rw [hlen]; split <;> simp
  have hwords : c.firstBlock = false → stateWords (famOf c.mode) ≤ c.state.length := fun h => by simp [hlen, h]
  have hfeed := feedBlock_of_held hs hl hc ((restoreUnwritten_eq_false_iff c).2 hwords)
  rw [(runBlock_of_ok s.eng (d := s.draw) (by simp [hf]) hwords).1, take_state_eq hle] at hfeed
  refine soloRun_of_move (m := .feed k) hi ha (by simp [seqMove, hs, hl]) hfeed (fun p => by simp)
    ((slot_setSlot_same ..).trans ?_)
  rw [fedSlot, overwriteWords_of_length_le (by simpa using hle), feedCtx]

/-- `RELEASE` on an engine that does not fail. -/
theorem soloRun_release (hf : s.cfg.hwCanFail = false) (hs : (s.slot k).seq = .rel) :
    ∃ t, SoloRun k s t ∧ t.slot k = { s.slot k with seq := .absorb } := by
  have hl := lock_held_of_seq hi (.inr hs)
  have he : (s.slot k).err = .none := by
    cases herr : (s.slot k).err
    · rfl
    · simpa [hf] using ((hi.slots k).err_rel herr).2
  exact soloRun_of_move (m := .release k) hi ha (by simp [seqMove, hs, hl]) (release_of_no_error hs hl he)
    (fun p => by simp) (slot_setSlot_same ..)

/-- A full buffer is fed: the lock is taken, the block run and the lock given back (R121 to R124). -/
theorem soloRun_block (hf : s.cfg.hwCanFail = false) (hs : (s.slot k).seq = .acq) (hc : (s.slot k).ctx = some c) :
    ∃ t, SoloRun k s t ∧ t.slot k = { s.slot k with ctx := some (feedCtx s.cfg c), seq := .absorb } := by
  obtain ⟨t₁, h₁, hv₁⟩ := soloRun_acquire hi ha hs
  obtain ⟨t₂, h₂, hv₂⟩ := soloRun_feed (c := c) h₁.inv h₁.alone (h₁.cfg ▸ hf) (by rw [hv₁]) (by rw [hv₁, hc])
  obtain ⟨t₃, h₃, hv₃⟩ := soloRun_release h₂.inv h₂.alone (h₂.cfg ▸ h₁.cfg ▸ hf) (by rw [hv₂])
  exact ⟨t₃, (h₁.trans h₂).trans h₃, by rw [hv₃, hv₂, hv₁, h₁.cfg]⟩

/-- One `ABSORB`, and the block operation when it has filled the buffer. -/
theorem soloRun_round (hf : s.cfg.hwCanFail = false) (hs : (s.slot k).seq = .absorb) (hc : (s.slot k).ctx = some c)
    (hp : (s.slot k).pend ≠ []) :
    ∃ t, SoloRun k s t ∧ t.slot k =
      { s.slot k with
        ctx := some (if (absorbCtx c (s.slot k).pend).occ = c.bs then feedCtx s.cfg (absorbCtx c (s.slot k).pend)
          else absorbCtx c (s.slot k).pend)
        pend := (s.slot k).pend.drop (absorbCount c (s.slot k).pend) } := by
  obtain ⟨t₁, h₁, hv₁⟩ := soloRun_absorb hi ha hs hc hp
  by_cases hfull : (absorbCtx c (s.slot k).pend).occ = c.bs
  · obtain ⟨t₂, h₂, hv₂⟩ := soloRun_block (c := absorbCtx c (s.slot k).pend) h₁.inv h₁.alone (h₁.cfg ▸ hf)
      (by rw [hv₁]; exact if_pos hfull) (by rw [hv₁])
    exact ⟨t₂, h₁.trans h₂, by simp [hv₂, hv₁, h₁.cfg, hfull, hs]⟩
  · exact ⟨t₁, h₁, by simp [hv₁, hfull, hs]⟩

end

/-- A slot that runs alone comes to have nothing pending, in the context of the sequential procedure (R166); for
`UPDATE` and for the tail of a `FINISH` alike. -/
theorem soloRun_drain {s : State} {k : Nat} {c : Ctx} (hi : Inv s) (ha : RunsAlone s k)
    (hf : s.cfg.hwCanFail = false) (hs : (s.slot k).seq = .absorb) (hc : (s.slot k).ctx = some c) :
    ∃ t, SoloRun k s t ∧
      t.slot k = { s.slot k with ctx := some (absorbAll s.cfg c (s.slot k).pend), pend := [] } := by
  induction hn : (s.slot k).pend.length using Nat.strong_induction_on generalizing s c with
  | h n ih =>
    by_cases hp : (s.slot k).pend = []
    · exact ⟨s, .refl hi ha, by rw [hp, absorbAll_nil, ← hc, ← hp]⟩
    · have hocc := ((hi.slots k).busy_inv c hc (by simp [hs])).absorb_occ hs
      have hbuf : c.bs ≤ c.buffer.length := by
        rw [((hi.slots k).ctx_inv c hc).buffer_length]
        rcases c.bs_cases with h | h <;> omega
      obtain ⟨t, ht, hv⟩ := soloRun_round hi ha hf hs hc hp
      have hless : (t.slot k).pend.length < n := by
        have hpos := absorbCount_pos hp hocc
        have hle := (absorbCount_le c (s.slot k).pend).1
        rw [hv, List.length_drop]
        omega
      obtain ⟨u, hu, hw⟩ := ih _ hless ht.inv ht.alone (ht.cfg ▸ hf) (by rw [hv, hs]) (by rw [hv]) rfl
      refine ⟨u, ht.trans hu, ?_⟩
      rw [hw, hv, ht.cfg, ← absorbAll_eq_of_absorbCtx hocc hbuf]

/-- Settles O55: the pending bytes drain as the sequential procedure does, and the last `ABSORB` answers `OK`. -/
theorem updateAloneRunsToOk : Obligations.UpdateAloneRunsToOk := by
  intro s k c hi ha hf hs ho hc
  obtain ⟨t, ht, hv⟩ := soloRun_drain hi ha hf hs hc
  have hseq : (t.slot k).seq = .absorb := by rw [hv, hs]
  have hdone := absorb_of_update_done hseq (congrArg Slot.ctx hv) (congrArg Slot.pend hv) (by rw [hv, ho])
  have hstep := step_of_runsAlone (m := .absorb k) ht.inv ht.alone (by simp [seqMove, hseq]) hdone
  have hlock := lock_free_of_runsAlone ht.inv ht.alone (by simp [hseq, holdsLock])
  obtain ⟨n, hn⟩ := ht.run
  refine ⟨n + 1, _, (run_add 1 hn).trans (run_succ 0 hstep), ?_, by simpa using hlock, fun j hj => ?_, ?_,
    fun q hq => ?_⟩
  · simp [hv]
  · simpa [hj] using ht.others j hj
  · simp [ht.ports (.slot k), statusCode]
  · simpa [hq] using ht.ports q

end Sys2Proof.Machine
end

section
/-! The Finalizer's arithmetic: the zero-pad count, the tail and the bit-length (R182 to R184). -/

namespace Sys2Proof.Machine

/-! ### The zero-pad count and the tail -/

variable {f : Family} {n : Nat}

/-- The length field is shorter than a block (R7). -/
theorem lenFieldSize_bounds (f : Family) : 0 < lenFieldSize f ∧ lenFieldSize f < blockSize f := by
  cases f <;> decide

/-- The tail fits the block (R182). -/
theorem padZeros_of_fits (h : n + 1 ≤ blockSize f - lenFieldSize f) :
    padZeros f n = blockSize f - lenFieldSize f - 1 - n := by
  obtain ⟨hpos, hlt⟩ := lenFieldSize_bounds f
  have hsplit : 2 * blockSize f - lenFieldSize f - (n + 1) =
      blockSize f + (blockSize f - lenFieldSize f - 1 - n) := by omega
  rw [padZeros, hsplit, Nat.add_mod_left, Nat.mod_eq_of_lt (by omega)]

/-- The tail spills into the next block (R182). -/
theorem padZeros_of_spills (hn : n < blockSize f) (h : blockSize f - lenFieldSize f < n + 1) :
    padZeros f n = 2 * blockSize f - lenFieldSize f - 1 - n := by
  obtain ⟨hpos, hlt⟩ := lenFieldSize_bounds f
  rw [padZeros, Nat.mod_eq_of_lt (by omega)]
  omega

/-- With its zeros the tail leaves exactly the length field to the end of a block (R182). -/
theorem add_padZeros_mod (hn : n < blockSize f) :
    (n + 1 + padZeros f n) % blockSize f = blockSize f - lenFieldSize f := by
  obtain ⟨hpos, hlt⟩ := lenFieldSize_bounds f
  have hmod : (blockSize f - lenFieldSize f) % blockSize f = blockSize f - lenFieldSize f :=
    Nat.mod_eq_of_lt (by omega)
  obtain h | h := Nat.lt_or_ge (blockSize f - lenFieldSize f) (n + 1)
  · have hsum : n + 1 + padZeros f n = blockSize f + (blockSize f - lenFieldSize f) := by
      rw [padZeros_of_spills hn h]
      omega
    rw [hsum, Nat.add_mod_left, hmod]
  · have hsum : n + 1 + padZeros f n = blockSize f - lenFieldSize f := by
      rw [padZeros_of_fits h]
      omega
    rw [hsum, hmod]

/-- No fewer zeros do: the sum's remainder is below the sum, and where the tail spills the sum is past one block
(R182). -/
theorem padZeros_le {z : Nat} (hn : n < blockSize f)
    (hz : (n + 1 + z) % blockSize f = blockSize f - lenFieldSize f) : padZeros f n ≤ z := by
  have hdiv := Nat.div_add_mod (n + 1 + z) (blockSize f)
  rw [hz] at hdiv
  obtain h | h := Nat.lt_or_ge (blockSize f - lenFieldSize f) (n + 1)
  · rw [padZeros_of_spills hn h]
    have hquot : (n + 1 + z) / blockSize f ≠ 0 := fun h0 => by
      rw [h0] at hdiv
      omega
    have hblock := Nat.le_mul_of_pos_right (blockSize f) (Nat.pos_of_ne_zero hquot)
    omega
  · rw [padZeros_of_fits h]
    omega

/-- Settles O36: the two closed forms, and from them the congruence and that it is the least. -/
theorem paddingIsLeast : Obligations.PaddingIsLeast := fun _ _ hn =>
  ⟨add_padZeros_mod hn, fun _ hz => padZeros_le hn hz, padZeros_of_fits, padZeros_of_spills hn⟩

theorem length_tailBytes (f : Family) (n : Nat) (total : Counter) :
    (tailBytes f n total).length = 1 + padZeros f n + lenFieldSize f := by
  simp [tailBytes]
  omega

/-- Settles O37: the length is that of the three parts, and the closed forms of the zero-pad count end the block. -/
theorem tailEndsABlock : Obligations.TailEndsABlock := by
  intro f n total hn
  obtain ⟨hpos, hlt⟩ := lenFieldSize_bounds f
  refine ⟨rfl, length_tailBytes f n total, fun h => ?_, fun h => ?_⟩
  · rw [length_tailBytes, padZeros_of_fits h]
    omega
  · rw [length_tailBytes, padZeros_of_spills hn h]
    omega

/-! ### The bit-length -/

/-- The counter is its two words (R31). -/
theorem toNat_eq_words {t : Counter} (h : t.toNat < 2 ^ (2 * wordBits f)) :
    t.toNat = 2 ^ wordBits f * totalHi f t + totalLo f t := by
  have hhi : t.toNat / 2 ^ wordBits f < 2 ^ wordBits f :=
    Nat.div_lt_of_lt_mul (by rwa [← Nat.pow_add, ← Nat.two_mul])
  rw [totalHi, totalLo, Nat.mod_eq_of_lt hhi, Nat.div_add_mod]

/-- The upper word shifted, with the bits that leave the lower one: the quotient of the shifted counter (R183). -/
theorem shifted_words_eq_div {w hi lo : Nat} (hw : 3 ≤ w) (hlo : lo < 2 ^ w) :
    hi <<< 3 ||| lo >>> (w - 3) = (2 ^ w * hi + lo) * 8 / 2 ^ w := by
  have hsplit : 2 ^ w = 2 ^ (w - 3) * 8 := by
    rw [show (8 : Nat) = 2 ^ 3 from rfl, ← Nat.pow_add, Nat.sub_add_cancel hw]
  have hcarry : lo >>> (w - 3) = lo * 8 / 2 ^ w := by
    rw [Nat.shiftRight_eq_div_pow, hsplit, Nat.mul_div_mul_right _ _ (by decide)]
  have hbits : lo >>> (w - 3) < 2 ^ 3 := by
    rw [hcarry]
    exact Nat.div_lt_of_lt_mul (by omega)
  rw [← Nat.shiftLeft_add_eq_or_of_lt hbits, Nat.shiftLeft_eq, hcarry, Nat.add_mul, Nat.mul_assoc,
    Nat.mul_add_div (Nat.two_pow_pos w)]

/-- Settles O38: a product modulo `2^W · 2^W` is its remainder and its quotient modulo `2^W`, which are the two
shifted words. -/
theorem bitLengthInWords : Obligations.BitLengthInWords := by
  intro f t ht
  have hlo : totalLo f t < 2 ^ wordBits f := Nat.mod_lt _ (Nat.two_pow_pos _)
  have hw : 3 ≤ wordBits f := by cases f <;> decide
  refine ⟨by rw [bitLength, Nat.shiftLeft_eq], ?_⟩
  have hlow : (totalLo f t <<< 3) % 2 ^ wordBits f = t.toNat * 8 % 2 ^ wordBits f := by
    rw [Nat.shiftLeft_eq, totalLo, Nat.mod_mul_mod]
  rw [shifted_words_eq_div hw hlo, ← toNat_eq_words ht, hlow, bitLength, Nat.two_mul, Nat.pow_add, Nat.mod_mul,
    Nat.mul_comm (2 ^ wordBits f), Nat.add_comm]

end Sys2Proof.Machine
end

section
/-! The Finalizer's commands: what a `FINISH` answers at acceptance and what it leaves alone, `EXTRACT`, and a `FINISH`
that runs alone (R181, R200 to R202). -/

namespace Sys2Proof.Machine

/-! ### `FINISH` at acceptance -/

section
variable {s : State} {sid : BitVec 16} (hi : s.isIdle (sidNat sid) = true) (hn : sidNat sid < s.cfg.nCtx)
  (nullbuf : Bool)
include hi hn

/-- Before bring-up `FINISH` ends with `HardwareUnavailable` (R241, R247). -/
theorem exec_finish_of_down (hr : s.hwReady = false) :
    exec (.finish nullbuf sid) s = .next (s.raise (sidNat sid) .hardwareUnavailable) := by
  rw [exec_finish, whenAccepted_of_ready _ _ hi hn, whenPermitted, if_neg (by simp [hr])]

/-- On a context that is `⊥` a `FINISH` has no meaning (R181, U1). -/
theorem exec_finish_of_no_ctx (hr : s.hwReady = true) (hc : (s.slot (sidNat sid)).ctx = none) :
    exec (.finish nullbuf sid) s = .refused (.contextUnspecified (sidNat sid)) := by
  rw [exec_finish, whenAccepted_of_ready _ _ hi hn]
  simp [whenPermitted, hr, hc]

/-- On a context that is not `⊥` the null-buffer argument is tested before the lifecycle (R181, R247). -/
theorem exec_finish_of_ctx (hr : s.hwReady = true) {c : Ctx} (hc : (s.slot (sidNat sid)).ctx = some c) :
    exec (.finish nullbuf sid) s =
      if nullbuf then .next (s.raise (sidNat sid) .invalidArgument)
      else if c.lifecycle = .terminal then .next (s.raise (sidNat sid) .invalidState)
      else .next (s.setSlot (sidNat sid) (finishSlot (s.slot (sidNat sid)) c)) := by
  rw [exec_finish, whenAccepted_of_ready _ _ hi hn, whenPermitted_of_ctx _ _ hr hc]

end

/-- Settles O12: each test is a branch of the acceptance, and an accepted one is one write of the slot. -/
theorem finishAcceptance : Obligations.FinishAcceptance := by
  intro nullbuf sid s hi hn
  refine ⟨fun hr => ⟨_, exec_finish_of_down hi hn nullbuf hr, raisedAt_raise s (sidNat sid) .hardwareUnavailable⟩,
    exec_finish_of_no_ctx hi hn nullbuf, fun c hr hc hnull => ?_, fun c hr hc hnull ht => ?_,
    fun c hr hc hnull ht => ?_, takeMove_total⟩ <;>
    have hexec := exec_finish_of_ctx hi hn nullbuf hr hc
  · rw [if_pos hnull] at hexec
    exact ⟨_, hexec, raisedAt_raise s (sidNat sid) .invalidArgument⟩
  · rw [if_neg (by simp [hnull]), if_pos ht] at hexec
    exact ⟨_, hexec, raisedAt_raise s (sidNat sid) .invalidState⟩
  · rw [if_neg (by simp [hnull]), if_neg ht] at hexec
    exact ⟨_, hexec, slot_setSlot_same .., sameOtherSlots_setSlot _ _ _, fun p => port_setSlot ..,
      sameGlobals_setSlot ..⟩

/-- The ways a `FINISH` comes to a next state: a slot number out of range, a command that waits, an error, which takes
the context away or keeps it whole, and the tail pending (R181). -/
theorem exec_finish_next {nullbuf : Bool} {sid : BitVec 16} {s t : State}
    (h : exec (.finish nullbuf sid) s = .next t) :
    t = s.post (.slot (sidNat sid)) .invalidArgument ∨
    (s.isIdle (sidNat sid) = false ∧ t = s.putBack (.slot (sidNat sid)) (encode (.finish nullbuf sid))) ∨
    (∃ e, t = s.raise (sidNat sid) e) ∨
    (∃ c, (s.slot (sidNat sid)).ctx = some c ∧
      t = s.setSlot (sidNat sid) (finishSlot (s.slot (sidNat sid)) c)) := by
  rcases exec_next h with ⟨hi, -⟩ | ⟨sid', hs, -, -, rfl⟩ | ⟨sid', hs, hbusy, rfl⟩ | ⟨sid', m, -, hm, -⟩ |
    ⟨sid', m, -, hm, -⟩ | ⟨sid', e, hs, -, -, -, rfl, -⟩ | ⟨nullbuf', sid', len, data, c, hi, -⟩ |
    ⟨nullbuf', sid', c, hi, -, -, -, hc, -, -, rfl⟩
  · simp at hi
  · cases hs
    exact .inl rfl
  · cases hs
    exact .inr (.inl ⟨hbusy, rfl⟩)
  · simp [startsMode] at hm
  · simp [startsMode] at hm
  · cases hs
    exact .inr (.inr (.inl ⟨e, rfl⟩))
  · simp at hi
  · cases hi
    exact .inr (.inr (.inr ⟨c, hc, rfl⟩))

/-- Settles O14: each way a `FINISH` comes to a next state writes one slot record or one set of channels or both. -/
theorem frameOfFinish : Obligations.FrameOfFinish := by
  intro nullbuf sid s t h
  have hdigest := exec_digestOut h (.slot (sidNat sid))
  obtain rfl | ⟨hbusy, rfl⟩ | ⟨e, rfl⟩ | ⟨d, hd, rfl⟩ := exec_finish_next h
  · exact ⟨sameGlobals_post .., fun j _ => slot_post .., fun q hq => port_post_other _ _ hq, hdigest, by simp,
      fun c c' hc hc' => by simpa [hc] using hc'.symm⟩
  · exact ⟨by simp [sameGlobals], fun j _ => slot_putBack .., fun q hq => port_setPort_other _ _ hq, hdigest,
      by simp [hbusy], fun c c' hc hc' => by simpa [hc] using hc'.symm⟩
  · refine ⟨by simp [sameGlobals], fun j hj => slot_raise_other _ _ hj, fun q hq => port_raise_other _ _ hq, hdigest,
      by simp, fun c c' hc hc' => ?_⟩
    obtain ⟨-, rfl⟩ : e = .invalidState ∧ c = c' := by simpa [errorSlot, hc] using hc'
    rfl
  · refine ⟨sameGlobals_setSlot .., sameOtherSlots_setSlot _ _ _, fun q _ => port_setSlot .., hdigest, by simp,
      fun c c' hc hc' => ?_⟩
    simpa [finishSlot, hc] using hc'.symm

/-! ### The digest's bytes -/

section
variable {α β : Type} {g : α → List β} {n : Nat} (hg : ∀ x, (g x).length = n)
include hg

/-- Pieces of one length put together: entry `b` of piece `w`. -/
theorem getElem?_flatMap_of_length (l : List α) {w b : Nat} (hb : b < n) :
    (l.flatMap g)[w * n + b]? = l[w]?.bind fun x => (g x)[b]? := by
  induction l generalizing w with
  | nil => simp
  | cons x l ih =>
    rw [List.flatMap_cons]
    cases w with
    | zero => rw [Nat.zero_mul, Nat.zero_add, List.getElem?_append_left (hg x ▸ hb)]; rfl
    | succ w =>
      have hoff : (w + 1) * n + b - (g x).length = w * n + b := by
        rw [hg, Nat.succ_mul]
        omega
      rw [List.getElem?_append_right (by rw [hg, Nat.succ_mul]; omega), hoff, ih, List.getElem?_cons_succ]

/-- Pieces of one length put together: the first `w` pieces are the first `w * n` entries. -/
theorem take_flatMap_of_length (l : List α) (w : Nat) : (l.flatMap g).take (w * n) = (l.take w).flatMap g := by
  induction l generalizing w with
  | nil => simp
  | cons x l ih =>
    cases w with
    | zero => simp
    | succ w =>
      rw [List.flatMap_cons, List.take_succ_cons, List.flatMap_cons, ← ih, List.take_append, hg,
        List.take_of_length_le (by rw [hg, Nat.succ_mul]; omega), Nat.succ_mul, Nat.add_sub_cancel]

end

/-- The digest is the first `DB` bytes of the state words, most significant byte first (R8, R200, R202). -/
theorem digestOf_eq_take (m : Mode) (words : List Word) :
    digestOf m words = (words.flatMap fun x => beBytes (wordBytes (famOf m)) x.toNat).take (digestBytes m) := by
  have hbytes : digestBytes m = digestWords m * wordBytes (famOf m) := by cases m <;> rfl
  rw [hbytes, take_flatMap_of_length fun x => length_beBytes ..]
  rfl

/-- Byte `b` of digest word `w` (R61, R200). -/
theorem getElem?_digestOf {m : Mode} (words : List Word) {w b : Nat} (hw : w < digestWords m)
    (hb : b < wordBytes (famOf m)) :
    (digestOf m words)[w * wordBytes (famOf m) + b]? =
      words[w]?.map fun x => BitVec.ofNat 8 (x.toNat / 2 ^ (8 * (wordBytes (famOf m) - 1 - b))) := by
  rw [digestOf, getElem?_flatMap_of_length (fun x => length_beBytes ..) _ hb, List.getElem?_take_of_lt hw]
  simp only [getElem?_beBytes hb]
  cases words[w]? <;> rfl

/-! ### `EXTRACT` -/

/-- `EXTRACT` puts out the digest, then `OK`, and leaves the context `Terminal` (R200, R201). -/
theorem extract_of_written {s : State} {k : Nat} {c : Ctx} (hs : (s.slot k).seq = .extract)
    (hc : (s.slot k).ctx = some c) (hl : digestWords c.mode ≤ c.state.length) :
    extract k s = .next (((s.emit k (digestOf c.mode c.state)).setSlot k
      { s.slot k with ctx := some { c with lifecycle := .terminal }, seq := .idle }).post (.slot k) .ok) := by
  simp [extract, hs, hc, Nat.not_lt.2 hl]

/-- Settles O32: one write of the digest-out stream, one of the slot and one status. -/
theorem extractEmitsTheDigest : Obligations.ExtractEmitsTheDigest := by
  intro s k c hs hc hl
  refine ⟨_, digestOf c.mode c.state, extract_of_written hs hc hl, length_digestOf hl,
    fun w b hw hb => getElem?_digestOf c.state hw hb, ?_, ?_, fun j hj => ?_, fun q hq => ?_, ?_⟩
  · simp [statusCode]
  · simp
  · simp [hj]
  · simp [hq]
  · simp [sameGlobals]

/-! ### A `FINISH` that runs alone -/

/-- At `EXTRACT` every word of the digest has been written (R186). -/
theorem digestWords_le_of_extract {s : State} {k : Nat} {c : Ctx} (hi : Inv s) (hs : (s.slot k).seq = .extract)
    (hc : (s.slot k).ctx = some c) : digestWords c.mode ≤ c.state.length := by
  obtain ⟨c', hc', hbusy, hwords⟩ := exists_ctx_of_busy hi (k := k) (by simp [hs])
  obtain rfl : c = c' := by simpa [hc] using hc'
  obtain ⟨-, -, -, hfirst⟩ := hbusy.extract_done hs
  exact hwords hfirst ▸ digestWords_le_stateWords c.mode

/-- The loop over all bytes writes no mode (R166). -/
theorem absorbAll_mode (cfg : Config) (c : Ctx) (bs : List Byte) : (absorbAll cfg c bs).mode = c.mode := by
  induction bs generalizing c with
  | nil => rfl
  | cons b bs ih => rw [absorbAll_cons, ih, (absorbByte_kept cfg c b).1]

/-- Settles O56: the tail drains as the sequential procedure does, the last `ABSORB` goes on to `EXTRACT`, and that puts
out the digest of the drained context. -/
theorem finishAloneRunsToTheDigest : Obligations.FinishAloneRunsToTheDigest := by
  intro s k c hi ha hf hs ho hc
  obtain ⟨t₁, h₁, hv₁⟩ := soloRun_drain hi ha hf hs hc
  have hs₁ : (t₁.slot k).seq = .absorb := by rw [hv₁, hs]
  have hdone := absorb_of_finish_done hs₁ (congrArg Slot.ctx hv₁) (congrArg Slot.pend hv₁) (by rw [hv₁, ho])
  obtain ⟨t₂, h₂, hv₂⟩ := soloRun_of_move (m := .absorb k) h₁.inv h₁.alone (by simp [seqMove, hs₁]) hdone
    (fun p => port_setSlot ..) (slot_setSlot_same ..)
  have hs₂ : (t₂.slot k).seq = .extract := by rw [hv₂]
  have hc₂ : (t₂.slot k).ctx = some (absorbAll s.cfg c (s.slot k).pend) := by rw [hv₂, hv₁]
  have hextract := extract_of_written hs₂ hc₂ (digestWords_le_of_extract h₂.inv hs₂ hc₂)
  have hstep := step_of_runsAlone (m := .extract k) h₂.inv h₂.alone (by simp [seqMove, hs₂]) hextract
  have hlock := lock_free_of_runsAlone h₂.inv h₂.alone (by simp [hs₂, holdsLock])
  have hrun := h₁.trans h₂
  obtain ⟨n, hn⟩ := hrun.run
  refine ⟨n + 1, _, (run_add 1 hn).trans (run_succ 0 hstep), ?_, by simpa using hlock, fun j hj => ?_,
    fun q hq => ?_, ?_⟩
  · simp [hv₂, hv₁]
  · simpa [hj] using hrun.others j hj
  · simpa [hq] using hrun.ports q
  · simp [hrun.ports (.slot k), absorbAll_mode, statusCode]

end Sys2Proof.Machine
end

section
/-! The hash of a message: the chain over its blocks, what a context and its pending bytes carry of it, and the padded
message (R182 to R184, R202). -/

namespace Sys2Proof.Machine

variable {cfg : Config} {c : Ctx} {pend msg : List Byte}

/-! ### The chain -/

/-- A whole block of a message is not changed by what follows the message. -/
theorem blockOf_append {f : Family} {n : Nat} (h : (n + 1) * blockSize f ≤ msg.length) (bs : List Byte) :
    blockOf f (msg ++ bs) n = blockOf f msg n := by
  rw [Nat.succ_mul] at h
  rw [blockOf, blockOf, List.drop_append_of_le_length (by omega), List.take_append_of_le_length]
  rw [List.length_drop]
  omega

/-- The chain over whole blocks of a message is not changed by what follows the message (R202). -/
theorem mdChain_append {m : Mode} {n : Nat} (h : n * blockSize (famOf m) ≤ msg.length) (bs : List Byte) :
    mdChain cfg m (msg ++ bs) n = mdChain cfg m msg n := by
  induction n with
  | zero => rfl
  | succ n ih =>
    have hn : n * blockSize (famOf m) ≤ msg.length := le_trans (Nat.mul_le_mul_right _ (Nat.le_succ n)) h
    rw [mdChain, mdChain, ih hn, blockOf_append h]

/-! ### What a context and its pending bytes carry -/

/-- A fresh context carries the empty message (R142). -/
theorem carries_freshCtx (cfg : Config) (m : Mode) : Carries cfg (freshCtx m) [] [] :=
  ⟨0, [], rfl, by simp, fun _ => rfl, nofun⟩

/-- Bytes put behind the pending ones are bytes put behind the message. -/
theorem Carries.append (h : Carries cfg c pend msg) (bs : List Byte) : Carries cfg c (pend ++ bs) (msg ++ bs) := by
  obtain ⟨n, fed, hmsg, hfed, hfirst, hchain⟩ := h
  have hle : n * c.bs ≤ msg.length := by
    rw [hmsg, ← hfed, List.append_assoc, List.length_append]
    exact Nat.le_add_right _ _
  refine ⟨n, fed, by simp [hmsg], hfed, hfirst, fun hf => ?_⟩
  obtain ⟨hpos, hstate⟩ := hchain hf
  exact ⟨hpos, hstate.trans (mdChain_append hle bs).symm⟩

/-- The buffer up to the end of a run just written. -/
theorem take_writeRun {buf bs : List Byte} {i : Nat} (h : i ≤ buf.length) :
    (writeRun buf i bs).take (i + bs.length) = buf.take i ++ bs :=
  List.take_left' (by simp [h])

/-- `ABSORB` moves bytes from the pending ones to the buffer and leaves the message (R163). -/
theorem carries_absorbCtx (h : Carries cfg c pend msg) (hocc : c.occ ≤ c.buffer.length) :
    Carries cfg (absorbCtx c pend) (pend.drop (absorbCount c pend)) msg := by
  obtain ⟨n, fed, hmsg, hfed, hfirst, hchain⟩ := h
  have hbuf : (storeRun c (pend.take (absorbCount c pend))).buffer.take
      (storeRun c (pend.take (absorbCount c pend))).occ = c.buffer.take c.occ ++ pend.take (absorbCount c pend) :=
    take_writeRun hocc
  rw [absorbCtx_eq_storeRun]
  refine ⟨n, fed, ?_, hfed, hfirst, hchain⟩
  rw [hbuf, hmsg]
  simp

/-- The chain with one more block fed (R166, R202). -/
theorem carries_feedCtx (h : Carries cfg c pend msg) (hocc : c.occ = c.bs) (hbuf : c.bs ≤ c.buffer.length) :
    Carries cfg (feedCtx cfg c) pend msg := by
  obtain ⟨n, fed, hmsg, hfed, hfirst, hchain⟩ := h
  rw [hocc] at hmsg
  have hlen : (c.buffer.take c.bs).length = c.bs := by simpa using hbuf
  have hblock : blockOf (famOf c.mode) msg n = c.buffer.take c.bs := by
    rw [hmsg, List.append_assoc, blockOf, ← Ctx.bs, List.drop_left' hfed, List.take_left' hlen]
  have hprev : (if c.firstBlock then engineIV cfg c.mode else c.state) = mdChain cfg c.mode msg n := by
    split
    · next hf => rw [hfirst hf, mdChain]
    · next hf => exact (hchain (by simpa using hf)).2
  have hnext : (feedCtx cfg c).state = mdChain cfg c.mode msg (n + 1) := by
    rw [mdChain, hblock, ← hprev]
    rfl
  refine ⟨n + 1, fed ++ c.buffer.take c.bs, by simp [hmsg, feedCtx], ?_, nofun, fun _ => ⟨n.succ_pos, hnext⟩⟩
  rw [List.length_append, hfed, hlen, ← Nat.succ_mul]
  rfl

/-- With nothing buffered or pending the saved words are the chain over all of the message's blocks (R202). -/
theorem Carries.state_eq (h : Carries cfg c [] msg) (hocc : c.occ = 0) (hf : c.firstBlock = false) :
    c.state = mdChain cfg c.mode msg (msg.length / c.bs) := by
  obtain ⟨n, fed, hmsg, hfed, -, hchain⟩ := h
  obtain rfl : msg = fed := by simpa [hocc] using hmsg
  rw [hfed, Nat.mul_div_cancel _ c.bs_pos]
  exact (hchain hf).2

/-! ### The padded message -/

/-- The tail of a context whose counter and occupancy agree with the message is the message's (R182 to R184). -/
theorem tailBytes_eq_mdTail {f : Family} {occ : Nat} {total : Counter} (hocc : occ = msg.length % blockSize f)
    (ht : total.toNat = msg.length % 2 ^ (2 * wordBits f)) : tailBytes f occ total = mdTail f msg := by
  have hpad : padZeros f occ =
      (2 * blockSize f - lenFieldSize f - 1 - msg.length % blockSize f) % blockSize f := by
    rw [padZeros, hocc, Nat.add_comm, Nat.sub_add_eq]
  have hbits : 2 * wordBits f = 8 * lenFieldSize f := by cases f <;> rfl
  have hlen : bitLength f total = 8 * msg.length % 2 ^ (8 * lenFieldSize f) := by
    rw [bitLength, ht, Nat.mod_mul_mod, Nat.mul_comm, hbits]
  rw [tailBytes, mdTail, hpad, hlen]
  rfl

end Sys2Proof.Machine
end

section
/-! A session under every interleaving: a slot goes on hashing its message through every step, or has put out the
digest, or has lost its context to an error of its own (R70, R74, R126, R202). -/

namespace Sys2Proof.Machine

/-! ### A slot record that hashes a message -/

/-- What the context and the pending bytes of a slot that hashes `msg` carry: inside a `FINISH` the padded message
(R185). -/
def carried (v : Slot) (m : Mode) (msg : List Byte) : List Byte :=
  if v.seq ≠ .idle ∧ v.op = some .finish then msg ++ mdTail (famOf m) msg else msg

/-- `Hashing` of one slot record. -/
def SlotHashes (cfg : Config) (v : Slot) (m : Mode) (msg : List Byte) : Prop :=
  ∃ c, v.ctx = some c ∧ c.mode = m ∧ c.lifecycle ≠ .terminal ∧
    c.total.toNat = msg.length % 2 ^ (2 * wordBits (famOf m)) ∧ Carries cfg c v.pend (carried v m msg)

/-- Of the state `Hashing` reads only the slot's record and the implementation. -/
theorem hashing_iff (s : State) (k : Nat) (m : Mode) (msg : List Byte) :
    Hashing s k m msg ↔ SlotHashes s.cfg (s.slot k) m msg := Iff.rfl

section
variable {cfg : Config} {b : Bool} {v : Slot} {c : Ctx} {m : Mode} {msg : List Byte}

theorem carried_of_finish (hs : v.seq ≠ .idle) (ho : v.op = some .finish) :
    carried v m msg = msg ++ mdTail (famOf m) msg := if_pos ⟨hs, ho⟩

theorem carried_of_idle (hs : v.seq = .idle) : carried v m msg = msg := if_neg fun h => h.1 hs

theorem carried_of_update (ho : v.op = some .update) : carried v m msg = msg := if_neg fun h => by simp [ho] at h

/-- Inside one command the bytes carried are the same at every position of the sequencer. -/
theorem carried_congr {w : Slot} (hop : w.op = v.op) (hv : v.seq ≠ .idle) (hw : w.seq ≠ .idle) :
    carried w m msg = carried v m msg := by simp [carried, hop, hv, hw]

/-- What a slot that hashes says of the context it is known to have. -/
theorem SlotHashes.of_ctx (h : SlotHashes cfg v m msg) (hc : v.ctx = some c) :
    c.mode = m ∧ c.lifecycle ≠ .terminal ∧ c.total.toNat = msg.length % 2 ^ (2 * wordBits (famOf m)) ∧
      Carries cfg c v.pend (carried v m msg) := by
  obtain ⟨c', hc', hrest⟩ := h
  obtain rfl : c = c' := by simpa [hc] using hc'
  exact hrest

/-- A slot hashes when its context carries what it has to. -/
theorem slotHashes_of_carries {bytes : List Byte} (hc : v.ctx = some c) (hlive : c.lifecycle ≠ .terminal)
    (htotal : c.total.toNat = msg.length % 2 ^ (2 * wordBits (famOf c.mode)))
    (hbytes : carried v c.mode msg = bytes) (h : Carries cfg c v.pend bytes) : SlotHashes cfg v c.mode msg :=
  ⟨c, hc, rfl, hlive, htotal, hbytes ▸ h⟩

/-- `STARTS` begins the empty message (R142). -/
theorem slotHashes_freshCtx (cfg : Config) (hs : v.seq = .idle) (hp : v.pend = []) (m : Mode) :
    SlotHashes cfg { v with ctx := some (freshCtx m) } m [] :=
  slotHashes_of_carries (c := freshCtx m) rfl nofun (Nat.zero_mod _).symm (carried_of_idle hs)
    (hp ▸ carries_freshCtx cfg m)

/-- An accepted `UPDATE` puts its bytes behind the message (R161). -/
theorem slotHashes_updateSlot (h : SlotHashes cfg v m msg) (hs : v.seq = .idle) (hp : v.pend = [])
    (hc : v.ctx = some c) {nullbuf : Bool} {len : BitVec 32} {data : List Byte}
    (hdata : (if nullbuf then [] else data) = data) (hlen : data.length = len.toNat) :
    SlotHashes cfg (updateSlot v c nullbuf len data) m (msg ++ data) := by
  obtain ⟨rfl, hlive, htotal, hcarries⟩ := h.of_ctx hc
  rw [carried_of_idle hs, hp] at hcarries
  refine slotHashes_of_carries (c := updateCtx c len) rfl (lifecycleAfter_ne_terminal hlive) ?_
    (carried_of_update rfl) ?_
  · rw [toNat_total_updateCtx, htotal, Nat.mod_add_mod, List.length_append, hlen]
    rfl
  · rw [updateSlot, hdata]
    exact hcarries.append data

/-- An accepted `FINISH` puts the tail behind the message (R181, R184). -/
theorem slotHashes_finishSlot (h : SlotHashes cfg v m msg) (hi : SlotInv cfg b v) (hs : v.seq = .idle)
    (hc : v.ctx = some c) : SlotHashes cfg (finishSlot v c) m msg := by
  obtain ⟨rfl, hlive, htotal, hcarries⟩ := h.of_ctx hc
  obtain ⟨-, -, hp, -, hidle⟩ := (slotInv_iff_of_idle hc hs).1 hi
  rw [carried_of_idle hs, hp] at hcarries
  have hocc : c.occ = msg.length % blockSize (famOf c.mode) := by
    rw [hidle.occ_eq hlive, htotal]
    exact Nat.mod_mod_of_dvd _ c.bs_dvd
  refine slotHashes_of_carries hc hlive htotal (carried_of_finish (by simp [finishSlot]) rfl) ?_
  rw [finishSlot, tailBytes_eq_mdTail hocc htotal]
  exact hcarries.append _

/-- A move that touches neither the context nor the pending bytes. -/
theorem SlotHashes.of_same {w : Slot} (h : SlotHashes cfg v m msg) (hctx : w.ctx = v.ctx) (hpend : w.pend = v.pend)
    (hsame : carried w m msg = carried v m msg) : SlotHashes cfg w m msg := by
  rw [SlotHashes, hctx, hpend, hsame]
  exact h

/-- `ABSORB` with bytes pending (R163). -/
theorem slotHashes_absorbCtx (h : SlotHashes cfg v m msg) (hi : CtxInv c) (hs : v.seq ≠ .idle) (hc : v.ctx = some c)
    {q : SeqPos} (hq : q ≠ .idle) :
    SlotHashes cfg
      { v with ctx := some (absorbCtx c v.pend), pend := v.pend.drop (absorbCount c v.pend), seq := q } m msg := by
  obtain ⟨rfl, hlive, htotal, hcarries⟩ := h.of_ctx hc
  have hocc : c.occ ≤ c.buffer.length := by
    have hle := hi.occ_le
    have hbuf := hi.buffer_length
    have hbs := c.bs_cases
    omega
  exact slotHashes_of_carries (c := absorbCtx c v.pend) rfl hlive htotal (carried_congr (v := v) rfl hs hq)
    (carries_absorbCtx hcarries hocc)

/-- A block operation without an engine error leaves the context the sequential procedure leaves (R123, R166). -/
theorem fedSlot_runBlock_of_ok (hi : CtxInv c) (v : Slot) {d : Draw} (e : Engine)
    (h : ¬(cfg.hwCanFail = true ∧ (d.opError = true ∨ d.readError = true))) :
    fedSlot v c (runBlock cfg d c e).2 = { v with ctx := some (feedCtx cfg c), seq := .rel } := by
  have hle : c.state.length ≤ stateWords (famOf c.mode) := by
    rw [hi.words_length]
    split <;> simp
  have hwords : c.firstBlock = false → stateWords (famOf c.mode) ≤ c.state.length := fun hf => by
    simp [hi.words_length, hf]
  rw [(runBlock_of_ok e h hwords).1, take_state_eq hle, fedSlot, overwriteWords_of_length_le (by simpa using hle),
    feedCtx]

/-- `FEED_BLOCK`, whether the engine answers the words of one more block or an error (R123, R125). -/
theorem slotHashes_fedSlot (h : SlotHashes cfg v m msg) (hi : SlotInv cfg b v) (hs : v.seq = .feed)
    (hc : v.ctx = some c) (d : Draw) (e : Engine) : SlotHashes cfg (fedSlot v c (runBlock cfg d c e).2) m msg := by
  have hbusy : v.seq ≠ .idle := by simp [hs]
  by_cases herr : cfg.hwCanFail = true ∧ (d.opError = true ∨ d.readError = true)
  · rw [runBlock_of_error c e herr.1 herr.2]
    exact h.of_same rfl rfl (carried_congr rfl hbusy (by simp [fedSlot]))
  · obtain ⟨-, -, hctx, hb⟩ := (slotInv_iff_of_busy hc hbusy).1 hi
    obtain ⟨rfl, hlive, htotal, hcarries⟩ := h.of_ctx hc
    have hbuf : c.bs ≤ c.buffer.length := by
      rw [hctx.buffer_length]
      rcases c.bs_cases with h | h <;> omega
    rw [fedSlot_runBlock_of_ok hctx v e herr]
    exact slotHashes_of_carries (c := feedCtx cfg c) rfl hlive htotal (carried_congr (v := v) rfl hbusy nofun)
      (carries_feedCtx hcarries (hb.acq_occ (.inr hs)) hbuf)

/-- At `EXTRACT` the digest that goes out is the message's (R200, R202). -/
theorem digestOf_eq_mdDigest (h : SlotHashes cfg v m msg) (hi : SlotInv cfg b v) (hs : v.seq = .extract)
    (hc : v.ctx = some c) : digestOf c.mode c.state = mdDigest cfg m msg := by
  have hbusy : v.seq ≠ .idle := by simp [hs]
  obtain ⟨-, -, -, hb⟩ := (slotInv_iff_of_busy hc hbusy).1 hi
  obtain ⟨hop, hpend, hocc, hfirst⟩ := hb.extract_done hs
  obtain ⟨rfl, -, -, hcarries⟩ := h.of_ctx hc
  rw [carried_of_finish hbusy hop, hpend] at hcarries
  rw [digestOf_eq_take, hcarries.state_eq hocc hfirst]
  rfl

end

/-! ### What a step does to a session -/

section
variable {s t : State} {k : Nat} {m : Mode} {msg : List Byte}

/-- What `SessionHashesItsMessage` says of one step from `s` to `t`. -/
def SessionStep (s t : State) (k : Nat) (m : Mode) (msg : List Byte) : Prop :=
  (∀ m', s.restarting k = some m' → Hashing t k m' []) ∧
  (s.restarting k = none →
    (Hashing t k m (msg ++ s.absorbing k) ∧
      (t.port (.slot k)).digestOut = (s.port (.slot k)).digestOut) ∨
    (s.chosen = some (.extract k) ∧
      (∃ c, (t.slot k).ctx = some c ∧ c.lifecycle = .terminal) ∧
      (t.port (.slot k)).digestOut = (s.port (.slot k)).digestOut ++ mdDigest s.cfg m msg ∧
      (t.port (.slot k)).resp = (s.port (.slot k)).resp ++ [0x00]) ∨
    ((t.slot k).ctx = none ∧ (t.port (.slot k)).digestOut = (s.port (.slot k)).digestOut ∧
      ∃ code : BitVec 8, code ≠ 0x00 ∧
        (t.port (.slot k)).resp = (s.port (.slot k)).resp ++ [code]))

/-- A consumed draw is no part of what a session sees. -/
theorem SessionStep.advanceDraw (h : SessionStep s t k m msg) : SessionStep s t.advanceDraw k m msg := by
  simpa only [SessionStep, hashing_iff, State.advanceDraw_cfg, slot_advanceDraw, port_advanceDraw] using h

/-- No `STARTS` for the slot, which goes on with the bytes of an accepted `UPDATE` or with none. -/
theorem SessionStep.of_hashing (hr : s.restarting k = none) (hh : Hashing t k m (msg ++ s.absorbing k))
    (hd : (t.port (.slot k)).digestOut = (s.port (.slot k)).digestOut) : SessionStep s t k m msg :=
  ⟨fun m' hm => by simp [hr] at hm, fun _ => .inl ⟨hh, hd⟩⟩

/-- A `STARTS` for the slot. -/
theorem SessionStep.of_restarting {m' : Mode} (hr : s.restarting k = some m') (hh : Hashing t k m' []) :
    SessionStep s t k m msg := by
  refine ⟨fun m'' hm => ?_, fun hn => by simp [hr] at hn⟩
  obtain rfl : m' = m'' := by simpa [hr] using hm
  exact hh

/-- Only `OK` has the code `0x00` (R100). -/
theorem statusCode_ne_zero {e : Status} (h : e ≠ .ok) : statusCode e ≠ 0x00 := by
  cases e with
  | ok => exact absurd rfl h
  | _ => decide

/-- An error that takes the slot's context away (R250, R252), after changes the slot's outputs do not show. -/
theorem SessionStep.of_raise {u : State} {e : Status} (hr : s.restarting k = none)
    (hresp : (u.port (.slot k)).resp = (s.port (.slot k)).resp)
    (hd : (u.port (.slot k)).digestOut = (s.port (.slot k)).digestOut) (hok : e ≠ .ok) (he : e ≠ .invalidState) :
    SessionStep s (u.raise k e) k m msg := by
  refine ⟨fun m' hm => by simp [hr] at hm,
    fun _ => .inr (.inr ⟨?_, ?_, statusCode e, statusCode_ne_zero hok, ?_⟩)⟩
  · simp [errorSlot, he]
  · rw [digestOut_raise, hd]
  · simp [hresp]

/-! ### The acceptance of a command -/

/-- What the acceptance of a command does to a slot that holds a live context: nothing, when it names another slot; else
the slot is idle and gets a fresh context, loses its context to a null buffer, or has the command's bytes pending
(R142, R161, R181, R243). -/
theorem exec_live_slot {i : Instr} {c : Ctx} (hi : Inv s)
    (hidle : ∀ sid, instrSid i = some sid → s.isIdle (sidNat sid) = true) (hc : (s.slot k).ctx = some c)
    (hlive : c.lifecycle ≠ .terminal) (h : exec i s = .next t) :
    ((instrSid i).map sidNat ≠ some k ∧ t.slot k = s.slot k) ∨
    ((instrSid i).map sidNat = some k ∧ (s.slot k).seq = .idle ∧
      ((∃ m, startsMode i = some m ∧ t.slot k = { s.slot k with ctx := some (freshCtx m) }) ∨
       (startsMode i = none ∧ t = s.raise k .invalidArgument) ∨
       (∃ nullbuf sid len data, i = .update nullbuf sid len data ∧ (nullbuf = true → len = 0#32) ∧
          t.slot k = updateSlot (s.slot k) c nullbuf len data) ∨
       (∃ nullbuf sid, i = .finish nullbuf sid ∧ t.slot k = finishSlot (s.slot k) c))) := by
  by_cases hsid : (instrSid i).map sidNat = some k
  case neg => exact .inl ⟨hsid, (exec_eng_slots h).2 k hsid⟩
  obtain ⟨sid, hs, rfl⟩ := Option.map_eq_some_iff.1 hsid
  have hseq := isIdle_iff.1 (hidle sid hs)
  have hup : s.hwReady = true := ((slotInv_iff_of_idle hc hseq).1 (hi.slots (sidNat sid))).1
  have hlt : sidNat sid < s.cfg.nCtx := lt_nCtx_of_ne_reset hi fun hreset => by simp [hreset, Slot.reset] at hc
  refine .inr ⟨hsid, hseq, ?_⟩
  obtain ⟨rfl, -⟩ | ⟨sid', hs', -, hn, -⟩ | ⟨sid', hs', hbusy, -⟩ | ⟨sid', m, hs', hm, -, -, -, rfl⟩ |
    ⟨sid', m, -, -, -, -, hr, -⟩ | ⟨sid', e, hs', hm, -, -, rfl, he⟩ |
    ⟨nullbuf, sid', len, data, d, rfl, -, -, -, hd, -, hnull, rfl⟩ | ⟨nullbuf, sid', d, rfl, -, -, -, hd, -, -, rfl⟩ :=
    exec_next h
  · simp [instrSid] at hs
  · cases hs.symm.trans hs'
    exact absurd hlt (Nat.not_lt.2 hn)
  · simp [hidle sid' hs'] at hbusy
  · cases hs.symm.trans hs'
    exact .inl ⟨m, hm, by simp [State.setCtx]⟩
  · simp [hup] at hr
  · cases hs.symm.trans hs'
    obtain ⟨-, hr⟩ | ⟨rfl, -⟩ | ⟨-, -, -, d, hd, ht⟩ := he
    · simp [hup] at hr
    · exact .inr (.inl ⟨hm, rfl⟩)
    · obtain rfl : c = d := by simpa [hc] using hd
      exact absurd ht hlive
  · cases hs
    obtain rfl : c = d := by simpa [hc] using hd
    exact .inr (.inr (.inl ⟨nullbuf, sid, len, data, rfl, hnull, slot_setSlot_same ..⟩))
  · cases hs
    obtain rfl : c = d := by simpa [hc] using hd
    exact .inr (.inr (.inr ⟨nullbuf, sid, rfl, slot_setSlot_same ..⟩))

/-- An `UPDATE` brings all of its bytes, `LEN` of them; with a null buffer and no length it brings none (R94, R164). -/
theorem data_of_wf_update {nullbuf : Bool} {sid : BitVec 16} {len : BitVec 32} {data : List Byte}
    (hwf : (Instr.update nullbuf sid len data).wf = true) (hnull : nullbuf = true → len = 0#32) :
    (if nullbuf then [] else data) = data ∧ data.length = len.toNat := by
  cases nullbuf
  · simpa [Instr.wf] using hwf
  · obtain rfl : data = [] := by simpa [Instr.wf] using hwf
    simp [hnull rfl]

/-- The mode a step restarts the slot in, from the instruction it accepts. -/
theorem restarting_of_accepting {i : Instr} (ha : s.accepting = some i) (k : Nat) :
    s.restarting k = if (instrSid i).map sidNat = some k then startsMode i else none := by
  simp [State.restarting, ha]

/-- A command that names another slot or none brings the slot no bytes. -/
theorem absorbing_of_other_slot {i : Instr} (ha : s.accepting = some i) (hk : (instrSid i).map sidNat ≠ some k) :
    s.absorbing k = [] := by
  rw [State.absorbing, ha]
  cases i with
  | update nullbuf sid len data => exact if_neg (by simpa [instrSid] using hk)
  | _ => rfl

/-- The acceptance of a well-formed command is one step of the session. -/
theorem sessionStep_of_exec {i : Instr} {p : PortId} {ws : List CmdWord} {ds : List Byte} (hi : Inv (s.consume p ws ds))
    (hwf : i.wf = true) (hidle : ∀ sid, instrSid i = some sid → s.isIdle (sidNat sid) = true)
    (ha : s.accepting = some i) (h : exec i (s.consume p ws ds) = .next t) (hh : Hashing s k m msg) :
    SessionStep s t k m msg := by
  have ⟨c, hc, _, hlive, _⟩ := hh
  rw [hashing_iff] at hh
  have hv : SlotInv s.cfg s.hwReady (s.slot k) := by simpa using hi.slots k
  have hcfg : t.cfg = s.cfg := by simpa using (exec_globals h).1
  have hdigest : (t.port (.slot k)).digestOut = (s.port (.slot k)).digestOut := by
    rw [exec_digestOut h, (outputs_consume ..).2]
  have hrestart := restarting_of_accepting ha k
  have hcase := exec_live_slot (k := k) hi (by simpa using hidle) (by simpa using hc) hlive h
  rw [slot_consume] at hcase
  obtain ⟨hk, hslot⟩ | ⟨hk, hseq, ⟨m', hm, hslot⟩ | ⟨hm, rfl⟩ | ⟨nullbuf, sid, len, data, rfl, hnull, hslot⟩ |
    ⟨nullbuf, sid, rfl, hslot⟩⟩ := hcase
  · refine .of_hashing (by rw [hrestart, if_neg hk]) ?_ hdigest
    rw [absorbing_of_other_slot ha hk, List.append_nil, hashing_iff, hcfg, hslot]
    exact hh
  · refine .of_restarting (by rw [hrestart, if_pos hk, hm]) ?_
    rw [hashing_iff, hcfg, hslot]
    exact slotHashes_freshCtx s.cfg hseq (hv.idle_pend hseq) m'
  · obtain ⟨hresp, hd⟩ := outputs_consume s p (.slot k) ws ds
    exact .of_raise (by rw [hrestart, if_pos hk, hm]) hresp hd nofun nofun
  · refine .of_hashing (by rw [hrestart, if_pos hk]; rfl) ?_ hdigest
    have hnew : s.absorbing k = data := by
      rw [State.absorbing, ha]
      exact if_pos (by simpa [instrSid] using hk)
    obtain ⟨hdata, hlen⟩ := data_of_wf_update hwf hnull
    rw [hnew, hashing_iff, hcfg, hslot]
    exact slotHashes_updateSlot hh hseq (hv.idle_pend hseq) hc hdata hlen
  · refine .of_hashing (by rw [hrestart, if_pos hk]; rfl) ?_ hdigest
    have hnew : s.absorbing k = [] := by rw [State.absorbing, ha]
    rw [hnew, List.append_nil, hashing_iff, hcfg, hslot]
    exact slotHashes_finishSlot hh hv hseq hc

/-! ### Steps that accept no instruction -/

/-- A step that accepts no instruction and leaves the slot hashing. -/
theorem SessionStep.of_not_accepting (ha : s.accepting = none) (hh : Hashing t k m msg)
    (hd : (t.port (.slot k)).digestOut = (s.port (.slot k)).digestOut) : SessionStep s t k m msg := by
  have hnew : s.absorbing k = [] := by simp [State.absorbing, ha]
  exact .of_hashing (by simp [State.restarting, ha]) (by rwa [hnew, List.append_nil]) hd

/-- A micro-operation is no acceptance. -/
theorem accepting_of_slot? {mv : Move} {j : Nat} (hc : s.chosen = some mv) (hm : mv.slot? = some j) :
    s.accepting = none := by
  cases mv with
  | accept p => simp [Move.slot?] at hm
  | _ => simp [State.accepting, hc]

/-- A micro-operation, of this slot or another, that leaves the slot hashing and is not its `EXTRACT`. -/
theorem SessionStep.of_move {mv : Move} {j : Nat} (hc : s.chosen = some mv) (hm : mv.slot? = some j)
    (h : takeMove mv s = .next t) (hne : mv ≠ .extract k) (hh : SlotHashes s.cfg (t.slot k) m msg) :
    SessionStep s t k m msg := by
  refine .of_not_accepting (accepting_of_slot? hc hm) ?_ ((takeMove_digestOut hm h _).resolve_right ?_)
  · rwa [hashing_iff, (takeMove_cfg_hwReady hm h).1]
  · rintro ⟨rfl, hj⟩
    cases hj
    exact hne rfl

/-- Each micro-operation of the slot is one step of its session. -/
theorem sessionStep_of_own_move {mv : Move} (hi : Inv s) (hc : s.chosen = some mv) (hm : mv.slot? = some k)
    (h : takeMove mv s = .next t) (hh : Hashing s k m msg) : SessionStep s t k m msg := by
  have hv := hi.slots k
  have hr : s.restarting k = none := by simp [State.restarting, accepting_of_slot? hc hm]
  rw [hashing_iff] at hh
  cases mv with
  | accept p => simp [Move.slot?] at hm
  | absorb j =>
    cases hm
    refine .of_move hc rfl h nofun ?_
    obtain ⟨c, hs, hctx, ⟨-, ho, rfl⟩ | ⟨-, -, rfl⟩ | ⟨-, rfl⟩⟩ := absorb_next h
    · rw [slot_post, slot_setSlot_same]
      exact hh.of_same rfl rfl (by rw [carried_of_idle rfl, carried_of_update ho])
    · rw [slot_setSlot_same]
      exact hh.of_same rfl rfl (carried_congr rfl (by simp [hs]) nofun)
    · rw [slot_setSlot_same]
      exact slotHashes_absorbCtx hh (hv.ctx_inv c hctx) (by simp [hs]) hctx (by split <;> simp)
  | acquire j =>
    cases hm
    refine .of_move hc rfl h nofun ?_
    obtain ⟨hs, -, rfl⟩ := acquire_next h
    rw [slot_setSlot_same]
    exact hh.of_same rfl rfl (carried_congr rfl (by simp [hs]) nofun)
  | timeout j =>
    cases hm
    obtain ⟨-, -, -, rfl⟩ := acquireTimeout_next h
    exact .of_raise hr rfl rfl nofun nofun
  | feed j =>
    cases hm
    refine .of_move hc rfl h nofun ?_
    obtain ⟨c, hs, -, hctx, -, rfl⟩ := feedBlock_next h
    rw [slot_setSlot_same]
    exact slotHashes_fedSlot hh hv hs hctx s.draw s.eng
  | release j =>
    cases hm
    obtain ⟨hs, -, ⟨-, rfl⟩ | ⟨-, ht⟩⟩ := release_next h
    · exact .of_raise hr (by simp) (by simp) nofun nofun
    · refine .of_move hc rfl h nofun ?_
      rw [ht, slot_setSlot_same]
      exact hh.of_same rfl rfl (carried_congr rfl (by simp [hs]) nofun)
  | extract j =>
    cases hm
    obtain ⟨c, hs, hctx, -, rfl⟩ := extract_next h
    have hdigest := digestOf_eq_mdDigest hh hv hs hctx
    refine ⟨fun m' hm => by simp [hr] at hm, fun _ => .inr (.inl ⟨hc, ⟨_, by rw [slot_post, slot_setSlot_same], rfl⟩,
      ?_, ?_⟩)⟩
    · simp [hdigest]
    · simp [statusCode]

/-- Every micro-operation is one step of the session of every slot. -/
theorem sessionStep_of_move {mv : Move} {j : Nat} (hi : Inv s) (hc : s.chosen = some mv) (hm : mv.slot? = some j)
    (h : takeMove mv s = .next t) (hh : Hashing s k m msg) : SessionStep s t k m msg := by
  by_cases hk : k = j
  · subst hk
    exact sessionStep_of_own_move hi hc hm h hh
  · refine .of_move hc hm h ?_ ?_
    · rintro rfl
      exact hk (by simpa [Move.slot?] using hm)
    · rw [takeMove_other_slot hm h k hk]
      exact hh

/-- Every acceptance is one step of the session of every slot; an illegal word leaves it alone (R98). -/
theorem sessionStep_of_accept {p : PortId} (hi : Inv s) (hc : s.chosen = some (.accept p))
    (h : acceptMove p s = .next t) (hh : Hashing s k m msg) : SessionStep s t k m msg := by
  obtain ⟨c, ws, ds, ht, ⟨e, hd, rfl⟩ | ⟨i, hd, he, hidle⟩⟩ :=
    acceptMove_next_of_ready (portReady_of_chosen hi.ports_wf hc) h
  · refine .of_not_accepting (accepting_of_decode_error hc ht hd) ?_ (by rw [digestOut_post, (outputs_consume ..).2])
    rw [hashing_iff] at hh ⊢
    simpa using hh
  · exact sessionStep_of_exec (inv_consume hi (lt_of_chosen_accept hi hc) ws ds) (wf_of_takeCommand_decode ht hd) hidle
      (accepting_of_decode hc ht hd) he hh

end

/-- Settles O54: a step that waits leaves the slot as it is, and an acceptance and a micro-operation, of any slot, are
each one step of the session. -/
theorem sessionHashesItsMessage : Obligations.SessionHashesItsMessage := by
  intro s t k m msg hi hreset hh h
  obtain ⟨hr, -⟩ | ⟨-, hnone, rfl⟩ | ⟨mv, u, -, hc, hu, rfl⟩ := step_next h
  · simp [hreset] at hr
  · exact SessionStep.of_not_accepting (by simp [State.accepting, hnone]) hh rfl
  · refine SessionStep.advanceDraw ?_
    cases hm : mv.slot? with
    | some j => exact sessionStep_of_move hi hc hm hu hh
    | none =>
      cases mv with
      | accept p => exact sessionStep_of_accept hi hc hu hh
      | _ => simp [Move.slot?] at hm

end Sys2Proof.Machine
end

section
/-! The three primitives of the Hardware Interface, when they report no error (R211 to R213). -/

namespace Sys2Proof.Machine

variable {cfg : Config} {m : Mode} {saved : List Word} {blk : List Byte} {e : Engine}

/-- A fresh computation writes its words over whatever the engine held (R211). -/
theorem hwStart_of_ok : hwStart cfg false m blk e =
    ({ h := overwriteWords (engineCompress cfg (famOf m) (engineIV cfg m) blk) e.h, mode := some m }, true) := rfl

/-- A restore of all `NW` words leaves nothing of the engine's own for `Compress` to read (R212). -/
theorem hwContinue_of_ok (h : saved.length = stateWords (famOf m)) : hwContinue cfg false m saved blk e =
    ({ h := overwriteWords (engineCompress cfg (famOf m) saved blk) (overwriteWords saved e.h), mode := some m },
      true) := by
  have hrestored : (overwriteWords saved e.h).take (stateWords (famOf m)) = saved := take_overwriteWords e.h h
  simp [hwContinue, hrestored]

/-- A read answers the words of the family the engine runs, and leaves the engine as it is (R213). -/
theorem hwRead_of_ok (h : e.mode = some m) :
    hwRead false e = (e, some (e.h.take (stateWords (famOf m)))) := by
  simp [hwRead, h]

/-- The significant words after one `Compress` are its result, whatever the registers held (R211, R212). -/
theorem take_overwriteWords_engineCompress (f : Family) (h old : List Word) :
    (overwriteWords (engineCompress cfg f h blk) old).take (stateWords f) = engineCompress cfg f h blk :=
  take_overwriteWords old (length_engineCompress ..)

/-- Settles O33: each primitive by its equation; the words it leaves in the registers are those it wrote last. -/
theorem enginePrimitives : Obligations.EnginePrimitives := by
  intro cfg m saved blk e
  refine ⟨?fresh, fun hsaved => ?restored, hwRead_of_ok⟩
  case fresh =>
    rw [hwStart_of_ok]
    exact ⟨rfl, rfl, take_overwriteWords_engineCompress ..⟩
  case restored =>
    rw [hwContinue_of_ok hsaved]
    exact ⟨rfl, rfl, take_overwriteWords_engineCompress ..⟩

end Sys2Proof.Machine
end

section
/-! The error protocol, and that no step faults: an accepted command has an answer for every case, and a micro-operation
is taken only where its `requires` line holds (R244, R250). -/

namespace Sys2Proof.Machine

/-- Settles O34: `raisedAt_raise` at each of the five errors. -/
theorem errorProtocol : Obligations.ErrorProtocol := fun s k =>
  ⟨raisedAt_raise s k .hardwareUnavailable, raisedAt_raise s k .hardwareBusy, raisedAt_raise s k .invalidArgument,
    raisedAt_raise s k .invalidState, raisedAt_raise s k .hardwareError⟩

/-! ### The acceptance of a command -/

/-- Acceptance itself raises no fault (R96). -/
theorem whenAccepted_fault {s : State} {sid : BitVec 16} {c : Command} {body : Host.Outcome State Fault Refusal}
    {r : Fault} (h : whenAccepted s sid c body = .fault r) : body = .fault r := by
  obtain ⟨-, -, he⟩ | ⟨-, -, he⟩ | ⟨-, he⟩ := whenAccepted_cases s sid c body <;> rw [he] at h
  · exact h
  · simp at h
  · simp at h

/-- The checks of `UPDATE` and `FINISH` raise no fault (R247). -/
theorem whenPermitted_ne_fault (s : State) (k : Nat) (badArg : Bool) (f : Ctx → State) (r : Fault) :
    whenPermitted s k badArg (fun c => .next (f c)) ≠ .fault r := by
  obtain ⟨-, he⟩ | ⟨-, -, he⟩ | ⟨c, -, -, -, he⟩ | ⟨c, -, -, -, -, he⟩ | ⟨c, -, -, -, -, he⟩ :=
    whenPermitted_cases s k badArg (fun c => .next (f c)) <;> rw [he] <;> nofun

theorem starts_ne_fault (m : Mode) (sid : BitVec 16) (c : Command) (s : State) (r : Fault) :
    starts m sid c s ≠ .fault r := by
  intro h
  have hbody := whenAccepted_fault h
  split at hbody <;> simp at hbody

/-- Every instruction is answered or refused, in every state (R244). -/
theorem exec_ne_fault (i : Instr) (s : State) (r : Fault) : exec i s ≠ .fault r := by
  cases i with
  | hwinit =>
    cases hr : s.hwReady with
    | false => simp [exec_hwinit_of_down hr rfl]
    | true => simp [exec_hwinit_of_up hr]
  | update nullbuf sid len data => exact fun h => whenPermitted_ne_fault _ _ _ _ r (whenAccepted_fault h)
  | finish nullbuf sid => exact fun h => whenPermitted_ne_fault _ _ _ _ r (whenAccepted_fault h)
  | _ sid => exact starts_ne_fault _ sid _ s r

/-- Where a whole command stands at the head of the channels, its acceptance raises no fault (R94, R96). -/
theorem acceptMove_ne_fault {p : PortId} {s : State} (hr : portReady s (s.port p) = true) (r : Fault) :
    acceptMove p s ≠ .fault r := by
  obtain ⟨c, ws, ds, ht, -⟩ := (portReady_iff s _).1 hr
  cases hd : decodeCommand c with
  | ok i => simpa [acceptMove, ht, hd] using exec_ne_fault i (s.consume p ws ds) r
  | error e => simp [acceptMove, ht, hd]

/-! ### The micro-operations -/

theorem absorb_ne_fault {s : State} {k : Nat} (hs : (s.slot k).seq = .absorb) (r : Fault) : absorb k s ≠ .fault r := by
  simp only [absorb, hs, if_true]
  split
  · nofun
  · split_ifs <;> nofun

theorem acquire_ne_fault {s : State} {k : Nat} (hs : (s.slot k).seq = .acq) (hl : s.lock = .free) (r : Fault) :
    acquire k s ≠ .fault r := by
  simp [acquire, hs, hl]

theorem acquireTimeout_ne_fault {s : State} {k : Nat} (hs : (s.slot k).seq = .acq)
    (hl : heldByOther s.lock k = true) (ht : s.cfg.lockTimeout = true) (r : Fault) : acquireTimeout k s ≠ .fault r := by
  simp [acquireTimeout, hs, hl, ht]

theorem feedBlock_ne_fault {s : State} {k : Nat} (hs : (s.slot k).seq = .feed) (hl : s.lock = .held k) (r : Fault) :
    feedBlock k s ≠ .fault r := by
  rw [feedBlock, if_pos ⟨hs, hl⟩]
  split
  · nofun
  · split_ifs <;> nofun

theorem release_ne_fault {s : State} {k : Nat} (hs : (s.slot k).seq = .rel) (hl : s.lock = .held k) (r : Fault) :
    release k s ≠ .fault r := by
  rw [release, if_pos ⟨hs, hl⟩]
  split_ifs <;> nofun

theorem extract_ne_fault {s : State} {k : Nat} (hs : (s.slot k).seq = .extract) (r : Fault) :
    extract k s ≠ .fault r := by
  simp only [extract, hs, if_true]
  split
  · nofun
  · split_ifs <;> nofun

/-- A sequencer's enabled micro-operation meets its `requires` line (R40, R121 to R124, R163, R200). -/
theorem takeMove_ne_fault_of_seqMove {s : State} {k : Nat} {m : Move} (h : seqMove s k (s.slot k) = some m)
    (r : Fault) : takeMove m s ≠ .fault r := by
  obtain ⟨hs, rfl⟩ | ⟨hs, hl, rfl⟩ | ⟨hs, hl, ht, rfl⟩ | ⟨hs, hl, rfl⟩ | ⟨hs, hl, rfl⟩ | ⟨hs, rfl⟩ :=
    (seqMove_eq_some s k _ m).1 h
  · exact absorb_ne_fault hs r
  · exact acquire_ne_fault hs hl r
  · exact acquireTimeout_ne_fault hs hl ht r
  · exact feedBlock_ne_fault hs hl r
  · exact release_ne_fault hs hl r
  · exact extract_ne_fault hs r

/-! ### The step -/

/-- A faulting step has taken a move that faults; the reset event and waiting do not (R280). -/
theorem step_fault {s : State} {r : Fault} (h : step s = .fault r) :
    ∃ m, s.chosen = some m ∧ takeMove m s = .fault r := by
  unfold step stepOnce at h
  split at h
  · simp at h
  · split at h
    · simp at h
    · next m hc =>
      refine ⟨m, hc, ?_⟩
      cases ht : takeMove m s <;> simp_all

/-- Settles O42: in canonical stores the chosen move is an acceptance of a whole command or a sequencer's own enabled
micro-operation, and neither faults. -/
theorem stepNeverFaults : Obligations.StepNeverFaults := by
  intro s r hslots hports h
  obtain ⟨m, hc, hm⟩ := step_fault h
  obtain ⟨p, rfl, hready⟩ | ⟨k, hseq⟩ := (mem_enabledMoves hslots hports m).1 (chosen_mem hc)
  · exact acceptMove_ne_fault hready r hm
  · exact takeMove_ne_fault_of_seqMove hseq r hm

end Sys2Proof.Machine
end

section
/-! Reset, waiting, and commands for a busy slot: the reset event clears the block, nothing deadlocks, and a command for
a busy slot stays where it is (R280, R291, R303). -/

namespace Sys2Proof.Machine

/-! ### Reset and waiting -/

/-- Settles O2: the step is the reset event, and what it leaves is empty. -/
theorem resetEventClearsTheBlock : Obligations.ResetEventClearsTheBlock := by
  intro s hr
  refine ⟨s.resetEvent, by simp [step, stepOnce, hr], rfl, rfl, rfl, fun k => ?_, fun p => ?_, rfl, rfl⟩
  · simp [Slot.reset]
  · simp [Port.empty]

/-- Settles O3: nothing can be picked from an empty list of moves, whatever the draw. -/
theorem blockWaitsWithNoMove : Obligations.BlockWaitsWithNoMove := by
  intro s hr hnone
  have hchosen : s.chosen = none := by simp [State.chosen, hnone]
  simp [step, stepOnce, hr, hchosen]

/-! ### No deadlock -/

/-- The slot that holds the lock can go on: it is at `FEED` or `REL` (R301(d)). -/
theorem exists_seqMove_of_lock_held {s : State} {j : Nat} (hi : Inv s) (hl : s.lock = .held j) :
    ∃ m, seqMove s j (s.slot j) = some m := by
  have hseq : (s.slot j).seq = .feed ∨ (s.slot j).seq = .rel := by
    simpa [holdsLock] using (hi.lock_iff j).1 hl
  obtain hs | hs := hseq <;> simp [seqMove, hs, hl]

/-- While a slot is busy some sequencer has a move: its own, or, when it waits for the lock, the holder's (R303). -/
theorem exists_seqMove_of_busy {s : State} {k : Nat} (hi : Inv s) (hk : (s.slot k).seq ≠ .idle) :
    ∃ m j, seqMove s j (s.slot j) = some m := by
  cases hl : s.lock with
  | held j =>
    obtain ⟨m, hm⟩ := exists_seqMove_of_lock_held hi hl
    exact ⟨m, j, hm⟩
  | free =>
    cases hs : (s.slot k).seq with
    | idle => exact absurd hs hk
    | absorb => exact ⟨.absorb k, k, by simp [seqMove, hs]⟩
    | acq => exact ⟨.acquire k, k, by simp [seqMove, hs, hl]⟩
    | feed => simp [lock_held_of_seq hi (.inl hs)] at hl
    | rel => simp [lock_held_of_seq hi (.inr hs)] at hl
    | extract => exact ⟨.extract k, k, by simp [seqMove, hs]⟩

/-- Settles O53: some sequencer has a move, and the canonical store lists it. -/
theorem busyBlockCanMove : Obligations.BusyBlockCanMove := by
  intro s k hi hk
  obtain ⟨m, j, hm⟩ := exists_seqMove_of_busy hi hk
  exact ⟨m, j, (mem_enabledMoves hi.slots_wf hi.ports_wf m).2 (.inr ⟨j, hm⟩), slot?_of_seqMove hm⟩

/-! ### A command for a busy slot -/

/-- A command for a busy slot goes back to the head of its channels (R291). -/
theorem exec_of_busy {i : Instr} {sid : BitVec 16} {s : State} (hs : instrSid i = some sid)
    (hb : s.isIdle (sidNat sid) = false) : exec i s = .next (s.putBack (.slot (sidNat sid)) (encode i)) := by
  obtain ⟨body, he⟩ := exec_eq_whenAccepted hs s
  simp [he, whenAccepted, hb]

/-- Putting a command back undoes the taking of it (R291). -/
theorem port_putBack_consume {s : State} {p : PortId} {c : Command} {ws : List CmdWord} {ds : List Byte}
    (hw : (s.port p).cmd = c.words ++ ws) (hd : (s.port p).dataIn = c.data ++ ds) (q : PortId) :
    ((s.consume p ws ds).putBack p c).port q = s.port q := by
  by_cases hq : q = p
  · subst hq
    simp [State.putBack, ← hw, ← hd]
  · simp [State.putBack, hq]

/-- Settles O16: the command is put back, and its channels are as before the taking. -/
theorem commandForBusySlotWaits : Obligations.CommandForBusySlotWaits := by
  intro i sid s ws ds hs hb hw hd
  refine ⟨_, exec_of_busy hs (by simpa using hb), fun k => ?_, port_putBack_consume hw hd, ?_⟩
  · simp
  · simp [sameGlobals]

theorem channels_post (s : State) (p q : PortId) (st : Status) :
    ((s.post p st).port q).cmd = (s.port q).cmd ∧ ((s.post p st).port q).dataIn = (s.port q).dataIn := by
  by_cases hq : q = p
  · subst hq
    simp
  · simp [hq]

theorem channels_raise (s : State) (k : Nat) (q : PortId) (e : Status) :
    ((s.raise k e).port q).cmd = (s.port q).cmd ∧ ((s.raise k e).port q).dataIn = (s.port q).dataIn := by
  simp [State.raise, channels_post]

/-- A command that meets no busy slot changes no command channel and no data-in stream after it is taken off (R96). -/
theorem exec_channels {i : Instr} {s t : State} (hidle : ∀ sid, instrSid i = some sid → s.isIdle (sidNat sid) = true)
    (h : exec i s = .next t) (q : PortId) : (t.port q).cmd = (s.port q).cmd ∧ (t.port q).dataIn = (s.port q).dataIn := by
  rcases exec_next h with ⟨-, -, rfl⟩ | ⟨sid, -, -, -, rfl⟩ | ⟨sid, hs, hb, -⟩ | ⟨sid, m, -, -, -, -, -, rfl⟩ |
    ⟨sid, m, -, -, -, -, -, rfl⟩ | ⟨sid, e, -, -, -, -, rfl, -⟩ |
    ⟨nullbuf, sid, len, data, c, -, -, -, -, -, -, -, rfl⟩ | ⟨nullbuf, sid, c, -, -, -, -, -, -, -, rfl⟩
  · cases s.draw.initOk <;> simp [bringUpResult, channels_post]
  · exact channels_post ..
  · simp [hidle sid hs] at hb
  · simp [channels_post]
  · exact channels_post ..
  · exact channels_raise ..
  · simp
  · simp

/-- An acceptance takes words and bytes off its own channels only (R63, R96). -/
theorem acceptMove_other_channels {p q : PortId} {s t : State} (hr : portReady s (s.port p) = true)
    (h : acceptMove p s = .next t) (hq : q ≠ p) :
    (t.port q).cmd = (s.port q).cmd ∧ (t.port q).dataIn = (s.port q).dataIn := by
  obtain ⟨c, ws, ds, -, ⟨e, -, rfl⟩ | ⟨i, -, he, hidle⟩⟩ := acceptMove_next_of_ready hr h
  · simp [hq]
  · simpa [hq] using exec_channels (by simpa using hidle) he q

/-- A step that does not accept at `q` takes nothing off the channels `q` (R77, R96). -/
theorem step_channels_of_not_accepted {s t : State} {q : PortId} (hp : sparseWf Port.empty s.ports = true)
    (hr : s.resetReq = false) (hq : s.chosen ≠ some (.accept q)) (h : step s = .next t) :
    (t.port q).cmd = (s.port q).cmd ∧ (t.port q).dataIn = (s.port q).dataIn := by
  obtain ⟨hr', -⟩ | ⟨-, -, rfl⟩ | ⟨m, u, -, hc, hu, rfl⟩ := step_next h
  · simp [hr] at hr'
  · simp
  · rw [port_advanceDraw]
    cases hm : m.slot? with
    | some k => exact takeMove_channels hm hu q
    | none =>
      cases m <;> simp only [Move.slot?, reduceCtorEq] at hm
      next p =>
        have hne : q ≠ p := by
          rintro rfl
          exact hq hc
        exact acceptMove_other_channels (portReady_of_chosen hp hc) hu hne

/-- An acceptance is enabled only where a command can be accepted: some draw would choose it (R70, R96). -/
theorem portReady_of_mem_enabledMoves {s : State} {p : PortId} (hp : sparseWf Port.empty s.ports = true)
    (h : .accept p ∈ enabledMoves s) : portReady s (s.port p) = true := by
  obtain ⟨d, -, hc⟩ := anyEnabledMoveMayBeNext s _ h
  cases p <;> exact portReady_of_chosen (s := { s with tape := d :: s.tape.tail }) hp hc

/-- A `STARTS`, `UPDATE` or `FINISH` for a busy slot cannot be accepted (R96, R291). -/
theorem portReady_eq_false_of_busy {s : State} {q : Port} {c : Command} {ws : List CmdWord} {ds : List Byte}
    (ht : takeCommand q.cmd q.dataIn = some (c, ws, ds)) (ho : cwOp c.cw = 1#4 ∨ cwOp c.cw = 2#4 ∨ cwOp c.cw = 3#4)
    (hb : (s.slot (sidNat (cwSid c.cw))).seq ≠ .idle) : portReady s q = false := by
  have hidle : s.isIdle (sidNat (cwSid c.cw)) = false := by simpa [State.isIdle] using hb
  obtain ho | ho | ho := ho <;> simp [portReady, ht, acceptable, ho, hidle]

/-- Settles O26: no acceptance is enabled at the channels of the command, so no step takes anything off them. -/
theorem busySlotLeavesCommandWaiting : Obligations.BusySlotLeavesCommandWaiting := by
  intro s t p c ws ds hp hr ht ho hb
  have hnot : .accept p ∉ enabledMoves s := fun hm => by
    simpa [portReady_eq_false_of_busy ht ho hb] using portReady_of_mem_enabledMoves hp hm
  exact ⟨hnot, step_channels_of_not_accepted hp hr fun hc => hnot (chosen_mem hc)⟩

end Sys2Proof.Machine
end
